-- ==== Sys2Proof/Word.lean ====
section
/-! DEFINITION. The one word type of the block: every host location, wire byte and buffer byte is 8 bits
(00_scope.md R8, R9). -/

namespace Sys2Proof

/-- One byte, unsigned (R9). -/
abbrev Byte := BitVec 8

end Sys2Proof
end

