-- ==== Sys2Proof/Config.lean ====
section
/-! DEFINITION. What the build and the platform fix and the spec leaves OPEN (R7, D20; R77, D28). Each is an
opaque constant: no proof can see its value, so a claim holds for every value (log 6). -/

namespace Sys2Proof

/-- P_CTRL_VENDOR, the controller vendor code (R7, OPEN). -/
opaque Config.ctrlVendor : BitVec 8
/-- P_MC_TYPE, the motor-controller type (R7, OPEN). -/
opaque Config.mcType : BitVec 8
/-- P_ACK_CLASS, the fixed acknowledgement class (R7, OPEN). -/
opaque Config.ackClass : BitVec 6
/-- P_SYS_VENDOR, the fixed system vendor code (R7, OPEN). -/
opaque Config.sysVendor : BitVec 8
/-- P_SYS_TYPE, the fixed system type code (R7, OPEN). -/
opaque Config.sysType : BitVec 8
/-- P_SYS_CLASS, the system class (R7, OPEN). -/
opaque Config.sysClass : BitVec 6
/-- P_BASE, the host system address of block address 0x00 (R77, D28, OPEN; no rule depends on it). -/
opaque Config.base : Nat

/-- The six code parameters together: the validation rules take them as an argument (R7). -/
structure Params where
  ctrlVendor : BitVec 8
  mcType : BitVec 8
  ackClass : BitVec 6
  sysVendor : BitVec 8
  sysType : BitVec 8
  sysClass : BitVec 6
  deriving DecidableEq, Repr

/-- The parameters this block was built with. -/
def Config.params : Params :=
  { ctrlVendor := Config.ctrlVendor, mcType := Config.mcType, ackClass := Config.ackClass,
    sysVendor := Config.sysVendor, sysType := Config.sysType, sysClass := Config.sysClass }

end Sys2Proof
end

