-- ==== Sys2Proof/Syntax.lean ====
section
/-! DEFINITION. The instructions: one constructor per row of spec/opcode_table.json. The command rows are the
bytes the host writes to CMD (R81, R83); the wire rows are the units SYNC reads from the channel (R86 to R90). -/

namespace Sys2Proof

/-- One row of the opcode table, with the operand bits the row leaves open. -/
inductive Instr where
  /-- Complete at once with CODE 0 (R200). -/
  | nop
  /-- Encode REQ into TXBUF (R120). -/
  | enc
  /-- Decode RXBUF into RX (R121). -/
  | dec
  /-- Encode REQ and write the frame to the channel (R155). -/
  | send
  /-- Receive one frame and decode it into RX (R156). -/
  | recv
  /-- Validate RX as the Acknowledgement of REQ (R180). -/
  | vack
  /-- Validate RX as the Device Reply to REQ (R181). -/
  | vdrep
  /-- Validate RX as the System Reply to REQ (R182). -/
  | vsrep
  /-- Command-with-acknowledgement exchange (R183). -/
  | xcmd
  /-- Query exchange with a Device Reply (R184). -/
  | xqry
  /-- Query exchange with a System Reply (R185). -/
  | xsqry
  /-- End the running command; a no-op when idle (R201). -/
  | abort
  /-- Command byte 0x0B, reserved (R84, R202). -/
  | illegal0B
  /-- Command byte 0x0C, reserved (R84, R202). -/
  | illegal0C
  /-- Command byte 0x0D, reserved (R84, R202). -/
  | illegal0D
  /-- Command byte 0x0E, reserved (R84, R202). -/
  | illegal0E
  /-- A command byte with RSV (bits 7:4) not 0000 (R84, R202). -/
  | illegalRsv (rsv op : BitVec 4)
  /-- The start marker met by the hunt (R144). -/
  | wireStart
  /-- Any other byte met by the hunt (R144). -/
  | wireNoise (b : Byte)
  /-- The length byte, offset 1 (R145). -/
  | wireLength (l : Byte)
  /-- Identifier byte 0, offset 2 (R87, R146). -/
  | wireId0 (idxLo : BitVec 2) (dev : BitVec 6)
  /-- Identifier byte 1, offset 3 (R87, R146). -/
  | wireId1 (cls : BitVec 6) (idxHi : BitVec 2)
  /-- Identifier byte 2, offset 4 (R87, R146). -/
  | wireId2 (mfr : Byte)
  /-- Identifier byte 3, offset 5 (R87, R146). -/
  | wireId3 (typ : Byte)
  /-- A one-byte payload unit (R89, R147). -/
  | wireLiteral (d : Byte)
  /-- The payload unit ESC ESC, logical byte START (R89). -/
  | wireEscStart
  /-- The payload unit ESC ALT, logical byte ESC (R89). -/
  | wireEscEsc
  /-- A payload unit ESC x that spells no byte (R90). -/
  | wireEscInvalid (x : Byte)
  deriving DecidableEq, Repr

/-- Where a byte stands: on the CMD register, or at a place of a wire frame. What a byte means depends on
it (R80, R86). -/
inductive Place where
  /-- A byte written to CMD while idle (R82). -/
  | command
  /-- Before a frame (R144). -/
  | hunt
  /-- Offset 1 (R145). -/
  | length
  /-- Offset 2 (R87). -/
  | id0
  /-- Offset 3 (R87). -/
  | id1
  /-- Offset 4 (R87). -/
  | id2
  /-- Offset 5 (R87). -/
  | id3
  /-- From offset 6: payload units (R89). -/
  | payload
  deriving DecidableEq, Repr

/-- Why bytes do not decode: only because there are not enough of them (every byte value has a row). -/
inductive DecodeError where
  /-- There is no byte. -/
  | noByte
  /-- A payload unit whose first byte is ESC lacks its second byte (R92). -/
  | halfUnit
  deriving DecidableEq, Repr

end Sys2Proof
end

