-- ==== Sys2Proof/WellFormed.lean ====
section
/-! DEFINITION. Which operand values a row admits: RSV is not 0000 in an illegal byte (R84), noise is not START
(R144), a literal is not ESC (R92), an invalid pair's second byte is neither ESC nor ALT (R90). -/

namespace Sys2Proof

/-- The operands are ones the row's encoding admits. -/
def Instr.wf : Instr → Bool
  | .nop | .enc | .dec | .send | .recv | .vack | .vdrep | .vsrep | .xcmd | .xqry | .xsqry | .abort => true
  | .illegal0B | .illegal0C | .illegal0D | .illegal0E => true
  | .illegalRsv rsv _ => rsv != 0x0#4
  | .wireStart => true
  | .wireNoise b => b != 0xFF#8
  | .wireLength _ => true
  | .wireId0 _ _ | .wireId1 _ _ | .wireId2 _ | .wireId3 _ => true
  | .wireLiteral d => d != 0xFE#8
  | .wireEscStart | .wireEscEsc => true
  | .wireEscInvalid x => x != 0xFE#8 && x != 0xFD#8

end Sys2Proof
end

