-- ==== Sys2Proof/Decode.lean ====
section
/-! DEFINITION. The decoder of the two encodings (R80): the command byte (R81 to R84) and the units of the wire
frame (R86 to R93), and after it the encoder. -/

namespace Sys2Proof

/-- START, the start marker (R14). -/
def startByte : Byte := 0xFF#8
/-- ESC, the escape byte (R14). -/
def escByte : Byte := 0xFE#8
/-- ALT, the alt-escape byte (R14). -/
def altByte : Byte := 0xFD#8

/-- The opcode map (R83, R84): the command of an OP with RSV = 0000. -/
def commandOfOp (op : BitVec 4) : Instr :=
  match op.toNat with
  | 0 => .nop
  | 1 => .enc
  | 2 => .dec
  | 3 => .send
  | 4 => .recv
  | 5 => .vack
  | 6 => .vdrep
  | 7 => .vsrep
  | 8 => .xcmd
  | 9 => .xqry
  | 10 => .xsqry
  | 11 => .illegal0B
  | 12 => .illegal0C
  | 13 => .illegal0D
  | 14 => .illegal0E
  | _ => .abort

/-- A command byte: RSV in [7:4], OP in [3:0] (R81). Every byte is a row (R83, R84). -/
def decodeCommand (v : Byte) : Instr :=
  if v.extractLsb' 4 4 = 0x0#4 then commandOfOp (v.extractLsb' 0 4)
  else .illegalRsv (v.extractLsb' 4 4) (v.extractLsb' 0 4)

/-- The payload unit ESC c (R89, R90). -/
def decodeEscape (c : Byte) : Instr :=
  if c = escByte then .wireEscStart
  else if c = altByte then .wireEscEsc
  else .wireEscInvalid c

/-- Decode the unit that starts a list of bytes standing at a place; the rest of the list comes back. Only the
payload has units of two bytes, told by their first byte (R92). -/
def decode (p : Place) : List Byte → Except DecodeError (Instr × List Byte)
  | [] => .error .noByte
  | b :: rest =>
    match p with
    | .command => .ok (decodeCommand b, rest)
    | .hunt => .ok (if b = startByte then .wireStart else .wireNoise b, rest)
    | .length => .ok (.wireLength b, rest)
    | .id0 => .ok (.wireId0 (b.extractLsb' 6 2) (b.extractLsb' 0 6), rest)
    | .id1 => .ok (.wireId1 (b.extractLsb' 2 6) (b.extractLsb' 0 2), rest)
    | .id2 => .ok (.wireId2 b, rest)
    | .id3 => .ok (.wireId3 b, rest)
    | .payload =>
      if b = escByte then
        match rest with
        | [] => .error .halfUnit
        | c :: rest' => .ok (decodeEscape c, rest')
      else .ok (.wireLiteral b, rest)

/-- The place a row's unit stands at (the table's "context"). -/
def Instr.place : Instr → Place
  | .nop | .enc | .dec | .send | .recv | .vack | .vdrep | .vsrep | .xcmd | .xqry | .xsqry | .abort => .command
  | .illegal0B | .illegal0C | .illegal0D | .illegal0E | .illegalRsv _ _ => .command
  | .wireStart | .wireNoise _ => .hunt
  | .wireLength _ => .length
  | .wireId0 _ _ => .id0
  | .wireId1 _ _ => .id1
  | .wireId2 _ => .id2
  | .wireId3 _ => .id3
  | .wireLiteral _ | .wireEscStart | .wireEscEsc | .wireEscInvalid _ => .payload

/-- The bytes of an instruction, in wire order (R81, R83, R86, R87, R89). -/
def encode : Instr → List Byte
  | .nop => [0x00#8]
  | .enc => [0x01#8]
  | .dec => [0x02#8]
  | .send => [0x03#8]
  | .recv => [0x04#8]
  | .vack => [0x05#8]
  | .vdrep => [0x06#8]
  | .vsrep => [0x07#8]
  | .xcmd => [0x08#8]
  | .xqry => [0x09#8]
  | .xsqry => [0x0A#8]
  | .abort => [0x0F#8]
  | .illegal0B => [0x0B#8]
  | .illegal0C => [0x0C#8]
  | .illegal0D => [0x0D#8]
  | .illegal0E => [0x0E#8]
  | .illegalRsv rsv op => [rsv ++ op]
  | .wireStart => [startByte]
  | .wireNoise b => [b]
  | .wireLength l => [l]
  | .wireId0 idxLo dev => [idxLo ++ dev]
  | .wireId1 cls idxHi => [cls ++ idxHi]
  | .wireId2 mfr => [mfr]
  | .wireId3 typ => [typ]
  | .wireLiteral d => [d]
  | .wireEscStart => [escByte, escByte]
  | .wireEscEsc => [escByte, altByte]
  | .wireEscInvalid x => [escByte, x]

/-- Which encoding a bare word of the opcode table is read in (log 9): the table gives no place, so a 16-bit
word is a payload unit, the 8-bit word 0xFF is the start marker (its row's only word), and every other 8-bit
word is a command byte. -/
def tablePlace (nbits w : Nat) : Place :=
  if nbits = 16 then .payload else if w = 0xFF then .hunt else .command

/-- The bytes of a table word in wire order: the table writes a two-byte unit as one 16-bit number whose high
byte goes first (log 9). -/
def tableBytes (nbits w : Nat) : List Byte :=
  if nbits = 16 then [BitVec.ofNat 8 (w / 256), BitVec.ofNat 8 w] else [BitVec.ofNat 8 w]

/-- The instruction a word of spec/opcode_table.json is: every byte of the word must belong to it. -/
def decodeTableWord (nbits w : Nat) : Option Instr :=
  if nbits = 8 ∨ nbits = 16 then
    match decode (tablePlace nbits w) (tableBytes nbits w) with
    | .ok (i, []) => some i
    | _ => none
  else none

end Sys2Proof
end

