-- ==== Sys2Proof/Machine/State.lean ====
section
/-! DEFINITION. The machine's state as plain data: the block's registers and buffers (10_state.md R20), the
channel port's two request lines (R140), the reset line (R250), and the environment (host, channel, turns) as
lists the step reads. -/

namespace Sys2Proof.Machine

open Sys2Proof

/-- The frame buffers' bytes as (host address, byte) pairs; an unlisted address reads 0x00 (R251). -/
abbrev Memory := List Host.Cell

/-- The eight payload bytes DATA0 to DATA7 of a bank (R21). -/
structure Payload where
  data0 : Byte
  data1 : Byte
  data2 : Byte
  data3 : Byte
  data4 : Byte
  data5 : Byte
  data6 : Byte
  data7 : Byte
  deriving DecidableEq, Repr

/-- A message bank: one Message, each field at its register's width (R21). -/
structure Bank where
  device : BitVec 6
  apiClass : BitVec 6
  apiIndex : BitVec 4
  manufacturer : Byte
  deviceType : Byte
  dataSize : BitVec 4
  data : Payload
  deriving DecidableEq, Repr

/-- The frame synchronizer's states, the register DFR_STATE (R33). -/
inductive DfrState where
  /-- No SYNC has run since reset. -/
  | idle
  /-- Discarding bytes until START. -/
  | hunt
  /-- The next byte is the length byte. -/
  | len
  /-- Reading the identifier bytes. -/
  | id
  /-- Reading payload units. -/
  | body
  /-- The next byte is the second byte of an escaped unit. -/
  | esc
  /-- The frame's units have been read. -/
  | done
  deriving DecidableEq, Repr

/-- The error codes ERRCODE.CODE can hold (R220). -/
inductive ErrorCode where
  | ok
  | transportRx
  | transportTx
  | decEscape
  | decLength
  | protoAck
  | protoReply
  | badSize
  | illegalCmd
  | aborted
  deriving DecidableEq, Repr

/-- The stages ERRCODE.STAGE can hold (R221). -/
inductive Stage where
  /-- Stage 0: not inside an exchange. -/
  | outside
  /-- Stage 1: the request of an exchange. -/
  | request
  /-- Stage 2: the first response frame. -/
  | first
  /-- Stage 3: the second response frame. -/
  | second
  deriving DecidableEq, Repr

/-- The phases a command's list is made of (R31). -/
inductive Phase where
  | encode
  | write
  | sync
  | decode
  | checkAck
  | checkDrep
  | checkSrep
  | copyRpl
  deriving DecidableEq, Repr

/-- The three message banks (R21). -/
inductive BankName where
  | req
  | rx
  | rpl
  deriving DecidableEq, Repr

/-- An answer to `ChanRead` (R11, R140). -/
inductive RxAnswer where
  | byte (b : Byte)
  | eof
  | err
  deriving DecidableEq, Repr

/-- An answer to `ChanWrite` (R11, R140). With `err`, `reached` says how many of the frame's bytes the peer
got: any prefix, free (R74, U4, log 7). -/
inductive TxAnswer where
  | ok
  | err (reached : Nat)
  deriving DecidableEq, Repr

/-- One `ChanWrite` the channel has answered: the list handed over and the answer (R141). -/
structure Sent where
  frame : List Byte
  answer : TxAnswer
  deriving DecidableEq, Repr

/-- One bus cycle of the host's program (R101), or the polling loop WAIT (R102). -/
inductive HostOp where
  /-- `W aa dd`. -/
  | write (addr value : Byte)
  /-- `R aa`. -/
  | read (addr : Byte)
  /-- `R 01` repeated until bit 0 of the value read is 0. -/
  | wait
  deriving DecidableEq, Repr

/-- Who moves next (log 3). -/
inductive Turn where
  /-- The host performs its next bus cycle. -/
  | host
  /-- The block takes a step, if it can. -/
  | block
  /-- The reset line is driven to a level (R250). -/
  | rst (level : Bool)
  deriving DecidableEq, Repr

/-- The machine. The first group is the spec's state (R20); the second the channel port's request lines (R140)
and the reset line (R250); the third the environment, free data (log 3). -/
structure State where
  lastCmd : Byte
  busy : Bool
  done : Bool
  txValid : Bool
  rxValid : Bool
  rplValid : Bool
  hostOvr : Bool
  errCode : ErrorCode
  errStage : Stage
  errInfo : Byte
  seqOp : BitVec 4
  seqIdx : BitVec 4
  dfrState : DfrState
  dfrUnits : Byte
  discard : BitVec 16
  rxLen : Byte
  rxOvh : Byte
  rxPlen : Byte
  txPlen : Byte
  req : Bank
  rx : Bank
  rpl : Bank
  mem : Memory
  rxReq : Bool
  txReq : Bool
  rst : Bool
  turns : List Turn
  host : List HostOp
  reads : List Byte
  chanIn : List RxAnswer
  chanOut : List TxAnswer
  sent : List Sent
  deriving DecidableEq, Repr

/-- Why the machine stops. Both reasons are excluded in every state that keeps the invariant (log 13). -/
inductive Fault where
  /-- SYNC would store a byte past `RXBUF[21]`: that byte does not exist (R26). Raised by SYNC's stores; safe. -/
  | rxbufOverrun
  /-- WRITE would send bytes past `TXBUF[21]`: they do not exist (R25). Raised by WRITE; safe. -/
  | txbufOverrun
  deriving DecidableEq, Repr

/-- Why an instruction has no meaning here. -/
inductive Refusal where
  /-- The instruction has no meaning yet. Raised by exec's refused arms only; safe. -/
  | notModelled (mnemonic : String)
  /-- A wire unit is offered where the deframer does not stand at that unit's place (log 11). Raised by the wire
  units' meanings when the byte is, at the deframer's place, another row's unit; the step never does this; safe. -/
  | notAtPlace (mnemonic : String)
  deriving DecidableEq, Repr

/-- How a phase's step ends (R32): the phase has ended, it holds for the channel, it has raised an error (R12),
or it left a buffer. -/
inductive PhaseEnd where
  | ended (s : State)
  | waiting (s : State)
  | raised (code : ErrorCode) (info : Byte) (s : State)
  | overrun (f : Fault)
  deriving Repr

/-- What the next step does: run an instruction at a state, or something that is no instruction (a host access,
the reset line, the first half of a two-byte unit, a hold). -/
inductive Fetched where
  | run (i : Instr) (s : State)
  | other (o : Host.Outcome State Fault Refusal)
  deriving Repr

/-- All payload bytes zero. -/
def Payload.zero : Payload :=
  { data0 := 0#8, data1 := 0#8, data2 := 0#8, data3 := 0#8, data4 := 0#8, data5 := 0#8, data6 := 0#8, data7 := 0#8 }

/-- A bank whose 16 bytes are 0x00 (R251). -/
def Bank.zero : Bank :=
  { device := 0#6, apiClass := 0#6, apiIndex := 0#4, manufacturer := 0#8, deviceType := 0#8, dataSize := 0#4,
    data := Payload.zero }

/-- The machine right after reset: every register zero (R251), no request outstanding (R250 (b)), the reset line
released; the environment's lists are empty (log 15). -/
def State.reset : State :=
  { lastCmd := 0#8, busy := false, done := false, txValid := false, rxValid := false, rplValid := false,
    hostOvr := false, errCode := .ok, errStage := .outside, errInfo := 0#8, seqOp := 0#4, seqIdx := 0#4,
    dfrState := .idle, dfrUnits := 0#8, discard := 0#16, rxLen := 0#8, rxOvh := 0#8, rxPlen := 0#8, txPlen := 0#8,
    req := Bank.zero, rx := Bank.zero, rpl := Bank.zero, mem := [], rxReq := false, txReq := false, rst := false,
    turns := [], host := [], reads := [], chanIn := [], chanOut := [], sent := [] }

end Sys2Proof.Machine
end

