-- ==== Sys2Proof/Machine/Ops.lean ====
section
/-! DEFINITION. The named operations: bytes of the frame buffers, bytes of a bank, and the machine-wide events
that every command shares: accept (R82), completion and error entry (R224), ABORT's end (R201), a lost host write
(R64), the reset line (R250). There is no return from an error: the block is idle after completion (R225). -/

namespace Sys2Proof.Machine

open Sys2Proof

/-! ### The frame buffers' bytes -/

/-- The byte at an address; an unlisted address reads 0x00, the buffers' reset contents (R251). -/
def Memory.read : Memory → Nat → Byte
  | [], _ => 0#8
  | (b, w) :: rest, a => if a = b then w else Memory.read rest a

/-- Write one byte, keeping addresses rising and no entry 0x00. -/
def Memory.write : Memory → Nat → Byte → Memory
  | [], a, v => if v = 0#8 then [] else [(a, v)]
  | (b, w) :: rest, a, v =>
    if a < b then (if v = 0#8 then (b, w) :: rest else (a, v) :: (b, w) :: rest)
    else if a = b then (if v = 0#8 then rest else (a, v) :: rest)
    else (b, w) :: Memory.write rest a v

/-- The canonical form: addresses strictly rising, no entry equal to what an unlisted address reads as. -/
abbrev Memory.wf (m : Memory) : Prop :=
  m.Pairwise (fun c d => c.1 < d.1) ∧ ∀ c ∈ m, c.2 ≠ 0#8

/-- Write a list of bytes from an address up. -/
def Memory.writeList : Memory → Nat → List Byte → Memory
  | m, _, [] => m
  | m, a, b :: bs => Memory.writeList (Memory.write m a b) (a + 1) bs

/-- Read n bytes from an address up. -/
def Memory.readList : Memory → Nat → Nat → List Byte
  | _, _, 0 => []
  | m, a, n + 1 => Memory.read m a :: Memory.readList m (a + 1) n

/-- A frame buffer holds 22 bytes (R8). -/
def bufSize : Nat := 22
/-- The host address of `TXBUF[0]` (R25). -/
def txbufBase : Nat := 0x40
/-- The host address of `RXBUF[0]` (R26). -/
def rxbufBase : Nat := 0x60

/-- `TXBUF[i]`. -/
def State.txbuf (s : State) (i : Nat) : Byte := Memory.read s.mem (txbufBase + i)
/-- `RXBUF[i]`. -/
def State.rxbuf (s : State) (i : Nat) : Byte := Memory.read s.mem (rxbufBase + i)

/-- A whole frame buffer's contents: the bytes, then 0x00 to its end (R113, R143). -/
def padded (bytes : List Byte) : List Byte := bytes ++ List.replicate (bufSize - bytes.length) 0#8

/-! ### The bytes of a payload and of a bank -/

/-- DATA0 to DATA7 in order. -/
def Payload.toList (p : Payload) : List Byte :=
  [p.data0, p.data1, p.data2, p.data3, p.data4, p.data5, p.data6, p.data7]

/-- The payload holding a list's bytes, 0x00 after them (R114). -/
def Payload.ofList (l : List Byte) : Payload :=
  { data0 := l.getD 0 0#8, data1 := l.getD 1 0#8, data2 := l.getD 2 0#8, data3 := l.getD 3 0#8,
    data4 := l.getD 4 0#8, data5 := l.getD 5 0#8, data6 := l.getD 6 0#8, data7 := l.getD 7 0#8 }

/-- The payload of a Message: data[0] to data[data_size - 1] (R21: bytes from data_size on are not part of it). -/
def Bank.payload (b : Bank) : List Byte := b.data.toList.take b.dataSize.toNat

/-- The byte at a bank offset (R21); reserved bits and offsets read 0 (R62, R63). -/
def Bank.readByte (b : Bank) (off : BitVec 4) : Byte :=
  match off.toNat with
  | 0 => b.device.setWidth 8
  | 1 => b.apiClass.setWidth 8
  | 2 => b.apiIndex.setWidth 8
  | 3 => b.manufacturer
  | 4 => b.deviceType
  | 5 => b.dataSize.setWidth 8
  | 8 => b.data.data0
  | 9 => b.data.data1
  | 10 => b.data.data2
  | 11 => b.data.data3
  | 12 => b.data.data4
  | 13 => b.data.data5
  | 14 => b.data.data6
  | 15 => b.data.data7
  | _ => 0#8

/-- Write the byte at a bank offset; reserved bits and offsets are dropped (R22, R62, R63). -/
def Bank.writeByte (b : Bank) (off : BitVec 4) (v : Byte) : Bank :=
  match off.toNat with
  | 0 => { b with device := v.setWidth 6 }
  | 1 => { b with apiClass := v.setWidth 6 }
  | 2 => { b with apiIndex := v.setWidth 4 }
  | 3 => { b with manufacturer := v }
  | 4 => { b with deviceType := v }
  | 5 => { b with dataSize := v.setWidth 4 }
  | 8 => { b with data := { b.data with data0 := v } }
  | 9 => { b with data := { b.data with data1 := v } }
  | 10 => { b with data := { b.data with data2 := v } }
  | 11 => { b with data := { b.data with data3 := v } }
  | 12 => { b with data := { b.data with data4 := v } }
  | 13 => { b with data := { b.data with data5 := v } }
  | 14 => { b with data := { b.data with data6 := v } }
  | 15 => { b with data := { b.data with data7 := v } }
  | _ => b

/-! ### What every command shares -/

/-- Accept a byte as a command, up to ILLEGAL_CMD (R82). RPL_VALID falls only for XQRY and XSQRY. -/
def State.accept (v : Byte) (s : State) : State :=
  { s with
    lastCmd := v, busy := true, done := false, hostOvr := false,
    errCode := .ok, errStage := .outside, errInfo := 0#8,
    seqOp := v.extractLsb' 0 4, seqIdx := 0#4,
    rplValid := if v = 0x09#8 ∨ v = 0x0A#8 then false else s.rplValid }

/-- Completion, the entry of every error and the end of every success (R224). -/
def State.complete (stage : Stage) (code : ErrorCode) (info : Byte) (s : State) : State :=
  { s with
    errStage := stage, errCode := code, errInfo := info,
    seqOp := 0#4, seqIdx := 0#4, busy := false, done := true }

/-- Withdraw the channel primitive the block has requested and the channel has not answered (R201, R250 (b)). -/
def State.withdraw (s : State) : State := { s with rxReq := false, txReq := false }

/-- A busy ABORT: withdraw, then complete with ABORTED at the running phase's stage (R201). -/
def State.abortAt (stage : Stage) (s : State) : State := s.withdraw.complete stage .aborted 0#8

/-- A host write lost because BUSY = 1 (R64). -/
def State.turnAway (s : State) : State := { s with hostOvr := true }

/-- Every register at its reset value and an unanswered request withdrawn, with the reset line at a level (R250 (a) to
(c)); the channel and the host's program are not touched (R252). -/
def State.resetAll (level : Bool) (s : State) : State :=
  { State.reset with
    rst := level, turns := s.turns, host := s.host, reads := s.reads,
    chanIn := s.chanIn, chanOut := s.chanOut, sent := s.sent }

/-- Drive the reset line (R250): asserting it and releasing it both reset the block; a line that is low and stays low
is no reset (log 14). -/
def State.setRst (level : Bool) (s : State) : State := if level || s.rst then s.resetAll level else s

/-- The turn that moves now is used up. -/
def State.popTurn (s : State) : State := { s with turns := s.turns.tail }

/-- Note the value a host read returned (R100). -/
def State.logRead (v : Byte) (s : State) : State := { s with reads := s.reads ++ [v] }

end Sys2Proof.Machine
end

