-- ==== Sys2Proof/Machine/Flags.lean ====
section
/-! DEFINITION. The numbers behind the named states (R33, R220, R221), the STATUS, ERRCODE and SEQ bytes (R28 to
R31), and the mismatch masks of the three validation rules (R170 to R173). -/

namespace Sys2Proof.Machine

open Sys2Proof

/-- The value of ERRCODE.CODE (R220). -/
def ErrorCode.num : ErrorCode → BitVec 4
  | .ok => 0x0#4
  | .transportRx => 0x1#4
  | .transportTx => 0x2#4
  | .decEscape => 0x3#4
  | .decLength => 0x4#4
  | .protoAck => 0x5#4
  | .protoReply => 0x6#4
  | .badSize => 0x7#4
  | .illegalCmd => 0x8#4
  | .aborted => 0x9#4

/-- The value of ERRCODE.STAGE (R221). -/
def Stage.num : Stage → BitVec 4
  | .outside => 0x0#4
  | .request => 0x1#4
  | .first => 0x2#4
  | .second => 0x3#4

/-- The code of a synchronizer state (R33). -/
def DfrState.num : DfrState → BitVec 3
  | .idle => 0x0#3
  | .hunt => 0x1#3
  | .len => 0x2#3
  | .id => 0x3#3
  | .body => 0x4#3
  | .esc => 0x5#3
  | .done => 0x6#3

/-- STATUS.ERR: always equals (ERRCODE.CODE ≠ 0) (R28). -/
def State.err (s : State) : Bool := s.errCode != .ok

/-- STATUS as the host reads it, bit 7 first; bit 7 reads 0 (R28). -/
def State.status (s : State) : Byte :=
  BitVec.ofBool false ++ BitVec.ofBool s.hostOvr ++ BitVec.ofBool s.rplValid ++ BitVec.ofBool s.rxValid ++
    BitVec.ofBool s.txValid ++ BitVec.ofBool s.err ++ BitVec.ofBool s.done ++ BitVec.ofBool s.busy

/-- ERRCODE: STAGE in [7:4], CODE in [3:0] (R29). -/
def State.errcode (s : State) : Byte := s.errStage.num ++ s.errCode.num

/-- SEQ: phase index in [7:4], OP in [3:0] (R31). -/
def State.seq (s : State) : Byte := s.seqIdx ++ s.seqOp

/-- A mismatch mask from its bits, device_type first (R173). -/
def mismatch (typ mfr idx cls dev : Bool) : BitVec 5 :=
  BitVec.ofBool typ ++ BitVec.ofBool mfr ++ BitVec.ofBool idx ++ BitVec.ofBool cls ++ BitVec.ofBool dev

/-- The Acknowledgement rule's mask; api_index is not tested (R170). -/
def ackMask (P : Params) (req rx : Bank) : BitVec 5 :=
  mismatch (rx.deviceType != P.mcType) (rx.manufacturer != P.ctrlVendor) false
    (rx.apiClass != P.ackClass) (rx.device != req.device)

/-- The Device Reply rule's mask (R171). -/
def drepMask (req rx : Bank) : BitVec 5 :=
  mismatch (rx.deviceType != req.deviceType) (rx.manufacturer != req.manufacturer) (rx.apiIndex != req.apiIndex)
    (rx.apiClass != req.apiClass) (rx.device != req.device)

/-- The System Reply rule's mask (R172). -/
def srepMask (P : Params) (req rx : Bank) : BitVec 5 :=
  mismatch (rx.deviceType != P.sysType) (rx.manufacturer != P.sysVendor) (rx.apiIndex != req.apiIndex)
    (rx.apiClass != P.sysClass) (rx.device != req.device)

end Sys2Proof.Machine
end

