-- ==== Sys2Proof/Machine/Operands.lean ====
section
/-! DEFINITION. The operand forms: the host's 8-bit absolute addresses, one byte an access (R60, R61), the register
map (R39), what a read returns (R62, R63, R65, R250) and what a write does (R22 to R26, R62 to R64). -/

namespace Sys2Proof.Machine

open Sys2Proof

/-- What stands at a host address (R39). -/
inductive Loc where
  | cmd
  | status
  | errcode
  | errinfo
  | dfrState
  | dfrUnits
  | rxLen
  | rxOvh
  | rxPlen
  | txPlen
  | discardLo
  | discardHi
  | seq
  | bank (b : BankName) (off : BitVec 4)
  | txbuf (i : Nat)
  | rxbuf (i : Nat)
  | reserved
  deriving DecidableEq, Repr

/-- The control and status registers, 0x00 to 0x0F (R39). -/
def lowLoc (n : Nat) : Loc :=
  match n with
  | 0 => .cmd
  | 1 => .status
  | 2 => .errcode
  | 3 => .errinfo
  | 4 => .dfrState
  | 5 => .dfrUnits
  | 6 => .rxLen
  | 7 => .rxOvh
  | 8 => .rxPlen
  | 9 => .txPlen
  | 10 => .discardLo
  | 11 => .discardHi
  | 12 => .seq
  | _ => .reserved

/-- The register map (R39). -/
def locOf (addr : Byte) : Loc :=
  if addr.toNat < 0x10 then lowLoc addr.toNat
  else if addr.toNat < 0x20 then .bank .req (addr.extractLsb' 0 4)
  else if addr.toNat < 0x30 then .bank .rx (addr.extractLsb' 0 4)
  else if addr.toNat < 0x40 then .bank .rpl (addr.extractLsb' 0 4)
  else if addr.toNat < 0x56 then .txbuf (addr.toNat - 0x40)
  else if addr.toNat < 0x60 then .reserved
  else if addr.toNat < 0x76 then .rxbuf (addr.toNat - 0x60)
  else .reserved

/-- A bank of the state. -/
def State.bank (s : State) : BankName → Bank
  | .req => s.req
  | .rx => s.rx
  | .rpl => s.rpl

/-- The byte a location holds (R39); reserved ones read 0x00 (R62). -/
def State.peek (s : State) (addr : Byte) : Byte :=
  match locOf addr with
  | .cmd => s.lastCmd
  | .status => s.status
  | .errcode => s.errcode
  | .errinfo => s.errInfo
  | .dfrState => s.dfrState.num.setWidth 8
  | .dfrUnits => s.dfrUnits
  | .rxLen => s.rxLen
  | .rxOvh => s.rxOvh
  | .rxPlen => s.rxPlen
  | .txPlen => s.txPlen
  | .discardLo => s.discard.extractLsb' 0 8
  | .discardHi => s.discard.extractLsb' 8 8
  | .seq => s.seq
  | .bank b off => (s.bank b).readByte off
  | .txbuf i => s.txbuf i
  | .rxbuf i => s.rxbuf i
  | .reserved => 0#8

/-- `MemRead(addr, 1)`: during `rst` every read returns 0x00 (R250). -/
def State.busRead (s : State) (addr : Byte) : Byte := if s.rst then 0#8 else s.peek addr

/-- What a write does to the addressed location while idle: REQ, RX and RXBUF are writable, every other
location drops it (R22 to R26, R39, R62, R64). A write to CMD is no store but a command (R82). -/
def State.poke (s : State) (addr v : Byte) : State :=
  match locOf addr with
  | .bank .req off => { s with req := s.req.writeByte off v }
  | .bank .rx off => { s with rx := s.rx.writeByte off v }
  | .rxbuf i => { s with mem := Memory.write s.mem (rxbufBase + i) v }
  | _ => s

/-- `MemWrite(addr, 1, v)` that is no command: lost while BUSY = 1, HOST_OVR noting it (R64). -/
def State.busWrite (s : State) (addr v : Byte) : State := if s.busy then s.turnAway else s.poke addr v

/-- Where a block address sits in the host system's address map (R77); no rule depends on it. -/
def systemAddress (addr : Byte) : Nat := Config.base + addr.toNat

end Sys2Proof.Machine
end

