-- ==== Sys2Proof/Machine/Codec.lean ====
section
/-! DEFINITION. The Frame Codec: pack_id, unpack_id, stuff (R110 to R112) and the phases ENCODE (R113) and DECODE
(R114). -/

namespace Sys2Proof.Machine

open Sys2Proof

/-- The four identifier bytes in wire order (R87, R110). -/
def packId (m : Bank) : List Byte :=
  [m.apiIndex.extractLsb' 0 2 ++ m.device, m.apiClass ++ m.apiIndex.extractLsb' 2 2, m.manufacturer, m.deviceType]

/-- The bank four identifier bytes spell, with a payload and its size (R87, R111). -/
def unpackId (b0 b1 b2 b3 : Byte) (data : Payload) (size : BitVec 4) : Bank :=
  { device := b0.extractLsb' 0 6
    apiIndex := b1.extractLsb' 0 2 ++ b0.extractLsb' 6 2
    apiClass := b1.extractLsb' 2 6
    manufacturer := b2
    deviceType := b3
    data := data
    dataSize := size }

/-- The physical unit of one logical payload byte (R112). -/
def stuff (d : Byte) : List Byte :=
  if d = startByte then [escByte, escByte] else if d = escByte then [escByte, altByte] else [d]

/-- The logical byte an escape pair's second byte spells, if it spells one (R89, R90). -/
def unescape (c : Byte) : Option Byte :=
  if c = escByte then some startByte else if c = altByte then some escByte else none

/-- The Encoded Frame of a message whose data_size is at most 8 (R86, R113). -/
def encodeFrame (m : Bank) : List Byte :=
  [startByte, 4#8 + m.dataSize.setWidth 8] ++ packId m ++ m.payload.flatMap stuff

/-- Phase ENCODE (R113). -/
def encodePhase (s : State) : PhaseEnd :=
  if 8 < s.req.dataSize.toNat then
    .raised .badSize (s.req.dataSize.setWidth 8) { s with txValid := false }
  else
    .ended { s with
      mem := Memory.writeList s.mem txbufBase (padded (encodeFrame s.req))
      txPlen := BitVec.ofNat 8 (encodeFrame s.req).length
      txValid := true }

/-- DECODE's walk over n payload units of RXBUF from index p: the logical bytes, or the second byte of the first
invalid pair (R114). -/
def unstuff (m : Memory) : Nat → Nat → Except Byte (List Byte)
  | _, 0 => .ok []
  | p, n + 1 =>
    if Memory.read m (rxbufBase + p) = escByte then
      match unescape (Memory.read m (rxbufBase + (p + 1))) with
      | none => .error (Memory.read m (rxbufBase + (p + 1)))
      | some d =>
        match unstuff m (p + 2) n with
        | .error c => .error c
        | .ok ds => .ok (d :: ds)
    else
      match unstuff m (p + 1) n with
      | .error c => .error c
      | .ok ds => .ok (Memory.read m (rxbufBase + p) :: ds)

/-- A length byte no frame has (R88, R91). -/
def badLength (l : Byte) : Bool := l.toNat < 4 || 12 < l.toNat

/-- What RXBUF decodes to: a Message, or an error with its ERRINFO, the length check first (R114, R226 (d)). -/
def decodeBuffer (m : Memory) : Except (ErrorCode × Byte) Bank :=
  if badLength (Memory.read m (rxbufBase + 1)) then .error (.decLength, Memory.read m (rxbufBase + 1))
  else
    match unstuff m 6 ((Memory.read m (rxbufBase + 1)).toNat - 4) with
    | .error c => .error (.decEscape, c)
    | .ok ds =>
      .ok (unpackId (Memory.read m (rxbufBase + 2)) (Memory.read m (rxbufBase + 3)) (Memory.read m (rxbufBase + 4))
        (Memory.read m (rxbufBase + 5)) (Payload.ofList ds)
        (BitVec.ofNat 4 ((Memory.read m (rxbufBase + 1)).toNat - 4)))

/-- Phase DECODE (R114): RX and RX_VALID together, RX only on success. -/
def decodePhase (s : State) : PhaseEnd :=
  match decodeBuffer s.mem with
  | .error e => .raised e.1 e.2 { s with rxValid := false }
  | .ok b => .ended { s with rx := b, rxValid := true }

end Sys2Proof.Machine
end

