-- ==== Sys2Proof/Machine/Transport.lean ====
section
/-! DEFINITION. The channel port (R140, R141) and the phases WRITE (R142) and SYNC (R143 to R150). A phase asks the
channel by raising its request line and goes on at the channel's answer (log 1, log 16). -/

namespace Sys2Proof.Machine

open Sys2Proof

/-! ### The port's signals (R140) -/

/-- `rx_rsp_kind` and `rx_rsp_data`: 00 Byte, 01 EOF, 10 Err; 11 is never sent. -/
def rxAnswerOfSignals (kind : BitVec 2) (data : Byte) : Option RxAnswer :=
  match kind.toNat with
  | 0 => some (.byte data)
  | 1 => some .eof
  | 2 => some .err
  | _ => none

/-- `tx_rsp_ok`; `reached` is what got through when it is 0 (R74). -/
def txAnswerOfSignal (isOk : Bool) (reached : Nat) : TxAnswer := if isOk then .ok else .err reached

/-- The list `ChanWrite` hands over: `TXBUF[0]` to `TXBUF[TX_PLEN - 1]` (`tx_data`, R142). -/
def State.txFrame (s : State) : List Byte := Memory.readList s.mem txbufBase s.txPlen.toNat

/-- `tx_len[4:0]` (R140). -/
def State.txLen (s : State) : BitVec 5 := s.txPlen.setWidth 5

/-- The bytes of an answered `ChanWrite` that got to the peer: all of them after `Ok`, a prefix after `Err`
(R74). -/
def Sent.delivered (r : Sent) : List Byte :=
  match r.answer with
  | .ok => r.frame
  | .err n => r.frame.take n

/-- Every byte the peer has got, in order (R72, R74). -/
def State.delivered (s : State) : List Byte := s.sent.flatMap Sent.delivered

/-! ### WRITE -/

/-- Phase WRITE (R142): raise `tx_req`; then hold until the channel answers, once, for the whole frame. -/
def writePhase (s : State) : PhaseEnd :=
  if bufSize < s.txPlen.toNat then .overrun .txbufOverrun
  else if s.txReq then
    match s.chanOut with
    | [] => .waiting s
    | .ok :: rest =>
      .ended { s with chanOut := rest, txReq := false, sent := s.sent ++ [⟨s.txFrame, .ok⟩] }
    | .err n :: rest =>
      .raised .transportTx 0x02#8
        { s with chanOut := rest, txReq := false, sent := s.sent ++ [⟨s.txFrame, .err n⟩] }
  else .waiting { s with txReq := true }

/-! ### SYNC -/

/-- SYNC asks for its next byte. -/
def syncMore (s : State) : PhaseEnd := .waiting { s with rxReq := true }

/-- SYNC ends, DFR_STATE = DONE (R149). -/
def syncEnd (s : State) : PhaseEnd := .ended { s with rxReq := false, dfrState := .done }

/-- SYNC raises an error; the answer it came with has been taken. -/
def syncRaise (code : ErrorCode) (info : Byte) (s : State) : PhaseEnd := .raised code info { s with rxReq := false }

/-- SYNC's start: the buffer and every counter to zero, RX_VALID to 0, HUNT, and the first rd() (R143). -/
def syncStart (s : State) : PhaseEnd :=
  syncMore { s with
    mem := Memory.writeList s.mem rxbufBase (padded [])
    rxPlen := 0#8, rxLen := 0#8, rxOvh := 0#8, dfrUnits := 0#8, discard := 0#16
    rxValid := false, dfrState := .hunt }

/-- `RXBUF[RX_PLEN] <- b; RX_PLEN <- RX_PLEN + 1`, then go on; there is no byte past index 21 (R26). -/
def storeRx (b : Byte) (s : State) (k : State → PhaseEnd) : PhaseEnd :=
  if s.rxPlen.toNat < bufSize then
    k { s with mem := Memory.write s.mem (rxbufBase + s.rxPlen.toNat) b, rxPlen := s.rxPlen + 1#8 }
  else .overrun .rxbufOverrun

/-- HUNT meets START (R144). -/
def huntStart (s : State) : PhaseEnd :=
  syncMore { s with mem := Memory.write s.mem rxbufBase startByte, rxPlen := 1#8, dfrState := .len }

/-- HUNT meets another byte: it is only counted, saturating (R35, R144). -/
def huntNoise (s : State) : PhaseEnd :=
  syncMore { s with discard := if s.discard = 0xFFFF#16 then 0xFFFF#16 else s.discard + 1#16 }

/-- LEN (R145): the byte is stored and then checked. -/
def lengthByte (b : Byte) (s : State) : PhaseEnd :=
  let t := { s with mem := Memory.write s.mem (rxbufBase + 1) b, rxPlen := 2#8, rxLen := b }
  if badLength b then syncRaise .decLength b t else syncMore { t with dfrState := .id }

/-- ID (R146): any value is one raw unit; the fourth ends the state. -/
def idByte (b : Byte) (s : State) : PhaseEnd :=
  storeRx b s fun t =>
    let u := { t with dfrUnits := t.dfrUnits + 1#8 }
    if u.dfrUnits.toNat < 4 then syncMore u
    else if 4 < u.rxLen.toNat then syncMore { u with dfrState := .body }
    else syncEnd u

/-- A payload unit is complete: go on in BODY while units are missing (R147, R149). -/
def unitRead (s : State) : PhaseEnd :=
  let u := { s with dfrUnits := s.dfrUnits + 1#8 }
  if u.dfrUnits.toNat < u.rxLen.toNat then syncMore { u with dfrState := .body } else syncEnd u

/-- BODY reads a one-byte unit (R147). -/
def bodyLiteral (b : Byte) (s : State) : PhaseEnd := storeRx b s unitRead

/-- BODY reads ESC: the unit's second byte follows (R147). -/
def bodyEscape (s : State) : PhaseEnd :=
  storeRx escByte s fun t => syncMore { t with dfrState := .esc }

/-- ESC reads the second byte, whatever it is, and the unit is complete (R148). -/
def escSecond (c : Byte) (s : State) : PhaseEnd :=
  storeRx c s fun t => unitRead { t with rxOvh := t.rxOvh + 1#8 }

/-- The place of the frame at which SYNC's next byte stands (R33, R34); none where no rd() is ever outstanding
(log 19). -/
def State.place (s : State) : Option Place :=
  match s.dfrState with
  | .idle => none
  | .hunt => some .hunt
  | .len => some .length
  | .id =>
    match s.dfrUnits.toNat with
    | 0 => some .id0
    | 1 => some .id1
    | 2 => some .id2
    | 3 => some .id3
    | _ => none
  | .body => some .payload
  | .esc => some .payload
  | .done => none

/-- One rd() has returned b: run the state's pseudocode up to the next rd() (R144 to R148). -/
def syncByte (b : Byte) (s : State) : PhaseEnd :=
  match s.dfrState with
  | .hunt => if b = startByte then huntStart s else huntNoise s
  | .len => lengthByte b s
  | .id => idByte b s
  | .body => if b = escByte then bodyEscape s else bodyLiteral b s
  | .esc => escSecond b s
  | .idle => .waiting s
  | .done => .waiting s

/-- Phase SYNC: its start (R143), then one rd() a step (R150); it holds while the channel gives no answer. -/
def syncPhase (s : State) : PhaseEnd :=
  if s.rxReq then
    match s.chanIn with
    | [] => .waiting s
    | .eof :: rest => syncRaise .transportRx 0x01#8 { s with chanIn := rest }
    | .err :: rest => syncRaise .transportRx 0x02#8 { s with chanIn := rest }
    | .byte b :: rest => if s.place.isNone then .waiting s else syncByte b { s with chanIn := rest }
  else syncStart s

end Sys2Proof.Machine
end

