-- ==== Sys2Proof/Machine/Checks.lean ====
section
/-! DEFINITION. The phases CHECK_ACK, CHECK_DREP, CHECK_SREP (R170 to R173) and COPY_RPL (R174). -/

namespace Sys2Proof.Machine

open Sys2Proof

/-- A CHECK phase: a non-zero mask is a Protocol Validation Failure with ERRINFO = the mask (R173). -/
def checkMask (mask : BitVec 5) (code : ErrorCode) (s : State) : PhaseEnd :=
  if mask = 0#5 then .ended s else .raised code (mask.setWidth 8) s

/-- Phase CHECK_ACK (R170), for a build's parameters. -/
def checkAckPhase (P : Params) (s : State) : PhaseEnd := checkMask (ackMask P s.req s.rx) .protoAck s

/-- Phase CHECK_DREP (R171). -/
def checkDrepPhase (s : State) : PhaseEnd := checkMask (drepMask s.req s.rx) .protoReply s

/-- Phase CHECK_SREP (R172), for a build's parameters. -/
def checkSrepPhase (P : Params) (s : State) : PhaseEnd := checkMask (srepMask P s.req s.rx) .protoReply s

/-- Phase COPY_RPL (R174): all of RX into RPL (the reserved offsets are 0 in both). -/
def copyRplPhase (s : State) : PhaseEnd := .ended { s with rpl := s.rx, rplValid := true }

end Sys2Proof.Machine
end

