-- ==== Sys2Proof/Machine/Sequencer.lean ====
section
/-! DEFINITION. The sequencer: each command's phase list (R31), how a phase's end moves it (R32, R224), and one
step of a command (R82, R32). -/

namespace Sys2Proof.Machine

open Sys2Proof

/-- The phase list of an OP, each phase with the stage it reports an error under (R31). -/
def phaseList (op : BitVec 4) : List (Phase × Stage) :=
  match op.toNat with
  | 0x1 => [(.encode, .outside)]
  | 0x2 => [(.decode, .outside)]
  | 0x3 => [(.encode, .outside), (.write, .outside)]
  | 0x4 => [(.sync, .outside), (.decode, .outside)]
  | 0x5 => [(.checkAck, .outside)]
  | 0x6 => [(.checkDrep, .outside)]
  | 0x7 => [(.checkSrep, .outside)]
  | 0x8 => [(.encode, .request), (.write, .request), (.sync, .first), (.decode, .first), (.checkAck, .first)]
  | 0x9 => [(.encode, .request), (.write, .request), (.sync, .first), (.decode, .first), (.checkDrep, .first),
            (.copyRpl, .first), (.sync, .second), (.decode, .second), (.checkAck, .second)]
  | 0xA => [(.encode, .request), (.write, .request), (.sync, .first), (.decode, .first), (.checkSrep, .first),
            (.copyRpl, .first), (.sync, .second), (.decode, .second), (.checkAck, .second)]
  | _ => []

/-- The phase now running, with its stage; none while idle. -/
def State.current (s : State) : Option (Phase × Stage) :=
  if s.busy then (phaseList s.seqOp)[s.seqIdx.toNat]? else none

/-- The stage of the phase now running (R201, R224). -/
def State.stage (s : State) : Stage :=
  match s.current with
  | some p => p.2
  | none => .outside

/-- SYNC has an rd() outstanding: the next byte from the channel is its. -/
def State.awaitsByte (s : State) : Bool := s.rxReq && s.current.any (fun p => p.1 = .sync)

/-- A phase has ended: the next one is due, or the command completes with CODE 0 (R32). -/
def State.advance (s : State) : State :=
  if s.seqIdx.toNat + 1 < (phaseList s.seqOp).length then { s with seqIdx := s.seqIdx + 1#4 }
  else s.complete .outside .ok 0#8

/-- What a phase's end does to the machine (R12, R32, R224). -/
def PhaseEnd.outcome : PhaseEnd → Host.Outcome State Fault Refusal
  | .ended s => .next s.advance
  | .waiting s => .next s
  | .raised code info s => .next (s.complete s.stage code info)
  | .overrun f => .fault f

/-- One step of a phase. -/
def runPhase (p : Phase) (s : State) : PhaseEnd :=
  match p with
  | .encode => encodePhase s
  | .write => writePhase s
  | .sync => syncPhase s
  | .decode => decodePhase s
  | .checkAck => checkAckPhase Config.params s
  | .checkDrep => checkDrepPhase s
  | .checkSrep => checkSrepPhase Config.params s
  | .copyRpl => copyRplPhase s

/-- A command byte with RSV = 0000 and its accept while idle; a command with no phases completes at once (R82,
R32, R200). -/
def State.issue (op : BitVec 4) (s : State) : State :=
  if (phaseList op).isEmpty then (s.accept (0x0#4 ++ op)).complete .outside .ok 0#8 else s.accept (0x0#4 ++ op)

/-- One step of the command with an OP: its accept while the block is idle, its next phase while the block runs it
(R32), and a lost write while the block runs another (R64) (log 12). -/
def commandStep (op : BitVec 4) (s : State) : Host.Outcome State Fault Refusal :=
  if s.busy then
    if s.seqOp = op then
      match s.current with
      | some p => (runPhase p.1 s).outcome
      | none => .next (s.complete .outside .ok 0#8)
    else .next s.turnAway
  else .next (s.issue op)

/-- An illegal byte: accepted and completed at once with ILLEGAL_CMD while idle (R84, R202), a lost write while
busy (R64). -/
def illegalByte (v : Byte) (s : State) : Host.Outcome State Fault Refusal :=
  if s.busy then .next s.turnAway else .next ((s.accept v).complete .outside .illegalCmd v)

/-- A wire unit has arrived whole: run it where the deframer stands at its place (log 11). -/
def wireUnit (mnemonic : String) (here : Bool) (e : PhaseEnd) (s : State) : Host.Outcome State Fault Refusal :=
  if s.awaitsByte && here then e.outcome else .refused (.notAtPlace mnemonic)

end Sys2Proof.Machine
end

