-- ==== Sys2Proof/Machine/CodecCommands.lean ====
section
/-! DEFINITION. ENC and DEC (R120, R121). -/

namespace Sys2Proof.Machine

/-- ENC: accept, then ENCODE, then completion (R120). -/
def execEnc (s : State) : Host.Outcome State Fault Refusal := commandStep 0x1#4 s

/-- DEC: accept, then DECODE, then completion (R121). -/
def execDec (s : State) : Host.Outcome State Fault Refusal := commandStep 0x2#4 s

end Sys2Proof.Machine
end

