-- ==== Sys2Proof/Machine/ControlCommands.lean ====
section
/-! DEFINITION. NOP (R200), ABORT (R201) and the illegal command bytes (R202). -/

namespace Sys2Proof.Machine

/-- NOP: accept, no phase, completion with CODE 0 (R200). -/
def execNop (s : State) : Host.Outcome State Fault Refusal := commandStep 0x0#4 s

/-- ABORT (R201): ends the running command while busy; like NOP while idle. -/
def execAbort (s : State) : Host.Outcome State Fault Refusal :=
  if s.busy then .next (s.abortAt s.stage) else .next (s.issue 0xF#4)

/-- The byte 0x0B (R202). -/
def execIllegal0B (s : State) : Host.Outcome State Fault Refusal := illegalByte 0x0B#8 s

/-- The byte 0x0C (R202). -/
def execIllegal0C (s : State) : Host.Outcome State Fault Refusal := illegalByte 0x0C#8 s

/-- The byte 0x0D (R202). -/
def execIllegal0D (s : State) : Host.Outcome State Fault Refusal := illegalByte 0x0D#8 s

/-- The byte 0x0E (R202). -/
def execIllegal0E (s : State) : Host.Outcome State Fault Refusal := illegalByte 0x0E#8 s

/-- A byte with RSV ≠ 0 (R202); busy ABORT is 0x0F exactly, so these are lost writes while busy. -/
def execIllegalRsv (rsv op : BitVec 4) (s : State) : Host.Outcome State Fault Refusal := illegalByte (rsv ++ op) s

end Sys2Proof.Machine
end

