-- ==== Sys2Proof/Machine/ExchangeCommands.lean ====
section
/-! DEFINITION. The validators VACK, VDREP, VSREP (R180 to R182) and the exchanges XCMD, XQRY, XSQRY (R183 to
R185). -/

namespace Sys2Proof.Machine

/-- VACK: accept, CHECK_ACK, completion (R180); RX_VALID is not read (D25). -/
def execVack (s : State) : Host.Outcome State Fault Refusal := commandStep 0x5#4 s

/-- VDREP: accept, CHECK_DREP, completion (R181). -/
def execVdrep (s : State) : Host.Outcome State Fault Refusal := commandStep 0x6#4 s

/-- VSREP: accept, CHECK_SREP, completion (R182). -/
def execVsrep (s : State) : Host.Outcome State Fault Refusal := commandStep 0x7#4 s

/-- XCMD: accept, ENCODE, WRITE, SYNC, DECODE, CHECK_ACK, completion (R183). -/
def execXcmd (s : State) : Host.Outcome State Fault Refusal := commandStep 0x8#4 s

/-- XQRY: accept, ENCODE, WRITE, SYNC, DECODE, CHECK_DREP, COPY_RPL, SYNC, DECODE, CHECK_ACK, completion (R184). -/
def execXqry (s : State) : Host.Outcome State Fault Refusal := commandStep 0x9#4 s

/-- XSQRY: as XQRY with CHECK_SREP for CHECK_DREP (R185). -/
def execXsqry (s : State) : Host.Outcome State Fault Refusal := commandStep 0xA#4 s

end Sys2Proof.Machine
end

