-- ==== Sys2Proof/Machine/TransportCommands.lean ====
section
/-! DEFINITION. SEND and RECV (R155, R156). -/

namespace Sys2Proof.Machine

/-- SEND: accept, ENCODE, WRITE, completion (R155). -/
def execSend (s : State) : Host.Outcome State Fault Refusal := commandStep 0x3#4 s

/-- RECV: accept, SYNC, DECODE, completion (R156). -/
def execRecv (s : State) : Host.Outcome State Fault Refusal := commandStep 0x4#4 s

end Sys2Proof.Machine
end

