-- ==== Sys2Proof/Machine/WireUnits.lean ====
section
/-! DEFINITION. The wire units: what SYNC does with each, at its place of the frame (R86 to R90, R144 to R148). The
state they run at has taken the unit's last byte from the channel; an escaped unit runs at its second byte (log 10). -/

namespace Sys2Proof.Machine

open Sys2Proof

/-- START in HUNT: the frame begins (R144). -/
def execWireStart (s : State) : Host.Outcome State Fault Refusal :=
  wireUnit "WIRE_START" (s.dfrState = .hunt) (huntStart s) s

/-- A byte other than START in HUNT: discarded and counted (R144); which byte it is does not matter. -/
def execWireNoise (_b : Byte) (s : State) : Host.Outcome State Fault Refusal :=
  wireUnit "WIRE_NOISE" (s.dfrState = .hunt) (huntNoise s) s

/-- The length byte (R145); outside 4 to 12 it raises DEC_LENGTH (R91). -/
def execWireLength (l : Byte) (s : State) : Host.Outcome State Fault Refusal :=
  wireUnit "WIRE_LENGTH" (s.dfrState = .len) (lengthByte l s) s

/-- Identifier byte 0: api_index[1:0], device (R87, R146). -/
def execWireId0 (idxLo : BitVec 2) (dev : BitVec 6) (s : State) : Host.Outcome State Fault Refusal :=
  wireUnit "WIRE_ID0" (s.dfrState = .id && s.dfrUnits = 0#8) (idByte (idxLo ++ dev) s) s

/-- Identifier byte 1: api_class, api_index[3:2] (R87, R146). -/
def execWireId1 (cls : BitVec 6) (idxHi : BitVec 2) (s : State) : Host.Outcome State Fault Refusal :=
  wireUnit "WIRE_ID1" (s.dfrState = .id && s.dfrUnits = 1#8) (idByte (cls ++ idxHi) s) s

/-- Identifier byte 2: manufacturer (R87, R146). -/
def execWireId2 (mfr : Byte) (s : State) : Host.Outcome State Fault Refusal :=
  wireUnit "WIRE_ID2" (s.dfrState = .id && s.dfrUnits = 2#8) (idByte mfr s) s

/-- Identifier byte 3: device_type (R87, R146). -/
def execWireId3 (typ : Byte) (s : State) : Host.Outcome State Fault Refusal :=
  wireUnit "WIRE_ID3" (s.dfrState = .id && s.dfrUnits = 3#8) (idByte typ s) s

/-- A one-byte payload unit (R147). -/
def execWireLiteral (d : Byte) (s : State) : Host.Outcome State Fault Refusal :=
  wireUnit "WIRE_LITERAL" (s.dfrState = .body) (bodyLiteral d s) s

/-- ESC ESC, at its second byte (R89, R148). -/
def execWireEscStart (s : State) : Host.Outcome State Fault Refusal :=
  wireUnit "WIRE_ESC_START" (s.dfrState = .esc) (escSecond escByte s) s

/-- ESC ALT, at its second byte (R89, R148). -/
def execWireEscEsc (s : State) : Host.Outcome State Fault Refusal :=
  wireUnit "WIRE_ESC_ESC" (s.dfrState = .esc) (escSecond altByte s) s

/-- ESC x that spells no byte, at its second byte: stored all the same; DECODE checks it (R90, R148). -/
def execWireEscInvalid (x : Byte) (s : State) : Host.Outcome State Fault Refusal :=
  wireUnit "WIRE_ESC_INVALID" (s.dfrState = .esc) (escSecond x s) s

end Sys2Proof.Machine
end

