-- ==== Sys2Proof/Machine/Dispatch.lean ====
section
/-! DEFINITION. One arm per row of the opcode table; each calls the meaning in its family's file. -/

namespace Sys2Proof.Machine

open Sys2Proof

def exec (i : Instr) (s : State) : Host.Outcome State Fault Refusal :=
  match i with
  | .nop => Sys2Proof.Machine.execNop s
  | .enc => Sys2Proof.Machine.execEnc s
  | .dec => Sys2Proof.Machine.execDec s
  | .send => Sys2Proof.Machine.execSend s
  | .recv => Sys2Proof.Machine.execRecv s
  | .vack => Sys2Proof.Machine.execVack s
  | .vdrep => Sys2Proof.Machine.execVdrep s
  | .vsrep => Sys2Proof.Machine.execVsrep s
  | .xcmd => Sys2Proof.Machine.execXcmd s
  | .xqry => Sys2Proof.Machine.execXqry s
  | .xsqry => Sys2Proof.Machine.execXsqry s
  | .abort => Sys2Proof.Machine.execAbort s
  | .illegal0B => Sys2Proof.Machine.execIllegal0B s
  | .illegal0C => Sys2Proof.Machine.execIllegal0C s
  | .illegal0D => Sys2Proof.Machine.execIllegal0D s
  | .illegal0E => Sys2Proof.Machine.execIllegal0E s
  | .illegalRsv rsv op => Sys2Proof.Machine.execIllegalRsv rsv op s
  | .wireStart => Sys2Proof.Machine.execWireStart s
  | .wireNoise b => Sys2Proof.Machine.execWireNoise b s
  | .wireLength l => Sys2Proof.Machine.execWireLength l s
  | .wireId0 idxLo dev => Sys2Proof.Machine.execWireId0 idxLo dev s
  | .wireId1 cls idxHi => Sys2Proof.Machine.execWireId1 cls idxHi s
  | .wireId2 mfr => Sys2Proof.Machine.execWireId2 mfr s
  | .wireId3 typ => Sys2Proof.Machine.execWireId3 typ s
  | .wireLiteral d => Sys2Proof.Machine.execWireLiteral d s
  | .wireEscStart => Sys2Proof.Machine.execWireEscStart s
  | .wireEscEsc => Sys2Proof.Machine.execWireEscEsc s
  | .wireEscInvalid x => Sys2Proof.Machine.execWireEscInvalid x s

end Sys2Proof.Machine
end

