-- ==== Sys2Proof/Machine/Fetch.lean ====
section
/-! DEFINITION. What the next step does: whose turn it is (log 3, log 4), the host's next bus cycle (R82, R64, R65,
R101, R102), and the block's next step, with the wire unit SYNC reads decoded at its place (R86 to R92). -/

namespace Sys2Proof.Machine

open Sys2Proof

/-- The block can take a step: it runs a command and is not held by a channel that gives no answer (R32, R141). -/
def State.blockReady (s : State) : Bool :=
  !s.rst &&
    match s.current with
    | some (.sync, _) => !s.rxReq || !s.chanIn.isEmpty
    | some (.write, _) => !s.txReq || !s.chanOut.isEmpty
    | _ => s.busy

/-- Who moves next: `turns` says; after its end the block whenever it can, else the host (log 4). -/
def State.nextTurn (s : State) : Turn :=
  match s.turns with
  | t :: _ => t
  | [] => if s.blockReady then .block else .host

/-- A host write (R82, R64, R201): to CMD it is a command while the block is idle, and ABORT while it is busy. -/
def hostWrite (addr v : Byte) (s : State) : Fetched :=
  if addr = 0x00#8 ∧ (s.busy = false ∨ v = 0x0F#8) then .run (decodeCommand v) s
  else .other (.next (s.busWrite addr v))

/-- The host's turn: its next bus cycle. During `rst` a write has no effect (R250). WAIT reads STATUS and stays
until the value read has bit 0 = 0 (R102). -/
def hostTurn (s : State) : Fetched :=
  match s.host with
  | [] => .other (.next s)
  | .write addr v :: rest =>
    if s.rst then .other (.next { s with host := rest }) else hostWrite addr v { s with host := rest }
  | .read addr :: rest => .other (.next ({ s with host := rest }.logRead (s.busRead addr)))
  | .wait :: rest =>
    .other (.next ({ s with host := if (s.busRead 0x01#8).getLsbD 0 then s.host else rest }.logRead
      (s.busRead 0x01#8)))

/-- The command the sequencer is running (R31). -/
def State.running (s : State) : Instr := commandOfOp s.seqOp

/-- The bytes SYNC has of the unit that the byte b belongs to: in ESC, the unit's first byte was ESC (R147, R148). -/
def State.unitBytes (s : State) (b : Byte) : List Byte := if s.dfrState = .esc then [escByte, b] else [b]

/-- The block's turn. While SYNC's rd() is answered with a byte, the step runs the wire unit that the byte
completes, or stores the first half of a two-byte unit; otherwise it runs the command's next step. -/
def blockTurn (s : State) : Fetched :=
  if s.rst || !s.busy then .other (.next s)
  else
    match s.awaitsByte, s.place, s.chanIn with
    | true, some p, .byte b :: rest =>
      match decode p (s.unitBytes b) with
      | .ok (i, _) => .run i { s with chanIn := rest }
      | .error _ => .other (bodyEscape { s with chanIn := rest }).outcome
    | _, _, _ => .run s.running s

/-- What the next step does. -/
def fetch (s : State) : Fetched :=
  match s.nextTurn with
  | .rst level => .other (.next (s.popTurn.setRst level))
  | .host => hostTurn s.popTurn
  | .block => blockTurn s.popTurn

/-- RECV (0x04) waiting for a byte, at a state of the deframer: where a wire unit is placed to run next. -/
def State.receiving (d : DfrState) (s : State) : State :=
  { s with rst := false, busy := true, done := false, lastCmd := 0x04#8, seqOp := 0x4#4, seqIdx := 0#4,
           txReq := false, rxReq := true, dfrState := d }

/-- Place a table word where the next step fetches (log 9, log 15): a command byte as the host's next write to an
idle block; START as the channel's next answer to a hunting RECV; a two-byte unit with its first byte stored and its
second byte as the channel's next answer. -/
def placeWord (s : State) (nbits w : Nat) : State :=
  match tablePlace nbits w with
  | .payload =>
    { s.receiving .esc with
      mem := Memory.write s.mem (rxbufBase + 6) (BitVec.ofNat 8 (w / 256)), rxPlen := 7#8, rxLen := 5#8,
      rxOvh := 0#8, dfrUnits := 4#8, chanIn := .byte (BitVec.ofNat 8 w) :: s.chanIn, turns := .block :: s.turns }
  | .hunt =>
    { s.receiving .hunt with
      rxPlen := 0#8, rxLen := 0#8, rxOvh := 0#8, dfrUnits := 0#8,
      chanIn := .byte (BitVec.ofNat 8 w) :: s.chanIn, turns := .block :: s.turns }
  | _ =>
    { s with
      rst := false, busy := false, seqOp := 0#4, seqIdx := 0#4, rxReq := false, txReq := false,
      host := .write 0x00#8 (BitVec.ofNat 8 w) :: s.host, turns := .host :: s.turns }

end Sys2Proof.Machine
end

