-- ==== Sys2Proof/Safety.lean ====
section
/-! DEFINITION. What the claims are stated in: the invariant every step keeps (Inv), the coupling of SYNC and DECODE
(Coupled, R152), and names for the states and ends the rules speak of. -/

namespace Sys2Proof.Machine

open Sys2Proof

/-- The phase now running, without its stage. -/
def State.phase (s : State) : Option Phase := s.current.map Prod.fst

/-- The block runs the command with an OP and is at a phase index (R31). -/
def State.runs (s : State) (op idx : BitVec 4) : Prop := s.busy = true ∧ s.seqOp = op ∧ s.seqIdx = idx

/-- What the deframer's counters are in each synchronizer state (R26, R33, R34, R143 to R149, R151). LEN is left
with a bad length byte stored when DEC_LENGTH ended the command there. -/
def State.DeframerOk (s : State) : Prop :=
  match s.dfrState with
  | .idle => s.rxPlen = 0#8 ∧ s.rxLen = 0#8 ∧ s.rxOvh = 0#8 ∧ s.dfrUnits = 0#8 ∧ s.discard = 0#16
  | .hunt => s.rxPlen = 0#8 ∧ s.rxLen = 0#8 ∧ s.rxOvh = 0#8 ∧ s.dfrUnits = 0#8
  | .len => s.rxOvh = 0#8 ∧ s.dfrUnits = 0#8 ∧
      ((s.rxPlen = 1#8 ∧ s.rxLen = 0#8) ∨ (s.rxPlen = 2#8 ∧ badLength s.rxLen = true))
  | .id => s.rxPlen.toNat = 2 + s.dfrUnits.toNat ∧ s.dfrUnits.toNat < 4 ∧ 4 ≤ s.rxLen.toNat ∧ s.rxLen.toNat ≤ 12 ∧
      s.rxOvh = 0#8
  | .body => s.rxPlen.toNat = 2 + s.dfrUnits.toNat + s.rxOvh.toNat ∧ 4 ≤ s.dfrUnits.toNat ∧
      s.dfrUnits.toNat < s.rxLen.toNat ∧ s.rxLen.toNat ≤ 12 ∧ s.rxOvh.toNat + 4 ≤ s.dfrUnits.toNat
  | .esc => s.rxPlen.toNat = 3 + s.dfrUnits.toNat + s.rxOvh.toNat ∧ 4 ≤ s.dfrUnits.toNat ∧
      s.dfrUnits.toNat < s.rxLen.toNat ∧ s.rxLen.toNat ≤ 12 ∧ s.rxOvh.toNat + 4 ≤ s.dfrUnits.toNat
  | .done => s.dfrUnits = s.rxLen ∧ s.rxPlen.toNat = 2 + s.rxLen.toNat + s.rxOvh.toNat ∧ 4 ≤ s.rxLen.toNat ∧
      s.rxLen.toNat ≤ 12 ∧ s.rxOvh.toNat + 4 ≤ s.rxLen.toNat

/-- The invariant of the machine. -/
structure State.Inv (s : State) : Prop where
  /-- The buffers' memory is canonical. -/
  mem_wf : Memory.wf s.mem
  /-- It lists only the two frame buffers' addresses (R25, R26). -/
  mem_in : ∀ c ∈ s.mem, (0x40 ≤ c.1 ∧ c.1 < 0x56) ∨ (0x60 ≤ c.1 ∧ c.1 < 0x76)
  /-- While BUSY = 0, SEQ is 0x00 and no channel primitive is outstanding (R31, R140). -/
  idle : s.busy = false → s.seqOp = 0#4 ∧ s.seqIdx = 0#4 ∧ s.rxReq = false ∧ s.txReq = false
  /-- While BUSY = 1: DONE is 0 (R28), ERRCODE and ERRINFO are clear (R82), LASTCMD names the command, SEQ names one
  of its phases (R31), and the reset line is low. -/
  busy : s.busy = true → s.done = false ∧ s.errCode = .ok ∧ s.lastCmd = 0x0#4 ++ s.seqOp ∧
    s.seqIdx.toNat < (phaseList s.seqOp).length ∧ s.rst = false
  /-- CODE 0 goes with STAGE 0 and ERRINFO 0x00 (R221, R224). -/
  clean : s.errCode = .ok → s.errStage = .outside ∧ s.errInfo = 0#8
  /-- An rd() is outstanding only in SYNC, at a place of a frame where one is due (R143 to R148). -/
  rx_req : s.rxReq = true → s.phase = some .sync ∧ s.place.isSome = true ∧ (s.dfrState = .len → s.rxPlen = 1#8)
  /-- A frame is offered only in WRITE (R142). -/
  tx_req : s.txReq = true → s.phase = some .write
  /-- TX_PLEN is 0 or 6 to 22 (R25), and not 0 while TX_VALID (R28). -/
  tx_plen : s.txPlen.toNat ≤ 22 ∧ (s.txPlen = 0#8 ∨ 6 ≤ s.txPlen.toNat) ∧ (s.txValid = true → 6 ≤ s.txPlen.toNat)
  /-- At WRITE, TXBUF holds the encoding of REQ (R142). -/
  write_frame : s.phase = some .write →
    s.req.dataSize.toNat ≤ 8 ∧ s.txValid = true ∧ s.txPlen.toNat = (encodeFrame s.req).length ∧
      s.txFrame = encodeFrame s.req
  /-- The deframer's counters fit its state. -/
  deframer : s.DeframerOk
  /-- While `rst` is asserted every register is at its reset value (R250 (c)). -/
  held : s.rst = true → s.resetAll true = s

/-- Where a walk over n payload units of RXBUF from index p ends: a unit is two bytes if and only if its first byte
is ESC (R92, R152). -/
def walkEnd (m : Memory) : Nat → Nat → Nat
  | p, 0 => p
  | p, n + 1 => if Memory.read m (rxbufBase + p) = escByte then walkEnd m (p + 2) n else walkEnd m (p + 1) n

/-- The header SYNC has stored once the length byte is read. -/
def State.HeaderStored (s : State) : Prop := s.rxbuf 0 = startByte ∧ s.rxbuf 1 = s.rxLen

/-- SYNC and DECODE split the same bytes into the same units (R152): while SYNC reads the payload, DECODE's walk over
the units counted so far ends where the next byte will be stored; and DECODE after SYNC finds the whole frame. -/
structure State.Coupled (s : State) : Prop where
  start : s.rxReq = true → s.dfrState = .len → s.rxbuf 0 = startByte
  ident : s.rxReq = true → s.dfrState = .id → s.HeaderStored
  body : s.rxReq = true → s.dfrState = .body →
    s.HeaderStored ∧ walkEnd s.mem 6 (s.dfrUnits.toNat - 4) = s.rxPlen.toNat
  esc : s.rxReq = true → s.dfrState = .esc →
    s.HeaderStored ∧ walkEnd s.mem 6 (s.dfrUnits.toNat - 4) + 1 = s.rxPlen.toNat ∧
      s.rxbuf (s.rxPlen.toNat - 1) = escByte
  whole : s.phase = some .decode → s.seqIdx ≠ 0#4 →
    s.dfrState = .done ∧ s.HeaderStored ∧ walkEnd s.mem 6 (s.rxLen.toNat - 4) = s.rxPlen.toNat

/-- The Message a bank holds, the bytes past data_size set to 0x00: what DECODE gives back (R114, R117). -/
def Bank.message (b : Bank) : Bank := { b with data := Payload.ofList b.payload }

/-- The state after a command's successful end (R224), field by field. -/
def State.finished (s : State) : State :=
  { s with busy := false, done := true, errCode := .ok, errStage := .outside, errInfo := 0x00#8,
           seqOp := 0x0#4, seqIdx := 0x0#4 }

/-- The state after a command's end by an error (R224), field by field. -/
def State.failed (s : State) (stage : Stage) (code : ErrorCode) (info : Byte) : State :=
  { s with busy := false, done := true, errCode := code, errStage := stage, errInfo := info,
           seqOp := 0x0#4, seqIdx := 0x0#4 }

/-- The state after a phase has ended without an error: at the command's next phase, or, after its last, finished
(R32). -/
def State.moved (s : State) (last : Bool) : State := if last then s.finished else { s with seqIdx := s.seqIdx + 0x1#4 }

/-- One place of R31's table where a phase stands: the command, its OP, the phase's index, whether it is the
command's last phase, and its stage. -/
structure PhaseRun where
  instr : Instr
  op : BitVec 4
  idx : BitVec 4
  last : Bool
  stage : Stage
  deriving DecidableEq, Repr

/-- Where R31's table has ENCODE. -/
def encodeRuns : List PhaseRun :=
  [⟨.enc, 0x1, 0, true, .outside⟩, ⟨.send, 0x3, 0, false, .outside⟩, ⟨.xcmd, 0x8, 0, false, .request⟩,
   ⟨.xqry, 0x9, 0, false, .request⟩, ⟨.xsqry, 0xA, 0, false, .request⟩]

/-- Where R31's table has WRITE. -/
def writeRuns : List PhaseRun :=
  [⟨.send, 0x3, 1, true, .outside⟩, ⟨.xcmd, 0x8, 1, false, .request⟩, ⟨.xqry, 0x9, 1, false, .request⟩,
   ⟨.xsqry, 0xA, 1, false, .request⟩]

/-- Where R31's table has SYNC. -/
def syncRuns : List PhaseRun :=
  [⟨.recv, 0x4, 0, false, .outside⟩, ⟨.xcmd, 0x8, 2, false, .first⟩, ⟨.xqry, 0x9, 2, false, .first⟩,
   ⟨.xqry, 0x9, 6, false, .second⟩, ⟨.xsqry, 0xA, 2, false, .first⟩, ⟨.xsqry, 0xA, 6, false, .second⟩]

/-- Where R31's table has DECODE. -/
def decodeRuns : List PhaseRun :=
  [⟨.dec, 0x2, 0, true, .outside⟩, ⟨.recv, 0x4, 1, true, .outside⟩, ⟨.xcmd, 0x8, 3, false, .first⟩,
   ⟨.xqry, 0x9, 3, false, .first⟩, ⟨.xqry, 0x9, 7, false, .second⟩, ⟨.xsqry, 0xA, 3, false, .first⟩,
   ⟨.xsqry, 0xA, 7, false, .second⟩]

/-- Where R31's table has CHECK_ACK. -/
def ackRuns : List PhaseRun :=
  [⟨.vack, 0x5, 0, true, .outside⟩, ⟨.xcmd, 0x8, 4, true, .first⟩, ⟨.xqry, 0x9, 8, true, .second⟩,
   ⟨.xsqry, 0xA, 8, true, .second⟩]

/-- Where R31's table has CHECK_DREP. -/
def drepRuns : List PhaseRun := [⟨.vdrep, 0x6, 0, true, .outside⟩, ⟨.xqry, 0x9, 4, false, .first⟩]

/-- Where R31's table has CHECK_SREP. -/
def srepRuns : List PhaseRun := [⟨.vsrep, 0x7, 0, true, .outside⟩, ⟨.xsqry, 0xA, 4, false, .first⟩]

/-- Where R31's table has COPY_RPL. -/
def copyRuns : List PhaseRun := [⟨.xqry, 0x9, 5, false, .first⟩, ⟨.xsqry, 0xA, 5, false, .first⟩]

/-- The logical byte a payload unit spells (R89, R90): none for an invalid pair and for what is no payload unit. -/
def unitValue : Instr → Option Byte
  | .wireLiteral d => if d = 0xFE#8 then none else some d
  | .wireEscStart => some 0xFF#8
  | .wireEscEsc => some 0xFE#8
  | _ => none

/-- The Acknowledgement rule (R170): all four conditions (C5); api_index is free (U7). -/
def IsAck (P : Params) (req rx : Bank) : Prop :=
  rx.manufacturer = P.ctrlVendor ∧ rx.deviceType = P.mcType ∧ rx.apiClass = P.ackClass ∧ rx.device = req.device

/-- The Device Reply rule (R171). -/
def IsDeviceReply (req rx : Bank) : Prop :=
  rx.manufacturer = req.manufacturer ∧ rx.deviceType = req.deviceType ∧ rx.apiClass = req.apiClass ∧
    rx.apiIndex = req.apiIndex ∧ rx.device = req.device

/-- The System Reply rule (R172). -/
def IsSystemReply (P : Params) (req rx : Bank) : Prop :=
  rx.manufacturer = P.sysVendor ∧ rx.deviceType = P.sysType ∧ rx.apiClass = P.sysClass ∧
    rx.apiIndex = req.apiIndex ∧ rx.device = req.device

/-- A channel script that delivers bytes (95_test_vectors.md, Conventions). -/
def answers (bytes : List Byte) : List RxAnswer := bytes.map RxAnswer.byte

end Sys2Proof.Machine
end

