-- ==== Sys2Proof/Certificates/Slice0/Obligations.lean ====
section
/-! DEFINITION. The statements for the provers. Each docstring names the rule of spec/ it formalises, or the sections it
rests on. A statement about an instruction that stores says, through a read of one byte, what every byte of the
buffers' memory reads as afterwards, and then that nothing but the named fields changed. -/

open Sys2Proof Sys2Proof.Machine Host

/-! ### Encodings -/

/-- Words written out from R83, R84, R86 to R90 decode to the rows they stand for. -/
def Obligations.SampleWordsDecodeToTheirRows : Prop :=
  decode .command [0b00000001#8] = .ok (.enc, []) ∧
  decode .command [0b00001001#8] = .ok (.xqry, []) ∧
  decode .command [0b00001111#8] = .ok (.abort, []) ∧
  decode .command [0b00001100#8] = .ok (.illegal0C, []) ∧
  decode .command [0b00011111#8] = .ok (.illegalRsv 0x1#4 0xF#4, []) ∧
  decode .hunt [0b11111111#8] = .ok (.wireStart, []) ∧
  decode .length [0b00000110#8] = .ok (.wireLength 0x06#8, []) ∧
  decode .id0 [0b10000101#8] = .ok (.wireId0 0b10#2 0b000101#6, []) ∧
  decode .id1 [0b01010110#8] = .ok (.wireId1 0b010101#6 0b10#2, []) ∧
  decode .payload [0b11111101#8] = .ok (.wireLiteral 0xFD#8, []) ∧
  decode .payload [0b11111110#8, 0b11111110#8] = .ok (.wireEscStart, []) ∧
  decode .payload [0b11111110#8, 0b11111101#8] = .ok (.wireEscEsc, []) ∧
  decode .payload [0b11111110#8, 0b00000111#8] = .ok (.wireEscInvalid 0x07#8, [])

/-- Every well-formed instruction's bytes decode to it, whatever follows them (R80 to R92). -/
def Obligations.DecodeOfEncodeIsTheInstruction : Prop :=
  ∀ (i : Instr) (rest : List Byte), i.wf = true → decode i.place (encode i ++ rest) = .ok (i, rest)

/-- Whatever decodes is a well-formed instruction of that place, and the bytes were its encoding: no bit is dropped
and no two rows share a word (R80 to R92). -/
def Obligations.DecodedBytesAreTheInstructionsEncoding : Prop :=
  ∀ (p : Place) (bytes rest : List Byte) (i : Instr), decode p bytes = .ok (i, rest) →
    i.wf = true ∧ i.place = p ∧ encode i ++ rest = bytes

/-! ### The codec -/

/-- R111: the five fields of unpack_id, and that it inverts pack_id. -/
def Obligations.UnpackingInvertsPacking : Prop :=
  (∀ (b0 b1 b2 b3 : Byte) (d : Payload) (n : BitVec 4),
    (unpackId b0 b1 b2 b3 d n).device.toNat = b0.toNat % 64 ∧
    (unpackId b0 b1 b2 b3 d n).apiIndex.toNat = b1.toNat % 4 * 4 + b0.toNat / 64 ∧
    (unpackId b0 b1 b2 b3 d n).apiClass.toNat = b1.toNat / 4 ∧
    (unpackId b0 b1 b2 b3 d n).manufacturer = b2 ∧
    (unpackId b0 b1 b2 b3 d n).deviceType = b3) ∧
  ∀ m : Bank, ∃ b0 b1 b2 b3 : Byte, packId m = [b0, b1, b2, b3] ∧ unpackId b0 b1 b2 b3 m.data m.dataSize = m

/-- R112: the physical unit of a payload byte and its length. -/
def Obligations.StuffingFollowsTheTable : Prop :=
  ∀ d : Byte,
    stuff d = (if d = 0xFF#8 then [0xFE#8, 0xFE#8] else if d = 0xFE#8 then [0xFE#8, 0xFD#8] else [d]) ∧
    (stuff d).length = if d = 0xFF#8 ∨ d = 0xFE#8 then 2 else 1

/-- R113: ENCODE writes TXBUF (the frame, then 0x00), TX_PLEN and TX_VALID; a data_size above 8 raises BAD_SIZE and
leaves TXBUF and TX_PLEN. -/
def Obligations.EncodeWritesTheFrameOrRaisesBadSize : Prop :=
  ∀ r ∈ encodeRuns, ∀ s : State, s.runs r.op r.idx → Memory.wf s.mem →
    (s.req.dataSize.toNat ≤ 8 →
      ∃ (t : State) (frame : List Byte),
        frame = [0xFF#8, BitVec.ofNat 8 (4 + s.req.dataSize.toNat),
            s.req.apiIndex.extractLsb' 0 2 ++ s.req.device, s.req.apiClass ++ s.req.apiIndex.extractLsb' 2 2,
            s.req.manufacturer, s.req.deviceType] ++
          ([s.req.data.data0, s.req.data.data1, s.req.data.data2, s.req.data.data3, s.req.data.data4,
            s.req.data.data5, s.req.data.data6, s.req.data.data7].take s.req.dataSize.toNat).flatMap
            (fun d => if d = 0xFF#8 then [0xFE#8, 0xFE#8] else if d = 0xFE#8 then [0xFE#8, 0xFD#8] else [d]) ∧
        6 ≤ frame.length ∧ frame.length ≤ 22 ∧
        exec r.instr s = .next t ∧
        (∀ k, k < 22 → t.txbuf k = frame.getD k 0x00#8) ∧
        (∀ a, (a < 0x40 ∨ 0x56 ≤ a) → Memory.read t.mem a = Memory.read s.mem a) ∧
        t = ({ s with mem := t.mem, txPlen := BitVec.ofNat 8 frame.length, txValid := true } : State).moved r.last) ∧
    (8 < s.req.dataSize.toNat →
      exec r.instr s =
        .next (({ s with txValid := false } : State).failed r.stage .badSize (s.req.dataSize.setWidth 8)))

/-- R116: the physical size law and the length byte, wherever ENCODE succeeds. -/
def Obligations.PhysicalSizeCountsTheSpecialBytes : Prop :=
  ∀ r ∈ encodeRuns, ∀ s : State, s.runs r.op r.idx → Memory.wf s.mem → s.req.dataSize.toNat ≤ 8 →
    ∃ t : State, exec r.instr s = .next t ∧
      t.txPlen.toNat = 6 + s.req.dataSize.toNat + s.req.payload.countP (fun d => d = 0xFF#8 ∨ d = 0xFE#8) ∧
      (t.txbuf 1).toNat = 4 + s.req.dataSize.toNat

/-- R114 and R91: a length byte outside 4 to 12 ends DECODE with DEC_LENGTH; RX is unchanged, RX_VALID falls. -/
def Obligations.DecodeRejectsABadLength : Prop :=
  ∀ r ∈ decodeRuns, ∀ s : State, s.runs r.op r.idx → ((s.rxbuf 1).toNat < 4 ∨ 12 < (s.rxbuf 1).toNat) →
    exec r.instr s = .next (({ s with rxValid := false } : State).failed r.stage .decLength (s.rxbuf 1))

/-- R114: where RXBUF's payload region holds valid units, DECODE writes all of RX from them and RX_VALID rises. -/
def Obligations.DecodeReadsTheUnits : Prop :=
  ∀ r ∈ decodeRuns, ∀ (s : State) (units : List Instr) (values : List Byte), s.runs r.op r.idx →
    4 ≤ (s.rxbuf 1).toNat → (s.rxbuf 1).toNat ≤ 12 → units.length = (s.rxbuf 1).toNat - 4 →
    units.map unitValue = values.map some →
    (∀ k, k < (units.flatMap encode).length → s.rxbuf (6 + k) = (units.flatMap encode).getD k 0x00#8) →
    ∃ rx : Bank,
      exec r.instr s = .next (({ s with rx := rx, rxValid := true } : State).moved r.last) ∧
      rx.device.toNat = (s.rxbuf 2).toNat % 64 ∧
      rx.apiIndex.toNat = (s.rxbuf 3).toNat % 4 * 4 + (s.rxbuf 2).toNat / 64 ∧
      rx.apiClass.toNat = (s.rxbuf 3).toNat / 4 ∧
      rx.manufacturer = s.rxbuf 4 ∧ rx.deviceType = s.rxbuf 5 ∧
      rx.dataSize.toNat = (s.rxbuf 1).toNat - 4 ∧
      rx.payload = values ∧ (∀ k, values.length ≤ k → rx.data.toList.getD k 0x00#8 = 0x00#8)

/-- R118: an ESC followed by neither ESC nor ALT never becomes a data byte. The first such pair in walk order ends
DECODE with DEC_ESCAPE, ERRINFO its second byte; RX is unchanged, RX_VALID falls (R114, R226 (d)). -/
def Obligations.DecodeRaisesAtTheFirstInvalidPair : Prop :=
  ∀ r ∈ decodeRuns, ∀ (s : State) (units : List Instr) (values : List Byte) (x : Byte), s.runs r.op r.idx →
    4 ≤ (s.rxbuf 1).toNat → (s.rxbuf 1).toNat ≤ 12 → units.length < (s.rxbuf 1).toNat - 4 →
    units.map unitValue = values.map some → x ≠ 0xFE#8 → x ≠ 0xFD#8 →
    (∀ k, k < (units.flatMap encode ++ [0xFE#8, x]).length →
      s.rxbuf (6 + k) = (units.flatMap encode ++ [0xFE#8, x]).getD k 0x00#8) →
    exec r.instr s = .next (({ s with rxValid := false } : State).failed r.stage .decEscape x)

/-- R117: where ENCODE runs on a message and DECODE then on an RXBUF whose first TX_PLEN bytes are TXBUF's, DECODE
succeeds and gives the message back. -/
def Obligations.DecodingInvertsEncoding : Prop :=
  ∀ r ∈ encodeRuns, ∀ d ∈ decodeRuns, ∀ s : State,
    s.runs r.op r.idx → Memory.wf s.mem → s.req.dataSize.toNat ≤ 8 →
    ∃ t : State, exec r.instr s = .next t ∧
      ∀ u : State, u.runs d.op d.idx → (∀ k, k < t.txPlen.toNat → u.rxbuf k = t.txbuf k) →
        ∃ rx : Bank, exec d.instr u = .next (({ u with rx := rx, rxValid := true } : State).moved d.last) ∧
          rx.device = s.req.device ∧ rx.apiClass = s.req.apiClass ∧ rx.apiIndex = s.req.apiIndex ∧
          rx.manufacturer = s.req.manufacturer ∧ rx.deviceType = s.req.deviceType ∧
          rx.dataSize = s.req.dataSize ∧ rx.payload = s.req.payload ∧
          ∀ k, s.req.dataSize.toNat ≤ k → rx.data.toList.getD k 0x00#8 = 0x00#8

/-! ### Accepting and ending a command -/

/-- R82, for the bytes 0x01 to 0x0A: the accept, field by field; XQRY's and XSQRY's clears RPL_VALID. -/
def Obligations.AcceptStartsTheCommand : Prop :=
  ∀ (v : Byte) (s : State), 0x01 ≤ v.toNat → v.toNat ≤ 0x0A → s.busy = false →
    exec (decodeCommand v) s =
      .next { s with
        lastCmd := v, busy := true, done := false, hostOvr := false, errCode := .ok, errStage := .outside,
        errInfo := 0x00#8, seqOp := BitVec.ofNat 4 v.toNat, seqIdx := 0x0#4,
        rplValid := s.rplValid && v != 0x09#8 && v != 0x0A#8 }

/-- R200: NOP is the byte 0x00; on an idle block it completes with CODE 0 and changes nothing else. -/
def Obligations.NopOnlyCompletes : Prop :=
  decode .command [0x00#8] = .ok (.nop, []) ∧
  ∀ s : State, s.busy = false → exec .nop s = .next ({ s with lastCmd := 0x00#8, hostOvr := false } : State).finished

/-- R201: ABORT is the byte 0x0F; on an idle block it completes like NOP; on a busy one it withdraws the outstanding
request and ends the command with ABORTED at the running phase's stage, changing nothing else. -/
def Obligations.AbortEndsTheRunningCommand : Prop :=
  decode .command [0x0F#8] = .ok (.abort, []) ∧
  (∀ s : State, s.busy = false →
    exec .abort s = .next ({ s with lastCmd := 0x0F#8, hostOvr := false } : State).finished) ∧
  ∀ r ∈ encodeRuns ++ writeRuns ++ syncRuns ++ decodeRuns ++ ackRuns ++ drepRuns ++ srepRuns ++ copyRuns,
    ∀ s : State, s.runs r.op r.idx →
      exec .abort s = .next (({ s with rxReq := false, txReq := false } : State).failed r.stage .aborted 0x00#8)

/-- R84 and R202: every byte with RSV ≠ 0 or OP in 0xB to 0xE is one of the five illegal rows. It completes an idle
block's accept with ILLEGAL_CMD, stage 0, ERRINFO the byte, RPL_VALID untouched; a busy block only notes it. -/
def Obligations.IllegalByteCompletesWithIllegalCmd : Prop :=
  ∀ (v : Byte) (s : State), (0x10 ≤ v.toNat ∨ (0x0B ≤ v.toNat ∧ v.toNat ≤ 0x0E)) →
    (decodeCommand v = .illegal0B ∨ decodeCommand v = .illegal0C ∨ decodeCommand v = .illegal0D ∨
      decodeCommand v = .illegal0E ∨ ∃ rsv op, decodeCommand v = .illegalRsv rsv op) ∧
    (s.busy = false →
      exec (decodeCommand v) s =
        .next (({ s with lastCmd := v, hostOvr := false } : State).failed .outside .illegalCmd v)) ∧
    (s.busy = true → exec (decodeCommand v) s = .next { s with hostOvr := true })

/-! ### The host's accesses -/

/-- A host write to CMD that is a command runs it: step is exec of the decoded byte, the bus cycle and the turn used
up (R82; busy: only 0x0F, R201). -/
def Obligations.StepRunsTheCommandTheHostWrites : Prop :=
  ∀ (s : State) (v : Byte) (rest : List HostOp) (turns : List Turn),
    s.turns = .host :: turns → s.host = .write 0x00#8 v :: rest → s.rst = false →
    (s.busy = false ∨ v = 0x0F#8) →
    ∃ i : Instr, decode .command [v] = .ok (i, []) ∧ i.wf = true ∧
      step s = exec i { s with turns := turns, host := rest }

/-- R64: a write while busy has no effect but HOST_OVR, except ABORT; an idle write to a read-only location is
dropped without HOST_OVR. -/
def Obligations.WritesWhileBusyAreLost : Prop :=
  ∀ (s : State) (a v : Byte) (rest : List HostOp) (turns : List Turn),
    s.turns = .host :: turns → s.host = .write a v :: rest → s.rst = false →
    (s.busy = true → ¬(a = 0x00#8 ∧ v = 0x0F#8) →
      step s = .next { s with turns := turns, host := rest, hostOvr := true }) ∧
    (s.busy = true → a = 0x00#8 → v = 0x0F#8 →
      step s = exec .abort { s with turns := turns, host := rest }) ∧
    (s.busy = false → a ≠ 0x00#8 →
      (a.toNat < 0x10 ∨ (0x30 ≤ a.toNat ∧ a.toNat < 0x60) ∨ 0x76 ≤ a.toNat) →
      step s = .next { s with turns := turns, host := rest })

/-- R22, R23, R26, R62, R63: an idle write stores the writable bits of REQ, RX and RXBUF, and no other location's
byte changes. -/
def Obligations.IdleWriteStoresTheWritableBits : Prop :=
  ∀ (s : State) (a v : Byte) (rest : List HostOp) (turns : List Turn),
    s.turns = .host :: turns → s.host = .write a v :: rest → s.rst = false → s.busy = false → Memory.wf s.mem →
    ((0x10 ≤ a.toNat ∧ a.toNat < 0x30) ∨ (0x60 ≤ a.toNat ∧ a.toNat < 0x76)) →
    ∃ t : State, step s = .next t ∧
      t.peek a = v &&&
        (if 0x60 ≤ a.toNat then 0xFF#8
         else [0x3F#8, 0x3F#8, 0x0F#8, 0xFF#8, 0xFF#8, 0x0F#8, 0x00#8, 0x00#8, 0xFF#8, 0xFF#8, 0xFF#8, 0xFF#8, 0xFF#8,
           0xFF#8, 0xFF#8, 0xFF#8].getD (a.toNat % 16) 0x00#8) ∧
      (∀ b : Byte, b ≠ a → t.peek b = s.peek b) ∧
      t = { s with turns := turns, host := rest, req := t.req, rx := t.rx, mem := t.mem }

/-- R65: a host read changes no state: it is answered with the location's byte at that moment. -/
def Obligations.HostReadsChangeNothing : Prop :=
  ∀ (s : State) (a : Byte) (rest : List HostOp) (turns : List Turn),
    s.turns = .host :: turns → s.host = .read a :: rest → s.rst = false →
    step s = .next { s with turns := turns, host := rest, reads := s.reads ++ [s.peek a] }

/-- R62: reserved addresses and bank offsets +0x6 and +0x7 read 0x00, and an idle write to one is dropped. -/
def Obligations.ReservedLocationsReadZero : Prop :=
  ∀ (s : State) (a : Byte),
    ((0x0D ≤ a.toNat ∧ a.toNat ≤ 0x0F) ∨ (0x56 ≤ a.toNat ∧ a.toNat ≤ 0x5F) ∨ 0x76 ≤ a.toNat ∨
      ((0x10 ≤ a.toNat ∧ a.toNat < 0x40) ∧ (a.toNat % 16 = 6 ∨ a.toNat % 16 = 7))) →
    s.peek a = 0x00#8 ∧
    ∀ (v : Byte) (rest : List HostOp) (turns : List Turn),
      s.turns = .host :: turns → s.host = .write a v :: rest → s.rst = false → s.busy = false →
      step s = .next { s with turns := turns, host := rest }

/-- R28, R29, R31: what STATUS, ERRCODE and SEQ read as, bit by bit, with the codes of R220 and the stages of R221. -/
def Obligations.StatusRegistersReadTheirFields : Prop :=
  ∀ s : State,
    (s.peek 0x01#8).getLsbD 0 = s.busy ∧ (s.peek 0x01#8).getLsbD 1 = s.done ∧
    ((s.peek 0x01#8).getLsbD 2 = true ↔ s.errCode ≠ .ok) ∧
    (s.peek 0x01#8).getLsbD 3 = s.txValid ∧ (s.peek 0x01#8).getLsbD 4 = s.rxValid ∧
    (s.peek 0x01#8).getLsbD 5 = s.rplValid ∧ (s.peek 0x01#8).getLsbD 6 = s.hostOvr ∧
    (s.peek 0x01#8).getLsbD 7 = false ∧
    (s.peek 0x02#8).extractLsb' 0 4 =
      (match s.errCode with
        | .ok => 0x0#4
        | .transportRx => 0x1#4
        | .transportTx => 0x2#4
        | .decEscape => 0x3#4
        | .decLength => 0x4#4
        | .protoAck => 0x5#4
        | .protoReply => 0x6#4
        | .badSize => 0x7#4
        | .illegalCmd => 0x8#4
        | .aborted => 0x9#4) ∧
    (s.peek 0x02#8).extractLsb' 4 4 =
      (match s.errStage with
        | .outside => 0x0#4
        | .request => 0x1#4
        | .first => 0x2#4
        | .second => 0x3#4) ∧
    (s.peek 0x0C#8).extractLsb' 0 4 = s.seqOp ∧ (s.peek 0x0C#8).extractLsb' 4 4 = s.seqIdx

/-- R26, R27, R30, R33 to R35, R39: the other registers read at their addresses, DFR_STATE with the codes of R33. -/
def Obligations.RegistersReadAtTheirAddresses : Prop :=
  ∀ s : State,
    s.peek 0x00#8 = s.lastCmd ∧ s.peek 0x03#8 = s.errInfo ∧
    s.peek 0x04#8 =
      (match s.dfrState with
        | .idle => 0x00#8
        | .hunt => 0x01#8
        | .len => 0x02#8
        | .id => 0x03#8
        | .body => 0x04#8
        | .esc => 0x05#8
        | .done => 0x06#8) ∧
    s.peek 0x05#8 = s.dfrUnits ∧ s.peek 0x06#8 = s.rxLen ∧ s.peek 0x07#8 = s.rxOvh ∧ s.peek 0x08#8 = s.rxPlen ∧
    s.peek 0x09#8 = s.txPlen ∧ s.peek 0x0B#8 ++ s.peek 0x0A#8 = s.discard ∧
    (∀ k, k < 22 → s.peek (BitVec.ofNat 8 (0x40 + k)) = s.txbuf k) ∧
    (∀ k, k < 22 → s.peek (BitVec.ofNat 8 (0x60 + k)) = s.rxbuf k) ∧
    ∀ e ∈ [(0x1#4, s.req), (0x2#4, s.rx), (0x3#4, s.rpl)],
      (s.peek (e.1 ++ 0x0#4)).toNat = e.2.device.toNat ∧ (s.peek (e.1 ++ 0x1#4)).toNat = e.2.apiClass.toNat ∧
      (s.peek (e.1 ++ 0x2#4)).toNat = e.2.apiIndex.toNat ∧ s.peek (e.1 ++ 0x3#4) = e.2.manufacturer ∧
      s.peek (e.1 ++ 0x4#4) = e.2.deviceType ∧ (s.peek (e.1 ++ 0x5#4)).toNat = e.2.dataSize.toNat ∧
      ∀ k, k < 8 → s.peek (e.1 ++ BitVec.ofNat 4 (8 + k)) = e.2.data.toList.getD k 0x00#8

/-- R102: WAIT reads STATUS, and stays until the value read has BUSY = 0. -/
def Obligations.WaitPollsStatusUntilIdle : Prop :=
  ∀ (s : State) (rest : List HostOp) (turns : List Turn),
    s.turns = .host :: turns → s.host = .wait :: rest → s.rst = false →
    step s = .next { s with turns := turns, host := if s.busy then .wait :: rest else rest,
                            reads := s.reads ++ [s.peek 0x01#8] }

/-! ### Reset -/

/-- R251: after reset every host-visible location reads 0x00 and the block is idle. -/
def Obligations.ResetReadsZeroEverywhere : Prop :=
  (∀ a : Byte, State.reset.busRead a = 0x00#8) ∧ State.reset.busy = false ∧ State.reset.done = false ∧
    State.reset.rxReq = false ∧ State.reset.txReq = false

/-- R250, R251, R252: asserting or releasing the reset line puts every register at its reset value, withdraws an
outstanding request, and does not touch the channel, its history or the host's program. That the line is driven by a
turn, and that a line which is low and stays low is no reset, is the model's reading (log 14). -/
def Obligations.ResetLineClearsTheRegistersOnly : Prop :=
  ∀ (s : State) (level : Bool) (turns : List Turn), s.turns = .rst level :: turns →
    ((level = true ∨ s.rst = true) →
      ∃ t : State, step s = .next t ∧ (∀ a : Byte, t.peek a = 0x00#8) ∧ t.rst = level ∧ t.rxReq = false ∧
        t.txReq = false ∧ t.turns = turns ∧ t.host = s.host ∧ t.reads = s.reads ∧ t.chanIn = s.chanIn ∧
        t.chanOut = s.chanOut ∧ t.sent = s.sent) ∧
    (level = false → s.rst = false → step s = .next { s with turns := turns })

/-- R250: while `rst` is asserted a host write has no effect, a read returns 0x00, and the block takes no step. WAIT's
read returns 0x00 too, so WAIT ends (R102; log 14). -/
def Obligations.NothingHappensDuringReset : Prop :=
  ∀ (s : State) (turns : List Turn), s.rst = true →
    (∀ a v rest, s.turns = .host :: turns → s.host = .write a v :: rest →
      step s = .next { s with turns := turns, host := rest }) ∧
    (∀ a rest, s.turns = .host :: turns → s.host = .read a :: rest →
      step s = .next { s with turns := turns, host := rest, reads := s.reads ++ [0x00#8] }) ∧
    (∀ rest, s.turns = .host :: turns → s.host = .wait :: rest →
      step s = .next { s with turns := turns, host := rest, reads := s.reads ++ [0x00#8] }) ∧
    (s.turns = .block :: turns → step s = .next { s with turns := turns })

/-! ### WRITE -/

/-- R142: WRITE offers the frame, holds until the channel answers, and ends or raises TRANSPORT_TX; the whole frame is
one `ChanWrite`, kept in the history with its answer. -/
def Obligations.WriteHandsOverTheWholeFrame : Prop :=
  ∀ r ∈ writeRuns, ∀ s : State, s.runs r.op r.idx → s.txPlen.toNat ≤ 22 →
    (s.txReq = false → exec r.instr s = .next { s with txReq := true }) ∧
    (s.txReq = true → s.chanOut = [] → exec r.instr s = .next s) ∧
    (∀ rest, s.txReq = true → s.chanOut = .ok :: rest →
      ∃ frame : List Byte, frame.length = s.txPlen.toNat ∧ (∀ k, k < frame.length → frame.getD k 0x00#8 = s.txbuf k) ∧
        exec r.instr s =
          .next (({ s with txReq := false, chanOut := rest, sent := s.sent ++ [⟨frame, .ok⟩] } : State).moved r.last)) ∧
    (∀ n rest, s.txReq = true → s.chanOut = .err n :: rest →
      ∃ frame : List Byte, frame.length = s.txPlen.toNat ∧ (∀ k, k < frame.length → frame.getD k 0x00#8 = s.txbuf k) ∧
        exec r.instr s =
          .next (({ s with txReq := false, chanOut := rest, sent := s.sent ++ [⟨frame, .err n⟩] } : State).failed
            r.stage .transportTx 0x02#8))

/-- From every state that keeps the invariant, a step adds at most one frame to the output history, and that frame is
the encoding of REQ (R142, R74, R176: nothing is resent). -/
def Obligations.EveryFrameSentIsTheRequestsEncoding : Prop :=
  ∀ s t : State, s.Inv → step s = .next t →
    t.sent = s.sent ∨
      ∃ a : TxAnswer, s.phase = some .write ∧ s.req.dataSize.toNat ≤ 8 ∧
        t.sent = s.sent ++ [⟨encodeFrame s.req, a⟩] ∧ t.chanOut = s.chanOut.tail ∧ s.chanOut.head? = some a

/-! ### SYNC -/

/-- R143: SYNC's start clears RXBUF, every counter and RX_VALID, enters HUNT and asks for the first byte. -/
def Obligations.SyncStartClearsTheReceiver : Prop :=
  ∀ r ∈ syncRuns, ∀ s : State, s.runs r.op r.idx → s.rxReq = false → Memory.wf s.mem →
    ∃ t : State, exec r.instr s = .next t ∧
      (∀ k, k < 22 → t.rxbuf k = 0x00#8) ∧
      (∀ a, (a < 0x60 ∨ 0x76 ≤ a) → Memory.read t.mem a = Memory.read s.mem a) ∧
      t = { s with mem := t.mem, rxPlen := 0x00#8, rxLen := 0x00#8, rxOvh := 0x00#8, dfrUnits := 0x00#8,
                   discard := 0x0000#16, rxValid := false, dfrState := .hunt, rxReq := true }

/-- R150: EOF and Err end the command with TRANSPORT_RX, leaving the partial frame and DFR_STATE as they are. -/
def Obligations.ChannelFailureIsTransportRx : Prop :=
  ∀ r ∈ syncRuns, ∀ (s : State) (rest : List RxAnswer), s.runs r.op r.idx → s.rxReq = true →
    (s.chanIn = .eof :: rest →
      exec r.instr s =
        .next (({ s with chanIn := rest, rxReq := false } : State).failed r.stage .transportRx 0x01#8)) ∧
    (s.chanIn = .err :: rest →
      exec r.instr s =
        .next (({ s with chanIn := rest, rxReq := false } : State).failed r.stage .transportRx 0x02#8))

/-- R141, R32: a phase that waits for a channel that gives no answer holds: the block's turn changes nothing. -/
def Obligations.TheBlockHoldsForASilentChannel : Prop :=
  ∀ (s : State) (turns : List Turn), s.turns = .block :: turns → s.rst = false → s.busy = true →
    (s.phase = some .sync → s.rxReq = true → s.chanIn = [] → step s = .next { s with turns := turns }) ∧
    (s.phase = some .write → s.txPlen.toNat ≤ 22 → s.txReq = true → s.chanOut = [] →
      step s = .next { s with turns := turns })

/-- R144: HUNT stores START and goes to LEN; any other byte is discarded and counted, saturating. -/
def Obligations.HuntFindsStart : Prop :=
  ∀ s : State, s.phase = some .sync → s.rxReq = true → s.dfrState = .hunt → Memory.wf s.mem →
    (∃ t : State, exec .wireStart s = .next t ∧
      (∀ a, Memory.read t.mem a = if a = 0x60 then 0xFF#8 else Memory.read s.mem a) ∧
      t = { s with mem := t.mem, rxPlen := 0x01#8, dfrState := .len }) ∧
    ∀ b : Byte, b ≠ 0xFF#8 →
      exec (.wireNoise b) s = .next { s with discard := BitVec.ofNat 16 (min (s.discard.toNat + 1) 0xFFFF) }

/-- R145: LEN stores the byte; outside 4 to 12 it raises DEC_LENGTH with DFR_STATE left at LEN. -/
def Obligations.LengthByteIsStoredThenChecked : Prop :=
  ∀ r ∈ syncRuns, ∀ (s : State) (b : Byte), s.runs r.op r.idx → s.rxReq = true → s.dfrState = .len → Memory.wf s.mem →
    ∃ t : State, exec (.wireLength b) s = .next t ∧
      (∀ a, Memory.read t.mem a = if a = 0x61 then b else Memory.read s.mem a) ∧
      (4 ≤ b.toNat ∧ b.toNat ≤ 12 →
        t = { s with mem := t.mem, rxPlen := 0x02#8, rxLen := b, dfrState := .id }) ∧
      (b.toNat < 4 ∨ 12 < b.toNat →
        t = ({ s with mem := t.mem, rxPlen := 0x02#8, rxLen := b, rxReq := false } : State).failed r.stage .decLength b)

/-- R146: each identifier byte is one raw unit, stored whatever its value; the fourth goes to BODY, or ends SYNC when
the length is 4. -/
def Obligations.IdentifierBytesAreRawUnits : Prop :=
  ∀ r ∈ syncRuns, ∀ (s : State) (idxLo idxHi : BitVec 2) (dev cls : BitVec 6) (mfr typ : Byte),
    s.runs r.op r.idx → s.rxReq = true → s.dfrState = .id → s.rxPlen.toNat < 22 → Memory.wf s.mem →
    ∀ e ∈ [((.wireId0 idxLo dev : Instr), (idxLo ++ dev : Byte), 0x00#8), (.wireId1 cls idxHi, cls ++ idxHi, 0x01#8),
        (.wireId2 mfr, mfr, 0x02#8), (.wireId3 typ, typ, 0x03#8)],
      s.dfrUnits = e.2.2 →
      ∃ t : State, exec e.1 s = .next t ∧
        (∀ a, Memory.read t.mem a = if a = 0x60 + s.rxPlen.toNat then e.2.1 else Memory.read s.mem a) ∧
        t = (if e.2.2 ≠ 0x03#8 then
              { s with mem := t.mem, rxPlen := s.rxPlen + 0x01#8, dfrUnits := e.2.2 + 0x01#8 }
            else if 4 < s.rxLen.toNat then
              { s with mem := t.mem, rxPlen := s.rxPlen + 0x01#8, dfrUnits := 0x04#8, dfrState := .body }
            else
              { s with mem := t.mem, rxPlen := s.rxPlen + 0x01#8, dfrUnits := 0x04#8, dfrState := .done,
                       rxReq := false, seqIdx := r.idx + 0x1#4 }) ∧
        (e.2.2 = 0x03#8 → s.rxPlen = 0x05#8 → t.rxPlen = 0x06#8 ∧ t.dfrUnits = 0x04#8)

/-- R147, R149: a literal payload unit is stored and counted; the last unit ends SYNC. -/
def Obligations.LiteralUnitIsStored : Prop :=
  ∀ r ∈ syncRuns, ∀ (s : State) (d : Byte), d ≠ 0xFE#8 → s.runs r.op r.idx → s.rxReq = true → s.dfrState = .body →
    s.rxPlen.toNat < 22 → s.dfrUnits.toNat < s.rxLen.toNat → Memory.wf s.mem →
    ∃ t : State, exec (.wireLiteral d) s = .next t ∧
      (∀ a, Memory.read t.mem a = if a = 0x60 + s.rxPlen.toNat then d else Memory.read s.mem a) ∧
      t = (if s.dfrUnits.toNat + 1 < s.rxLen.toNat then
            { s with mem := t.mem, rxPlen := s.rxPlen + 0x01#8, dfrUnits := s.dfrUnits + 0x01#8 }
          else
            { s with mem := t.mem, rxPlen := s.rxPlen + 0x01#8, dfrUnits := s.dfrUnits + 0x01#8, dfrState := .done,
                     rxReq := false, seqIdx := r.idx + 0x1#4 })

/-- R148, R149: the second byte of an escaped unit is stored whatever it is (ESC, ALT or neither), and the unit counts
once, in RX_OVH too; the last unit ends SYNC. -/
def Obligations.EscapedUnitIsStoredWhateverItsSecondByte : Prop :=
  ∀ r ∈ syncRuns, ∀ (s : State) (x : Byte), x ≠ 0xFE#8 → x ≠ 0xFD#8 → s.runs r.op r.idx → s.rxReq = true → s.dfrState = .esc →
    s.rxPlen.toNat < 22 → s.dfrUnits.toNat < s.rxLen.toNat → Memory.wf s.mem →
    ∀ e ∈ [((.wireEscStart : Instr), 0xFE#8), (.wireEscEsc, 0xFD#8), (.wireEscInvalid x, x)],
      ∃ t : State, exec e.1 s = .next t ∧
        (∀ a, Memory.read t.mem a = if a = 0x60 + s.rxPlen.toNat then e.2 else Memory.read s.mem a) ∧
        t = (if s.dfrUnits.toNat + 1 < s.rxLen.toNat then
              { s with mem := t.mem, rxPlen := s.rxPlen + 0x01#8, rxOvh := s.rxOvh + 0x01#8,
                       dfrUnits := s.dfrUnits + 0x01#8, dfrState := .body }
            else
              { s with mem := t.mem, rxPlen := s.rxPlen + 0x01#8, rxOvh := s.rxOvh + 0x01#8,
                       dfrUnits := s.dfrUnits + 0x01#8, dfrState := .done, rxReq := false, seqIdx := r.idx + 0x1#4 })

/-- R147: an ESC met in BODY is stored and sends SYNC to the ESC state; the unit is not counted yet. Said of the step
that takes the byte from the channel (log 10). -/
def Obligations.EscapeByteOpensAUnit : Prop :=
  ∀ (s : State) (turns : List Turn) (rest : List RxAnswer), s.turns = .block :: turns → s.rst = false →
    s.busy = true → s.phase = some .sync → s.rxReq = true → s.dfrState = .body → s.chanIn = .byte 0xFE#8 :: rest →
    s.rxPlen.toNat < 22 → Memory.wf s.mem →
    ∃ t : State, step s = .next t ∧
      (∀ a, Memory.read t.mem a = if a = 0x60 + s.rxPlen.toNat then 0xFE#8 else Memory.read s.mem a) ∧
      t = { s with mem := t.mem, turns := turns, chanIn := rest, rxPlen := s.rxPlen + 0x01#8, dfrState := .esc }

/-- A byte the channel delivers to SYNC runs the wire unit it completes at the deframer's place: step is exec of the
decoded unit, the byte and the turn used up (R92, R144 to R148). -/
def Obligations.StepRunsTheWireUnitTheChannelDelivers : Prop :=
  ∀ (s : State) (b : Byte) (turns : List Turn) (rest : List RxAnswer) (p : Place) (i : Instr),
    s.turns = .block :: turns → s.rst = false → s.busy = true → s.phase = some .sync → s.rxReq = true →
    s.chanIn = .byte b :: rest → s.place = some p →
    decode p (if s.dfrState = .esc then [0xFE#8, b] else [b]) = .ok (i, []) →
    i.wf = true ∧ step s = exec i { s with turns := turns, chanIn := rest }

/-- The block's turn otherwise runs the command in SEQ (R31, R32). -/
def Obligations.StepRunsTheCommandInSeq : Prop :=
  ∀ (s : State) (turns : List Turn), s.turns = .block :: turns → s.rst = false → s.busy = true →
    (s.phase ≠ some .sync ∨ s.rxReq = false ∨ ∀ b, s.chanIn.head? ≠ some (.byte b)) →
    ∃ i : Instr, decode .command [(0x0#4 ++ s.seqOp : Byte)] = .ok (i, []) ∧
      step s = exec i { s with turns := turns }

/-- Reading a byte through the running command's SYNC phase and running the wire unit it completes are one and the
same (R143 to R148, R152: the units are split in one way). -/
def Obligations.WireUnitsAreWhatSyncDoes : Prop :=
  ∀ r ∈ syncRuns, ∀ (s : State) (turns : List Turn), s.turns = .block :: turns → s.rst = false →
    s.runs r.op r.idx → step s = exec r.instr { s with turns := turns }

/-- A wire unit offered where the deframer does not stand at its place is refused by name (log 11: the model's own). -/
def Obligations.UnitsOutOfPlaceAreRefused : Prop :=
  ∀ s : State,
    ((s.rxReq = false ∨ s.phase ≠ some .sync ∨ s.dfrState ≠ .hunt) →
      exec .wireStart s = .refused (.notAtPlace "WIRE_START") ∧
      ∀ b, exec (.wireNoise b) s = .refused (.notAtPlace "WIRE_NOISE")) ∧
    ((s.rxReq = false ∨ s.phase ≠ some .sync ∨ s.dfrState ≠ .len) →
      ∀ l, exec (.wireLength l) s = .refused (.notAtPlace "WIRE_LENGTH")) ∧
    (∀ (idxLo idxHi : BitVec 2) (dev cls : BitVec 6) (mfr typ : Byte),
      ∀ e ∈ [((.wireId0 idxLo dev : Instr), 0x00#8, "WIRE_ID0"), (.wireId1 cls idxHi, 0x01#8, "WIRE_ID1"),
          (.wireId2 mfr, 0x02#8, "WIRE_ID2"), (.wireId3 typ, 0x03#8, "WIRE_ID3")],
        (s.rxReq = false ∨ s.phase ≠ some .sync ∨ s.dfrState ≠ .id ∨ s.dfrUnits ≠ e.2.1) →
          exec e.1 s = .refused (.notAtPlace e.2.2)) ∧
    ((s.rxReq = false ∨ s.phase ≠ some .sync ∨ s.dfrState ≠ .body) →
      ∀ d, exec (.wireLiteral d) s = .refused (.notAtPlace "WIRE_LITERAL")) ∧
    ((s.rxReq = false ∨ s.phase ≠ some .sync ∨ s.dfrState ≠ .esc) →
      exec .wireEscStart s = .refused (.notAtPlace "WIRE_ESC_START") ∧
      exec .wireEscEsc s = .refused (.notAtPlace "WIRE_ESC_ESC") ∧
      ∀ x, exec (.wireEscInvalid x) s = .refused (.notAtPlace "WIRE_ESC_INVALID"))

/-- R151: when a step ends SYNC without an error, RX_PLEN = 2 + RX_LEN + RX_OVH, which is 6 to 22. -/
def Obligations.PhysicalSizeReadCountsTheEscapes : Prop :=
  ∀ s t : State, s.Inv → s.phase = some .sync → step s = .next t → t.phase = some .decode →
    t.dfrState = .done ∧ t.dfrUnits = t.rxLen ∧ t.rxPlen.toNat = 2 + t.rxLen.toNat + t.rxOvh.toNat ∧
      6 ≤ t.rxPlen.toNat ∧ t.rxPlen.toNat ≤ 22

/-! ### The CHECK phases and COPY_RPL -/

/-- R170: CHECK_ACK passes iff all four conditions hold; else PROTO_ACK with the mask; api_index is never tested. -/
def Obligations.CheckAckTestsFourFields : Prop :=
  ∀ r ∈ ackRuns, ∀ s : State, s.runs r.op r.idx →
    (IsAck Config.params s.req s.rx → exec r.instr s = .next (s.moved r.last)) ∧
    (¬IsAck Config.params s.req s.rx →
      ∃ mask : Byte, mask ≠ 0x00#8 ∧
        (mask.getLsbD 0 = true ↔ s.rx.device ≠ s.req.device) ∧
        (mask.getLsbD 1 = true ↔ s.rx.apiClass ≠ Config.params.ackClass) ∧
        mask.getLsbD 2 = false ∧
        (mask.getLsbD 3 = true ↔ s.rx.manufacturer ≠ Config.params.ctrlVendor) ∧
        (mask.getLsbD 4 = true ↔ s.rx.deviceType ≠ Config.params.mcType) ∧
        mask.extractLsb' 5 3 = 0x0#3 ∧
        exec r.instr s = .next (s.failed r.stage .protoAck mask))

/-- R171: CHECK_DREP passes iff the five identifier fields equal the request's; else PROTO_REPLY with the mask. -/
def Obligations.CheckDrepTestsFiveFields : Prop :=
  ∀ r ∈ drepRuns, ∀ s : State, s.runs r.op r.idx →
    (IsDeviceReply s.req s.rx → exec r.instr s = .next (s.moved r.last)) ∧
    (¬IsDeviceReply s.req s.rx →
      ∃ mask : Byte, mask ≠ 0x00#8 ∧
        (mask.getLsbD 0 = true ↔ s.rx.device ≠ s.req.device) ∧
        (mask.getLsbD 1 = true ↔ s.rx.apiClass ≠ s.req.apiClass) ∧
        (mask.getLsbD 2 = true ↔ s.rx.apiIndex ≠ s.req.apiIndex) ∧
        (mask.getLsbD 3 = true ↔ s.rx.manufacturer ≠ s.req.manufacturer) ∧
        (mask.getLsbD 4 = true ↔ s.rx.deviceType ≠ s.req.deviceType) ∧
        mask.extractLsb' 5 3 = 0x0#3 ∧
        exec r.instr s = .next (s.failed r.stage .protoReply mask))

/-- R172: CHECK_SREP tests the three system codes and the request's api_index and device; else PROTO_REPLY. -/
def Obligations.CheckSrepTestsTheSystemCodes : Prop :=
  ∀ r ∈ srepRuns, ∀ s : State, s.runs r.op r.idx →
    (IsSystemReply Config.params s.req s.rx → exec r.instr s = .next (s.moved r.last)) ∧
    (¬IsSystemReply Config.params s.req s.rx →
      ∃ mask : Byte, mask ≠ 0x00#8 ∧
        (mask.getLsbD 0 = true ↔ s.rx.device ≠ s.req.device) ∧
        (mask.getLsbD 1 = true ↔ s.rx.apiClass ≠ Config.params.sysClass) ∧
        (mask.getLsbD 2 = true ↔ s.rx.apiIndex ≠ s.req.apiIndex) ∧
        (mask.getLsbD 3 = true ↔ s.rx.manufacturer ≠ Config.params.sysVendor) ∧
        (mask.getLsbD 4 = true ↔ s.rx.deviceType ≠ Config.params.sysType) ∧
        mask.extractLsb' 5 3 = 0x0#3 ∧
        exec r.instr s = .next (s.failed r.stage .protoReply mask))

/-- R174: COPY_RPL copies all 16 bank bytes and sets RPL_VALID. -/
def Obligations.CopyRplCopiesTheBank : Prop :=
  ∀ r ∈ copyRuns, ∀ s : State, s.runs r.op r.idx →
    exec r.instr s = .next (({ s with rpl := s.rx, rplValid := true } : State).moved r.last) ∧
    ∀ k : BitVec 4, ({ s with rpl := s.rx, rplValid := true } : State).peek (0x3#4 ++ k) = s.peek (0x2#4 ++ k)

/-! ### Whole-machine rules -/

/-- The invariant holds right after reset. -/
def Obligations.InvHoldsAtReset : Prop := State.reset.Inv ∧ State.reset.Coupled

/-- Every step keeps the invariant, from every state that has it. -/
def Obligations.EveryStepKeepsInv : Prop :=
  ∀ s t : State, s.Inv → step s = .next t → t.Inv

/-- SYNC and DECODE stay coupled along every step (R152). -/
def Obligations.EveryStepKeepsSyncAndDecodeCoupled : Prop :=
  ∀ s t : State, s.Inv → s.Coupled → step s = .next t → t.Coupled

/-- From every state that has the invariant the machine goes on: no step faults or is refused. -/
def Obligations.EveryStepAnswers : Prop :=
  ∀ s : State, s.Inv → ∃ t : State, step s = .next t

/-- The operands of a running command do not change under it (R64): REQ and LASTCMD hold; RX changes only in DECODE, RPL
only in COPY_RPL, TXBUF and TX_PLEN only in ENCODE, RXBUF only in SYNC (R22 to R26); unless the block is reset. -/
def Obligations.OperandsHoldUnderARunningCommand : Prop :=
  ∀ s t : State, s.busy = true → Memory.wf s.mem →
    (∀ level, s.nextTurn = .rst level → level = false ∧ s.rst = false) → step s = .next t →
    t.req = s.req ∧ t.lastCmd = s.lastCmd ∧ (t.rx ≠ s.rx → s.phase = some .decode) ∧
      (t.rpl ≠ s.rpl → s.phase = some .copyRpl) ∧ (t.txPlen ≠ s.txPlen → s.phase = some .encode) ∧
      (∀ k, k < 22 → t.txbuf k ≠ s.txbuf k → s.phase = some .encode) ∧
      ∀ k, k < 22 → t.rxbuf k ≠ s.rxbuf k → s.phase = some .sync

/-- An idle block leaves the channel alone, and a step of any kind takes at most one answer from it (R228, R71). -/
def Obligations.TheChannelIsReadOneAnswerAtATime : Prop :=
  ∀ s t : State, step s = .next t →
    (s.busy = false → t.chanIn = s.chanIn ∧ t.chanOut = s.chanOut ∧ t.sent = s.sent) ∧
    (t.chanIn = s.chanIn ∨ (s.phase = some .sync ∧ s.rxReq = true ∧ t.chanIn = s.chanIn.tail)) ∧
    (t.chanOut = s.chanOut ∨ (s.phase = some .write ∧ s.txReq = true ∧ t.chanOut = s.chanOut.tail))

/-- LASTCMD, STATUS, ERRCODE and ERRINFO of an idle block change only by the accept of a byte the host writes to CMD, or
by reset (R27, C7, R225). -/
def Obligations.TheLastResultHoldsUntilTheNextAccept : Prop :=
  ∀ s t : State, s.busy = false → step s = .next t →
    (t.lastCmd = s.lastCmd ∧ t.busy = false ∧ t.done = s.done ∧ t.txValid = s.txValid ∧ t.rxValid = s.rxValid ∧
      t.rplValid = s.rplValid ∧ t.hostOvr = s.hostOvr ∧ t.errCode = s.errCode ∧ t.errStage = s.errStage ∧
      t.errInfo = s.errInfo) ∨
    (∃ level, s.nextTurn = .rst level ∧ (level = true ∨ s.rst = true)) ∨
    ∃ v rest, s.nextTurn = .host ∧ s.rst = false ∧ s.host = .write 0x00#8 v :: rest ∧ t.host = rest ∧ t.lastCmd = v

/-! ### Whole commands -/

/-- R153: after noise without START and an encoded frame, RECV ends without an error with the frame's message in RX,
DISCARD the noise count, and the channel just after the frame. The order of moves is the model's default (log 4), and
the number of steps comes from how the model cuts a command into steps (log 1, log 2): both are the model's choice. -/
def Obligations.RecvFindsTheFrameAfterNoise : Prop :=
  ∀ (s : State) (m : Bank) (noise : List Byte) (rest : List RxAnswer), s.Inv → s.busy = false → s.rst = false →
    s.turns = [] → s.host = [.write 0x00#8 0x04#8] → m.dataSize.toNat ≤ 8 → 0xFF#8 ∉ noise →
    s.chanIn = answers (noise ++ encodeFrame m) ++ rest →
    ∃ t : State, core.run (noise.length + (encodeFrame m).length + 3) s = .next t ∧
      t.busy = false ∧ t.done = true ∧ t.errCode = .ok ∧ t.rxValid = true ∧ t.rx = m.message ∧
      t.discard.toNat = min noise.length 0xFFFF ∧ t.chanIn = rest ∧ t.sent = s.sent

/-- R183: XCMD on a channel that takes the request and then delivers noise without START and a well-formed
acknowledgement completes with CODE 0: the request's frame is sent, the acknowledgement stands in RX. The order of
moves is the model's default (log 4), and the number of steps comes from how the model cuts a command into steps
(log 1, log 2): both are the model's choice. -/
def Obligations.XcmdCompletesOnTheAcknowledgement : Prop :=
  ∀ (s : State) (ack : Bank) (noise : List Byte) (rest : List RxAnswer) (more : List TxAnswer), s.Inv →
    s.busy = false → s.rst = false → s.turns = [] → s.host = [.write 0x00#8 0x08#8] →
    s.req.dataSize.toNat ≤ 8 → ack.dataSize.toNat ≤ 8 → IsAck Config.params s.req ack → 0xFF#8 ∉ noise →
    s.chanOut = .ok :: more → s.chanIn = answers (noise ++ encodeFrame ack) ++ rest →
    ∃ t : State, core.run (noise.length + (encodeFrame ack).length + 7) s = .next t ∧
      t.busy = false ∧ t.done = true ∧ t.errCode = .ok ∧ t.lastCmd = 0x08#8 ∧ t.txValid = true ∧ t.rxValid = true ∧
      t.rx = ack.message ∧ t.rpl = s.rpl ∧ t.sent = s.sent ++ [⟨encodeFrame s.req, .ok⟩] ∧ t.chanIn = rest ∧
      t.chanOut = more

/-- R184, R185: XQRY (XSQRY) on a channel that delivers a valid reply and then an acknowledgement completes with CODE
0: the reply's message stands in RPL and the acknowledgement's in RX. The order of moves is the model's default
(log 4), and the number of steps comes from how the model cuts a command into steps (log 1, log 2): both are the
model's choice. -/
def Obligations.QueryKeepsTheReplyAndTheAcknowledgement : Prop :=
  ∀ (s : State) (v : Byte) (reply ack : Bank) (rest : List RxAnswer) (more : List TxAnswer), s.Inv →
    s.busy = false → s.rst = false → s.turns = [] → s.host = [.write 0x00#8 v] →
    ((v = 0x09#8 ∧ IsDeviceReply s.req reply) ∨ (v = 0x0A#8 ∧ IsSystemReply Config.params s.req reply)) →
    s.req.dataSize.toNat ≤ 8 → reply.dataSize.toNat ≤ 8 → ack.dataSize.toNat ≤ 8 → IsAck Config.params s.req ack →
    s.chanOut = .ok :: more → s.chanIn = answers (encodeFrame reply ++ encodeFrame ack) ++ rest →
    ∃ t : State, core.run ((encodeFrame reply).length + (encodeFrame ack).length + 11) s = .next t ∧
      t.busy = false ∧ t.done = true ∧ t.errCode = .ok ∧ t.lastCmd = v ∧ t.txValid = true ∧ t.rxValid = true ∧
      t.rplValid = true ∧ t.rpl = reply.message ∧ t.rx = ack.message ∧
      t.sent = s.sent ++ [⟨encodeFrame s.req, .ok⟩] ∧ t.chanIn = rest ∧ t.chanOut = more

/-- R176: a reply that decodes but fails the Device (System) Reply rule ends XQRY (XSQRY) with PROTO_REPLY at stage 2 and
the mask of the failing fields (R171 to R173); RPL is not written, and what follows the reply on the channel is not
read. The order of moves is the model's default (log 4), and the number of steps comes from how the model cuts a
command into steps (log 1, log 2): both are the model's choice. -/
def Obligations.FailedReplyLeavesTheRestUnread : Prop :=
  ∀ (s : State) (v : Byte) (reply : Bank) (rest : List RxAnswer) (more : List TxAnswer), s.Inv →
    s.busy = false → s.rst = false → s.turns = [] → s.host = [.write 0x00#8 v] →
    ((v = 0x09#8 ∧ ¬IsDeviceReply s.req reply) ∨ (v = 0x0A#8 ∧ ¬IsSystemReply Config.params s.req reply)) →
    s.req.dataSize.toNat ≤ 8 → reply.dataSize.toNat ≤ 8 →
    s.chanOut = .ok :: more → s.chanIn = answers (encodeFrame reply) ++ rest →
    ∃ t : State, core.run ((encodeFrame reply).length + 7) s = .next t ∧
      t.busy = false ∧ t.done = true ∧ t.lastCmd = v ∧ t.errCode = .protoReply ∧ t.errStage = .first ∧
      (t.errInfo.getLsbD 0 = true ↔ reply.device ≠ s.req.device) ∧
      (t.errInfo.getLsbD 1 = true ↔
        reply.apiClass ≠ if v = 0x09#8 then s.req.apiClass else Config.params.sysClass) ∧
      (t.errInfo.getLsbD 2 = true ↔ reply.apiIndex ≠ s.req.apiIndex) ∧
      (t.errInfo.getLsbD 3 = true ↔
        reply.manufacturer ≠ if v = 0x09#8 then s.req.manufacturer else Config.params.sysVendor) ∧
      (t.errInfo.getLsbD 4 = true ↔
        reply.deviceType ≠ if v = 0x09#8 then s.req.deviceType else Config.params.sysType) ∧
      t.errInfo.extractLsb' 5 3 = 0x0#3 ∧ t.rplValid = false ∧ t.rpl = s.rpl ∧ t.rx = reply.message ∧
      t.sent = s.sent ++ [⟨encodeFrame s.req, .ok⟩] ∧ t.chanIn = rest ∧ t.chanOut = more

/-! ### The end of DECODE's walk, and what the peer gets -/

/-- R152: where DECODE finds no invalid pair, the units its walk has taken are exactly the bytes from RXBUF[6] up to
where walkEnd says, and after SYNC that is RX_PLEN: the walk ends at RXBUF[RX_PLEN - 1]. -/
def Obligations.DecodeTakesExactlyTheUnitsOfTheFrame : Prop :=
  ∀ r ∈ decodeRuns, ∀ s t : State, s.runs r.op r.idx → exec r.instr s = .next t → t.rxValid = true →
    ∃ units : List Instr,
      units.length = (s.rxbuf 1).toNat - 4 ∧ units.map unitValue = t.rx.payload.map some ∧
      (∀ k, k < (units.flatMap encode).length → s.rxbuf (6 + k) = (units.flatMap encode).getD k 0x00#8) ∧
      6 + (units.flatMap encode).length = walkEnd s.mem 6 ((s.rxbuf 1).toNat - 4) ∧
      (s.Coupled → r.idx ≠ 0x0#4 → 6 + (units.flatMap encode).length = s.rxPlen.toNat)

/-- R74: with Ok the whole frame has been handed over, in one piece; with Err the peer has got some prefix of it, and
every prefix is possible (U4; that the answer carries the prefix's length is log 7). That the peer gets nothing while the
write is not answered is not R74's: it is the model's choice (log 21), deduced from R201 (a withdrawn ChanWrite sends no
byte) and R141 (what was handed over is recorded). -/
def Obligations.ThePeerGetsTheFrameOrAPrefix : Prop :=
  ∀ r ∈ writeRuns, ∀ s : State, s.runs r.op r.idx → s.txPlen.toNat ≤ 22 →
    ((s.txReq = false ∨ s.chanOut = []) → ∃ t : State, exec r.instr s = .next t ∧ t.delivered = s.delivered) ∧
    ∃ frame : List Byte, frame.length = s.txPlen.toNat ∧
      (∀ k, k < frame.length → frame.getD k 0x00#8 = s.txbuf k) ∧
      (∀ rest, s.txReq = true → s.chanOut = .ok :: rest →
        ∃ t : State, exec r.instr s = .next t ∧ t.delivered = s.delivered ++ frame) ∧
      (∀ n rest, s.txReq = true → s.chanOut = .err n :: rest →
        ∃ (t : State) (got : List Byte), exec r.instr s = .next t ∧ got <+: frame ∧
          t.delivered = s.delivered ++ got) ∧
      ∀ got : List Byte, got <+: frame → s.txReq = true →
        ∃ n : Nat, ∀ rest, ∃ t : State,
          exec r.instr { s with chanOut := .err n :: rest } = .next t ∧ t.delivered = s.delivered ++ got
end

