-- ==== Sys2Proof/Laws/Bits.lean ====
section
/-! SUPPORT. Splitting a byte into fields and joining fields into a byte are inverse, for the three splits the
encodings use (R81, R87). -/

namespace Sys2Proof

theorem split44_hi : ∀ (a b : BitVec 4), (a ++ b : Byte).extractLsb' 4 4 = a := by decide
theorem split44_lo : ∀ (a b : BitVec 4), (a ++ b : Byte).extractLsb' 0 4 = b := by decide
theorem split26_hi : ∀ (a : BitVec 2) (b : BitVec 6), (a ++ b : Byte).extractLsb' 6 2 = a := by decide
theorem split26_lo : ∀ (a : BitVec 2) (b : BitVec 6), (a ++ b : Byte).extractLsb' 0 6 = b := by decide
theorem split62_hi : ∀ (a : BitVec 6) (b : BitVec 2), (a ++ b : Byte).extractLsb' 2 6 = a := by decide
theorem split62_lo : ∀ (a : BitVec 6) (b : BitVec 2), (a ++ b : Byte).extractLsb' 0 2 = b := by decide

theorem join44 : ∀ v : Byte, (v.extractLsb' 4 4 ++ v.extractLsb' 0 4 : Byte) = v := by decide
theorem join26 : ∀ v : Byte, (v.extractLsb' 6 2 ++ v.extractLsb' 0 6 : Byte) = v := by decide
theorem join62 : ∀ v : Byte, (v.extractLsb' 2 6 ++ v.extractLsb' 0 2 : Byte) = v := by decide

theorem nibble_join : ∀ x : BitVec 4, (x.extractLsb' 2 2 ++ x.extractLsb' 0 2 : BitVec 4) = x := by decide

/-- A byte with RSV = 0000 decodes to its OP's command. -/
theorem decodeCommand_op (op : BitVec 4) : decodeCommand (0x0#4 ++ op) = commandOfOp op := by
  revert op; decide

namespace Machine

/-- The identifier bytes of a bank spell its identifier fields back. -/
theorem unpackId_packed (m : Bank) (d : Payload) (n : BitVec 4) :
    unpackId (m.apiIndex.extractLsb' 0 2 ++ m.device) (m.apiClass ++ m.apiIndex.extractLsb' 2 2) m.manufacturer
      m.deviceType d n = { m with data := d, dataSize := n } := by
  unfold unpackId
  rw [split26_lo, split26_hi, split62_hi, split62_lo, nibble_join]

end Machine

end Sys2Proof
end

