-- ==== Sys2Proof/Laws/State.lean ====
section
/-! SUPPORT. One lemma per field per named update of State, true by rfl, so that no proof unfolds an update. -/

namespace Sys2Proof.Machine

open Sys2Proof

/-! ### accept -/

@[simp] theorem State.accept_lastCmd (s : State) (v : Byte) : (s.accept v).lastCmd = v := rfl
@[simp] theorem State.accept_busy (s : State) (v : Byte) : (s.accept v).busy = true := rfl
@[simp] theorem State.accept_done (s : State) (v : Byte) : (s.accept v).done = false := rfl
@[simp] theorem State.accept_txValid (s : State) (v : Byte) : (s.accept v).txValid = s.txValid := rfl
@[simp] theorem State.accept_rxValid (s : State) (v : Byte) : (s.accept v).rxValid = s.rxValid := rfl
@[simp] theorem State.accept_rplValid (s : State) (v : Byte) : (s.accept v).rplValid = (if v = 0x09#8 ∨ v = 0x0A#8 then false else s.rplValid) := rfl
@[simp] theorem State.accept_hostOvr (s : State) (v : Byte) : (s.accept v).hostOvr = false := rfl
@[simp] theorem State.accept_errCode (s : State) (v : Byte) : (s.accept v).errCode = .ok := rfl
@[simp] theorem State.accept_errStage (s : State) (v : Byte) : (s.accept v).errStage = .outside := rfl
@[simp] theorem State.accept_errInfo (s : State) (v : Byte) : (s.accept v).errInfo = 0#8 := rfl
@[simp] theorem State.accept_seqOp (s : State) (v : Byte) : (s.accept v).seqOp = (v.extractLsb' 0 4) := rfl
@[simp] theorem State.accept_seqIdx (s : State) (v : Byte) : (s.accept v).seqIdx = 0#4 := rfl
@[simp] theorem State.accept_dfrState (s : State) (v : Byte) : (s.accept v).dfrState = s.dfrState := rfl
@[simp] theorem State.accept_dfrUnits (s : State) (v : Byte) : (s.accept v).dfrUnits = s.dfrUnits := rfl
@[simp] theorem State.accept_discard (s : State) (v : Byte) : (s.accept v).discard = s.discard := rfl
@[simp] theorem State.accept_rxLen (s : State) (v : Byte) : (s.accept v).rxLen = s.rxLen := rfl
@[simp] theorem State.accept_rxOvh (s : State) (v : Byte) : (s.accept v).rxOvh = s.rxOvh := rfl
@[simp] theorem State.accept_rxPlen (s : State) (v : Byte) : (s.accept v).rxPlen = s.rxPlen := rfl
@[simp] theorem State.accept_txPlen (s : State) (v : Byte) : (s.accept v).txPlen = s.txPlen := rfl
@[simp] theorem State.accept_req (s : State) (v : Byte) : (s.accept v).req = s.req := rfl
@[simp] theorem State.accept_rx (s : State) (v : Byte) : (s.accept v).rx = s.rx := rfl
@[simp] theorem State.accept_rpl (s : State) (v : Byte) : (s.accept v).rpl = s.rpl := rfl
@[simp] theorem State.accept_mem (s : State) (v : Byte) : (s.accept v).mem = s.mem := rfl
@[simp] theorem State.accept_rxReq (s : State) (v : Byte) : (s.accept v).rxReq = s.rxReq := rfl
@[simp] theorem State.accept_txReq (s : State) (v : Byte) : (s.accept v).txReq = s.txReq := rfl
@[simp] theorem State.accept_rst (s : State) (v : Byte) : (s.accept v).rst = s.rst := rfl
@[simp] theorem State.accept_turns (s : State) (v : Byte) : (s.accept v).turns = s.turns := rfl
@[simp] theorem State.accept_host (s : State) (v : Byte) : (s.accept v).host = s.host := rfl
@[simp] theorem State.accept_reads (s : State) (v : Byte) : (s.accept v).reads = s.reads := rfl
@[simp] theorem State.accept_chanIn (s : State) (v : Byte) : (s.accept v).chanIn = s.chanIn := rfl
@[simp] theorem State.accept_chanOut (s : State) (v : Byte) : (s.accept v).chanOut = s.chanOut := rfl
@[simp] theorem State.accept_sent (s : State) (v : Byte) : (s.accept v).sent = s.sent := rfl

/-! ### complete -/

@[simp] theorem State.complete_lastCmd (s : State) (st : Stage) (c : ErrorCode) (n : Byte) : (s.complete st c n).lastCmd = s.lastCmd := rfl
@[simp] theorem State.complete_busy (s : State) (st : Stage) (c : ErrorCode) (n : Byte) : (s.complete st c n).busy = false := rfl
@[simp] theorem State.complete_done (s : State) (st : Stage) (c : ErrorCode) (n : Byte) : (s.complete st c n).done = true := rfl
@[simp] theorem State.complete_txValid (s : State) (st : Stage) (c : ErrorCode) (n : Byte) : (s.complete st c n).txValid = s.txValid := rfl
@[simp] theorem State.complete_rxValid (s : State) (st : Stage) (c : ErrorCode) (n : Byte) : (s.complete st c n).rxValid = s.rxValid := rfl
@[simp] theorem State.complete_rplValid (s : State) (st : Stage) (c : ErrorCode) (n : Byte) : (s.complete st c n).rplValid = s.rplValid := rfl
@[simp] theorem State.complete_hostOvr (s : State) (st : Stage) (c : ErrorCode) (n : Byte) : (s.complete st c n).hostOvr = s.hostOvr := rfl
@[simp] theorem State.complete_errCode (s : State) (st : Stage) (c : ErrorCode) (n : Byte) : (s.complete st c n).errCode = c := rfl
@[simp] theorem State.complete_errStage (s : State) (st : Stage) (c : ErrorCode) (n : Byte) : (s.complete st c n).errStage = st := rfl
@[simp] theorem State.complete_errInfo (s : State) (st : Stage) (c : ErrorCode) (n : Byte) : (s.complete st c n).errInfo = n := rfl
@[simp] theorem State.complete_seqOp (s : State) (st : Stage) (c : ErrorCode) (n : Byte) : (s.complete st c n).seqOp = 0#4 := rfl
@[simp] theorem State.complete_seqIdx (s : State) (st : Stage) (c : ErrorCode) (n : Byte) : (s.complete st c n).seqIdx = 0#4 := rfl
@[simp] theorem State.complete_dfrState (s : State) (st : Stage) (c : ErrorCode) (n : Byte) : (s.complete st c n).dfrState = s.dfrState := rfl
@[simp] theorem State.complete_dfrUnits (s : State) (st : Stage) (c : ErrorCode) (n : Byte) : (s.complete st c n).dfrUnits = s.dfrUnits := rfl
@[simp] theorem State.complete_discard (s : State) (st : Stage) (c : ErrorCode) (n : Byte) : (s.complete st c n).discard = s.discard := rfl
@[simp] theorem State.complete_rxLen (s : State) (st : Stage) (c : ErrorCode) (n : Byte) : (s.complete st c n).rxLen = s.rxLen := rfl
@[simp] theorem State.complete_rxOvh (s : State) (st : Stage) (c : ErrorCode) (n : Byte) : (s.complete st c n).rxOvh = s.rxOvh := rfl
@[simp] theorem State.complete_rxPlen (s : State) (st : Stage) (c : ErrorCode) (n : Byte) : (s.complete st c n).rxPlen = s.rxPlen := rfl
@[simp] theorem State.complete_txPlen (s : State) (st : Stage) (c : ErrorCode) (n : Byte) : (s.complete st c n).txPlen = s.txPlen := rfl
@[simp] theorem State.complete_req (s : State) (st : Stage) (c : ErrorCode) (n : Byte) : (s.complete st c n).req = s.req := rfl
@[simp] theorem State.complete_rx (s : State) (st : Stage) (c : ErrorCode) (n : Byte) : (s.complete st c n).rx = s.rx := rfl
@[simp] theorem State.complete_rpl (s : State) (st : Stage) (c : ErrorCode) (n : Byte) : (s.complete st c n).rpl = s.rpl := rfl
@[simp] theorem State.complete_mem (s : State) (st : Stage) (c : ErrorCode) (n : Byte) : (s.complete st c n).mem = s.mem := rfl
@[simp] theorem State.complete_rxReq (s : State) (st : Stage) (c : ErrorCode) (n : Byte) : (s.complete st c n).rxReq = s.rxReq := rfl
@[simp] theorem State.complete_txReq (s : State) (st : Stage) (c : ErrorCode) (n : Byte) : (s.complete st c n).txReq = s.txReq := rfl
@[simp] theorem State.complete_rst (s : State) (st : Stage) (c : ErrorCode) (n : Byte) : (s.complete st c n).rst = s.rst := rfl
@[simp] theorem State.complete_turns (s : State) (st : Stage) (c : ErrorCode) (n : Byte) : (s.complete st c n).turns = s.turns := rfl
@[simp] theorem State.complete_host (s : State) (st : Stage) (c : ErrorCode) (n : Byte) : (s.complete st c n).host = s.host := rfl
@[simp] theorem State.complete_reads (s : State) (st : Stage) (c : ErrorCode) (n : Byte) : (s.complete st c n).reads = s.reads := rfl
@[simp] theorem State.complete_chanIn (s : State) (st : Stage) (c : ErrorCode) (n : Byte) : (s.complete st c n).chanIn = s.chanIn := rfl
@[simp] theorem State.complete_chanOut (s : State) (st : Stage) (c : ErrorCode) (n : Byte) : (s.complete st c n).chanOut = s.chanOut := rfl
@[simp] theorem State.complete_sent (s : State) (st : Stage) (c : ErrorCode) (n : Byte) : (s.complete st c n).sent = s.sent := rfl

/-! ### withdraw -/

@[simp] theorem State.withdraw_lastCmd (s : State) : (s.withdraw).lastCmd = s.lastCmd := rfl
@[simp] theorem State.withdraw_busy (s : State) : (s.withdraw).busy = s.busy := rfl
@[simp] theorem State.withdraw_done (s : State) : (s.withdraw).done = s.done := rfl
@[simp] theorem State.withdraw_txValid (s : State) : (s.withdraw).txValid = s.txValid := rfl
@[simp] theorem State.withdraw_rxValid (s : State) : (s.withdraw).rxValid = s.rxValid := rfl
@[simp] theorem State.withdraw_rplValid (s : State) : (s.withdraw).rplValid = s.rplValid := rfl
@[simp] theorem State.withdraw_hostOvr (s : State) : (s.withdraw).hostOvr = s.hostOvr := rfl
@[simp] theorem State.withdraw_errCode (s : State) : (s.withdraw).errCode = s.errCode := rfl
@[simp] theorem State.withdraw_errStage (s : State) : (s.withdraw).errStage = s.errStage := rfl
@[simp] theorem State.withdraw_errInfo (s : State) : (s.withdraw).errInfo = s.errInfo := rfl
@[simp] theorem State.withdraw_seqOp (s : State) : (s.withdraw).seqOp = s.seqOp := rfl
@[simp] theorem State.withdraw_seqIdx (s : State) : (s.withdraw).seqIdx = s.seqIdx := rfl
@[simp] theorem State.withdraw_dfrState (s : State) : (s.withdraw).dfrState = s.dfrState := rfl
@[simp] theorem State.withdraw_dfrUnits (s : State) : (s.withdraw).dfrUnits = s.dfrUnits := rfl
@[simp] theorem State.withdraw_discard (s : State) : (s.withdraw).discard = s.discard := rfl
@[simp] theorem State.withdraw_rxLen (s : State) : (s.withdraw).rxLen = s.rxLen := rfl
@[simp] theorem State.withdraw_rxOvh (s : State) : (s.withdraw).rxOvh = s.rxOvh := rfl
@[simp] theorem State.withdraw_rxPlen (s : State) : (s.withdraw).rxPlen = s.rxPlen := rfl
@[simp] theorem State.withdraw_txPlen (s : State) : (s.withdraw).txPlen = s.txPlen := rfl
@[simp] theorem State.withdraw_req (s : State) : (s.withdraw).req = s.req := rfl
@[simp] theorem State.withdraw_rx (s : State) : (s.withdraw).rx = s.rx := rfl
@[simp] theorem State.withdraw_rpl (s : State) : (s.withdraw).rpl = s.rpl := rfl
@[simp] theorem State.withdraw_mem (s : State) : (s.withdraw).mem = s.mem := rfl
@[simp] theorem State.withdraw_rxReq (s : State) : (s.withdraw).rxReq = false := rfl
@[simp] theorem State.withdraw_txReq (s : State) : (s.withdraw).txReq = false := rfl
@[simp] theorem State.withdraw_rst (s : State) : (s.withdraw).rst = s.rst := rfl
@[simp] theorem State.withdraw_turns (s : State) : (s.withdraw).turns = s.turns := rfl
@[simp] theorem State.withdraw_host (s : State) : (s.withdraw).host = s.host := rfl
@[simp] theorem State.withdraw_reads (s : State) : (s.withdraw).reads = s.reads := rfl
@[simp] theorem State.withdraw_chanIn (s : State) : (s.withdraw).chanIn = s.chanIn := rfl
@[simp] theorem State.withdraw_chanOut (s : State) : (s.withdraw).chanOut = s.chanOut := rfl
@[simp] theorem State.withdraw_sent (s : State) : (s.withdraw).sent = s.sent := rfl

/-! ### turnAway -/

@[simp] theorem State.turnAway_lastCmd (s : State) : (s.turnAway).lastCmd = s.lastCmd := rfl
@[simp] theorem State.turnAway_busy (s : State) : (s.turnAway).busy = s.busy := rfl
@[simp] theorem State.turnAway_done (s : State) : (s.turnAway).done = s.done := rfl
@[simp] theorem State.turnAway_txValid (s : State) : (s.turnAway).txValid = s.txValid := rfl
@[simp] theorem State.turnAway_rxValid (s : State) : (s.turnAway).rxValid = s.rxValid := rfl
@[simp] theorem State.turnAway_rplValid (s : State) : (s.turnAway).rplValid = s.rplValid := rfl
@[simp] theorem State.turnAway_hostOvr (s : State) : (s.turnAway).hostOvr = true := rfl
@[simp] theorem State.turnAway_errCode (s : State) : (s.turnAway).errCode = s.errCode := rfl
@[simp] theorem State.turnAway_errStage (s : State) : (s.turnAway).errStage = s.errStage := rfl
@[simp] theorem State.turnAway_errInfo (s : State) : (s.turnAway).errInfo = s.errInfo := rfl
@[simp] theorem State.turnAway_seqOp (s : State) : (s.turnAway).seqOp = s.seqOp := rfl
@[simp] theorem State.turnAway_seqIdx (s : State) : (s.turnAway).seqIdx = s.seqIdx := rfl
@[simp] theorem State.turnAway_dfrState (s : State) : (s.turnAway).dfrState = s.dfrState := rfl
@[simp] theorem State.turnAway_dfrUnits (s : State) : (s.turnAway).dfrUnits = s.dfrUnits := rfl
@[simp] theorem State.turnAway_discard (s : State) : (s.turnAway).discard = s.discard := rfl
@[simp] theorem State.turnAway_rxLen (s : State) : (s.turnAway).rxLen = s.rxLen := rfl
@[simp] theorem State.turnAway_rxOvh (s : State) : (s.turnAway).rxOvh = s.rxOvh := rfl
@[simp] theorem State.turnAway_rxPlen (s : State) : (s.turnAway).rxPlen = s.rxPlen := rfl
@[simp] theorem State.turnAway_txPlen (s : State) : (s.turnAway).txPlen = s.txPlen := rfl
@[simp] theorem State.turnAway_req (s : State) : (s.turnAway).req = s.req := rfl
@[simp] theorem State.turnAway_rx (s : State) : (s.turnAway).rx = s.rx := rfl
@[simp] theorem State.turnAway_rpl (s : State) : (s.turnAway).rpl = s.rpl := rfl
@[simp] theorem State.turnAway_mem (s : State) : (s.turnAway).mem = s.mem := rfl
@[simp] theorem State.turnAway_rxReq (s : State) : (s.turnAway).rxReq = s.rxReq := rfl
@[simp] theorem State.turnAway_txReq (s : State) : (s.turnAway).txReq = s.txReq := rfl
@[simp] theorem State.turnAway_rst (s : State) : (s.turnAway).rst = s.rst := rfl
@[simp] theorem State.turnAway_turns (s : State) : (s.turnAway).turns = s.turns := rfl
@[simp] theorem State.turnAway_host (s : State) : (s.turnAway).host = s.host := rfl
@[simp] theorem State.turnAway_reads (s : State) : (s.turnAway).reads = s.reads := rfl
@[simp] theorem State.turnAway_chanIn (s : State) : (s.turnAway).chanIn = s.chanIn := rfl
@[simp] theorem State.turnAway_chanOut (s : State) : (s.turnAway).chanOut = s.chanOut := rfl
@[simp] theorem State.turnAway_sent (s : State) : (s.turnAway).sent = s.sent := rfl

/-! ### popTurn -/

@[simp] theorem State.popTurn_lastCmd (s : State) : (s.popTurn).lastCmd = s.lastCmd := rfl
@[simp] theorem State.popTurn_busy (s : State) : (s.popTurn).busy = s.busy := rfl
@[simp] theorem State.popTurn_done (s : State) : (s.popTurn).done = s.done := rfl
@[simp] theorem State.popTurn_txValid (s : State) : (s.popTurn).txValid = s.txValid := rfl
@[simp] theorem State.popTurn_rxValid (s : State) : (s.popTurn).rxValid = s.rxValid := rfl
@[simp] theorem State.popTurn_rplValid (s : State) : (s.popTurn).rplValid = s.rplValid := rfl
@[simp] theorem State.popTurn_hostOvr (s : State) : (s.popTurn).hostOvr = s.hostOvr := rfl
@[simp] theorem State.popTurn_errCode (s : State) : (s.popTurn).errCode = s.errCode := rfl
@[simp] theorem State.popTurn_errStage (s : State) : (s.popTurn).errStage = s.errStage := rfl
@[simp] theorem State.popTurn_errInfo (s : State) : (s.popTurn).errInfo = s.errInfo := rfl
@[simp] theorem State.popTurn_seqOp (s : State) : (s.popTurn).seqOp = s.seqOp := rfl
@[simp] theorem State.popTurn_seqIdx (s : State) : (s.popTurn).seqIdx = s.seqIdx := rfl
@[simp] theorem State.popTurn_dfrState (s : State) : (s.popTurn).dfrState = s.dfrState := rfl
@[simp] theorem State.popTurn_dfrUnits (s : State) : (s.popTurn).dfrUnits = s.dfrUnits := rfl
@[simp] theorem State.popTurn_discard (s : State) : (s.popTurn).discard = s.discard := rfl
@[simp] theorem State.popTurn_rxLen (s : State) : (s.popTurn).rxLen = s.rxLen := rfl
@[simp] theorem State.popTurn_rxOvh (s : State) : (s.popTurn).rxOvh = s.rxOvh := rfl
@[simp] theorem State.popTurn_rxPlen (s : State) : (s.popTurn).rxPlen = s.rxPlen := rfl
@[simp] theorem State.popTurn_txPlen (s : State) : (s.popTurn).txPlen = s.txPlen := rfl
@[simp] theorem State.popTurn_req (s : State) : (s.popTurn).req = s.req := rfl
@[simp] theorem State.popTurn_rx (s : State) : (s.popTurn).rx = s.rx := rfl
@[simp] theorem State.popTurn_rpl (s : State) : (s.popTurn).rpl = s.rpl := rfl
@[simp] theorem State.popTurn_mem (s : State) : (s.popTurn).mem = s.mem := rfl
@[simp] theorem State.popTurn_rxReq (s : State) : (s.popTurn).rxReq = s.rxReq := rfl
@[simp] theorem State.popTurn_txReq (s : State) : (s.popTurn).txReq = s.txReq := rfl
@[simp] theorem State.popTurn_rst (s : State) : (s.popTurn).rst = s.rst := rfl
@[simp] theorem State.popTurn_turns (s : State) : (s.popTurn).turns = s.turns.tail := rfl
@[simp] theorem State.popTurn_host (s : State) : (s.popTurn).host = s.host := rfl
@[simp] theorem State.popTurn_reads (s : State) : (s.popTurn).reads = s.reads := rfl
@[simp] theorem State.popTurn_chanIn (s : State) : (s.popTurn).chanIn = s.chanIn := rfl
@[simp] theorem State.popTurn_chanOut (s : State) : (s.popTurn).chanOut = s.chanOut := rfl
@[simp] theorem State.popTurn_sent (s : State) : (s.popTurn).sent = s.sent := rfl

/-! ### logRead -/

@[simp] theorem State.logRead_lastCmd (s : State) (v : Byte) : (s.logRead v).lastCmd = s.lastCmd := rfl
@[simp] theorem State.logRead_busy (s : State) (v : Byte) : (s.logRead v).busy = s.busy := rfl
@[simp] theorem State.logRead_done (s : State) (v : Byte) : (s.logRead v).done = s.done := rfl
@[simp] theorem State.logRead_txValid (s : State) (v : Byte) : (s.logRead v).txValid = s.txValid := rfl
@[simp] theorem State.logRead_rxValid (s : State) (v : Byte) : (s.logRead v).rxValid = s.rxValid := rfl
@[simp] theorem State.logRead_rplValid (s : State) (v : Byte) : (s.logRead v).rplValid = s.rplValid := rfl
@[simp] theorem State.logRead_hostOvr (s : State) (v : Byte) : (s.logRead v).hostOvr = s.hostOvr := rfl
@[simp] theorem State.logRead_errCode (s : State) (v : Byte) : (s.logRead v).errCode = s.errCode := rfl
@[simp] theorem State.logRead_errStage (s : State) (v : Byte) : (s.logRead v).errStage = s.errStage := rfl
@[simp] theorem State.logRead_errInfo (s : State) (v : Byte) : (s.logRead v).errInfo = s.errInfo := rfl
@[simp] theorem State.logRead_seqOp (s : State) (v : Byte) : (s.logRead v).seqOp = s.seqOp := rfl
@[simp] theorem State.logRead_seqIdx (s : State) (v : Byte) : (s.logRead v).seqIdx = s.seqIdx := rfl
@[simp] theorem State.logRead_dfrState (s : State) (v : Byte) : (s.logRead v).dfrState = s.dfrState := rfl
@[simp] theorem State.logRead_dfrUnits (s : State) (v : Byte) : (s.logRead v).dfrUnits = s.dfrUnits := rfl
@[simp] theorem State.logRead_discard (s : State) (v : Byte) : (s.logRead v).discard = s.discard := rfl
@[simp] theorem State.logRead_rxLen (s : State) (v : Byte) : (s.logRead v).rxLen = s.rxLen := rfl
@[simp] theorem State.logRead_rxOvh (s : State) (v : Byte) : (s.logRead v).rxOvh = s.rxOvh := rfl
@[simp] theorem State.logRead_rxPlen (s : State) (v : Byte) : (s.logRead v).rxPlen = s.rxPlen := rfl
@[simp] theorem State.logRead_txPlen (s : State) (v : Byte) : (s.logRead v).txPlen = s.txPlen := rfl
@[simp] theorem State.logRead_req (s : State) (v : Byte) : (s.logRead v).req = s.req := rfl
@[simp] theorem State.logRead_rx (s : State) (v : Byte) : (s.logRead v).rx = s.rx := rfl
@[simp] theorem State.logRead_rpl (s : State) (v : Byte) : (s.logRead v).rpl = s.rpl := rfl
@[simp] theorem State.logRead_mem (s : State) (v : Byte) : (s.logRead v).mem = s.mem := rfl
@[simp] theorem State.logRead_rxReq (s : State) (v : Byte) : (s.logRead v).rxReq = s.rxReq := rfl
@[simp] theorem State.logRead_txReq (s : State) (v : Byte) : (s.logRead v).txReq = s.txReq := rfl
@[simp] theorem State.logRead_rst (s : State) (v : Byte) : (s.logRead v).rst = s.rst := rfl
@[simp] theorem State.logRead_turns (s : State) (v : Byte) : (s.logRead v).turns = s.turns := rfl
@[simp] theorem State.logRead_host (s : State) (v : Byte) : (s.logRead v).host = s.host := rfl
@[simp] theorem State.logRead_reads (s : State) (v : Byte) : (s.logRead v).reads = (s.reads ++ [v]) := rfl
@[simp] theorem State.logRead_chanIn (s : State) (v : Byte) : (s.logRead v).chanIn = s.chanIn := rfl
@[simp] theorem State.logRead_chanOut (s : State) (v : Byte) : (s.logRead v).chanOut = s.chanOut := rfl
@[simp] theorem State.logRead_sent (s : State) (v : Byte) : (s.logRead v).sent = s.sent := rfl

/-! ### resetAll -/

@[simp] theorem State.resetAll_lastCmd (s : State) (level : Bool) : (s.resetAll level).lastCmd = State.reset.lastCmd := rfl
@[simp] theorem State.resetAll_busy (s : State) (level : Bool) : (s.resetAll level).busy = State.reset.busy := rfl
@[simp] theorem State.resetAll_done (s : State) (level : Bool) : (s.resetAll level).done = State.reset.done := rfl
@[simp] theorem State.resetAll_txValid (s : State) (level : Bool) : (s.resetAll level).txValid = State.reset.txValid := rfl
@[simp] theorem State.resetAll_rxValid (s : State) (level : Bool) : (s.resetAll level).rxValid = State.reset.rxValid := rfl
@[simp] theorem State.resetAll_rplValid (s : State) (level : Bool) : (s.resetAll level).rplValid = State.reset.rplValid := rfl
@[simp] theorem State.resetAll_hostOvr (s : State) (level : Bool) : (s.resetAll level).hostOvr = State.reset.hostOvr := rfl
@[simp] theorem State.resetAll_errCode (s : State) (level : Bool) : (s.resetAll level).errCode = State.reset.errCode := rfl
@[simp] theorem State.resetAll_errStage (s : State) (level : Bool) : (s.resetAll level).errStage = State.reset.errStage := rfl
@[simp] theorem State.resetAll_errInfo (s : State) (level : Bool) : (s.resetAll level).errInfo = State.reset.errInfo := rfl
@[simp] theorem State.resetAll_seqOp (s : State) (level : Bool) : (s.resetAll level).seqOp = State.reset.seqOp := rfl
@[simp] theorem State.resetAll_seqIdx (s : State) (level : Bool) : (s.resetAll level).seqIdx = State.reset.seqIdx := rfl
@[simp] theorem State.resetAll_dfrState (s : State) (level : Bool) : (s.resetAll level).dfrState = State.reset.dfrState := rfl
@[simp] theorem State.resetAll_dfrUnits (s : State) (level : Bool) : (s.resetAll level).dfrUnits = State.reset.dfrUnits := rfl
@[simp] theorem State.resetAll_discard (s : State) (level : Bool) : (s.resetAll level).discard = State.reset.discard := rfl
@[simp] theorem State.resetAll_rxLen (s : State) (level : Bool) : (s.resetAll level).rxLen = State.reset.rxLen := rfl
@[simp] theorem State.resetAll_rxOvh (s : State) (level : Bool) : (s.resetAll level).rxOvh = State.reset.rxOvh := rfl
@[simp] theorem State.resetAll_rxPlen (s : State) (level : Bool) : (s.resetAll level).rxPlen = State.reset.rxPlen := rfl
@[simp] theorem State.resetAll_txPlen (s : State) (level : Bool) : (s.resetAll level).txPlen = State.reset.txPlen := rfl
@[simp] theorem State.resetAll_req (s : State) (level : Bool) : (s.resetAll level).req = State.reset.req := rfl
@[simp] theorem State.resetAll_rx (s : State) (level : Bool) : (s.resetAll level).rx = State.reset.rx := rfl
@[simp] theorem State.resetAll_rpl (s : State) (level : Bool) : (s.resetAll level).rpl = State.reset.rpl := rfl
@[simp] theorem State.resetAll_mem (s : State) (level : Bool) : (s.resetAll level).mem = State.reset.mem := rfl
@[simp] theorem State.resetAll_rxReq (s : State) (level : Bool) : (s.resetAll level).rxReq = State.reset.rxReq := rfl
@[simp] theorem State.resetAll_txReq (s : State) (level : Bool) : (s.resetAll level).txReq = State.reset.txReq := rfl
@[simp] theorem State.resetAll_rst (s : State) (level : Bool) : (s.resetAll level).rst = level := rfl
@[simp] theorem State.resetAll_turns (s : State) (level : Bool) : (s.resetAll level).turns = s.turns := rfl
@[simp] theorem State.resetAll_host (s : State) (level : Bool) : (s.resetAll level).host = s.host := rfl
@[simp] theorem State.resetAll_reads (s : State) (level : Bool) : (s.resetAll level).reads = s.reads := rfl
@[simp] theorem State.resetAll_chanIn (s : State) (level : Bool) : (s.resetAll level).chanIn = s.chanIn := rfl
@[simp] theorem State.resetAll_chanOut (s : State) (level : Bool) : (s.resetAll level).chanOut = s.chanOut := rfl
@[simp] theorem State.resetAll_sent (s : State) (level : Bool) : (s.resetAll level).sent = s.sent := rfl

/-! ### reset -/

@[simp] theorem State.reset_lastCmd : State.reset.lastCmd = 0#8 := rfl
@[simp] theorem State.reset_busy : State.reset.busy = false := rfl
@[simp] theorem State.reset_done : State.reset.done = false := rfl
@[simp] theorem State.reset_txValid : State.reset.txValid = false := rfl
@[simp] theorem State.reset_rxValid : State.reset.rxValid = false := rfl
@[simp] theorem State.reset_rplValid : State.reset.rplValid = false := rfl
@[simp] theorem State.reset_hostOvr : State.reset.hostOvr = false := rfl
@[simp] theorem State.reset_errCode : State.reset.errCode = .ok := rfl
@[simp] theorem State.reset_errStage : State.reset.errStage = .outside := rfl
@[simp] theorem State.reset_errInfo : State.reset.errInfo = 0#8 := rfl
@[simp] theorem State.reset_seqOp : State.reset.seqOp = 0#4 := rfl
@[simp] theorem State.reset_seqIdx : State.reset.seqIdx = 0#4 := rfl
@[simp] theorem State.reset_dfrState : State.reset.dfrState = .idle := rfl
@[simp] theorem State.reset_dfrUnits : State.reset.dfrUnits = 0#8 := rfl
@[simp] theorem State.reset_discard : State.reset.discard = 0#16 := rfl
@[simp] theorem State.reset_rxLen : State.reset.rxLen = 0#8 := rfl
@[simp] theorem State.reset_rxOvh : State.reset.rxOvh = 0#8 := rfl
@[simp] theorem State.reset_rxPlen : State.reset.rxPlen = 0#8 := rfl
@[simp] theorem State.reset_txPlen : State.reset.txPlen = 0#8 := rfl
@[simp] theorem State.reset_req : State.reset.req = Bank.zero := rfl
@[simp] theorem State.reset_rx : State.reset.rx = Bank.zero := rfl
@[simp] theorem State.reset_rpl : State.reset.rpl = Bank.zero := rfl
@[simp] theorem State.reset_mem : State.reset.mem = [] := rfl
@[simp] theorem State.reset_rxReq : State.reset.rxReq = false := rfl
@[simp] theorem State.reset_txReq : State.reset.txReq = false := rfl
@[simp] theorem State.reset_rst : State.reset.rst = false := rfl
@[simp] theorem State.reset_turns : State.reset.turns = [] := rfl
@[simp] theorem State.reset_host : State.reset.host = [] := rfl
@[simp] theorem State.reset_reads : State.reset.reads = [] := rfl
@[simp] theorem State.reset_chanIn : State.reset.chanIn = [] := rfl
@[simp] theorem State.reset_chanOut : State.reset.chanOut = [] := rfl
@[simp] theorem State.reset_sent : State.reset.sent = [] := rfl

/-! ### setRst -/

theorem State.setRst_resets {s : State} {level : Bool} (h : level = true ∨ s.rst = true) :
    s.setRst level = s.resetAll level := by
  rcases h with rfl | h <;> simp [State.setRst, *]

theorem State.setRst_low {s : State} (h : s.rst = false) : s.setRst false = s := by simp [State.setRst, h]

end Sys2Proof.Machine
end

