-- ==== Sys2Proof/Laws/Memory.lean ====
section
/-! SUPPORT. The laws of the frame buffers' memory: reads after writes, and the canonical form kept by every
operation. -/

namespace Sys2Proof.Machine

open Sys2Proof

theorem Memory.wf_nil : Memory.wf [] := by decide

theorem Memory.wf_tail {c : Host.Cell} {m : Memory} (h : Memory.wf (c :: m)) : Memory.wf m :=
  ⟨(List.pairwise_cons.mp h.1).2, fun d hd => h.2 d (List.mem_cons_of_mem _ hd)⟩

theorem Memory.wf_head {c : Host.Cell} {m : Memory} (h : Memory.wf (c :: m)) : ∀ d ∈ m, c.1 < d.1 :=
  (List.pairwise_cons.mp h.1).1

/-- An address below every listed one reads 0x00. -/
theorem Memory.read_below {m : Memory} {a : Nat} (h : ∀ c ∈ m, a < c.1) : Memory.read m a = 0#8 := by
  induction m with
  | nil => rfl
  | cons c m ih =>
    obtain ⟨b, w⟩ := c
    have hb : a < b := h (b, w) (by simp)
    simp only [Memory.read]
    rw [if_neg (by omega)]
    exact ih fun d hd => h d (List.mem_cons_of_mem _ hd)

/-- What a write can list. -/
theorem Memory.mem_write {m : Memory} {a : Nat} {v : Byte} {c : Host.Cell} (h : c ∈ Memory.write m a v) :
    (c = (a, v) ∧ v ≠ 0#8) ∨ c ∈ m := by
  induction m with
  | nil =>
    by_cases hv : v = 0#8 <;> simp_all [Memory.write]
  | cons d m ih =>
    obtain ⟨b, w⟩ := d
    simp only [Memory.write] at h
    split at h
    · split at h <;> simp_all
    · split at h
      · split at h
        · exact .inr (List.mem_cons_of_mem _ h)
        · rcases List.mem_cons.mp h with rfl | h
          · exact .inl ⟨rfl, by assumption⟩
          · exact .inr (List.mem_cons_of_mem _ h)
      · rcases List.mem_cons.mp h with h | h
        · exact .inr (by simp [h])
        · rcases ih h with h | h
          · exact .inl h
          · exact .inr (List.mem_cons_of_mem _ h)

/-- A write keeps the canonical form. -/
theorem Memory.write_wf {m : Memory} (a : Nat) (v : Byte) (h : Memory.wf m) : Memory.wf (Memory.write m a v) := by
  induction m with
  | nil =>
    by_cases hv : v = 0#8 <;> simp [Memory.write, hv, Memory.wf]
  | cons d m ih =>
    have ht := Memory.wf_tail h
    have hh := Memory.wf_head h
    have hd := h.2 d (by simp)
    obtain ⟨b, w⟩ := d
    simp only [Memory.write]
    by_cases hab : a < b
    · rw [if_pos hab]
      by_cases hv : v = 0#8
      · simpa [hv] using h
      · rw [if_neg hv]
        refine ⟨List.pairwise_cons.mpr ⟨fun c hc => ?_, h.1⟩, fun c hc => ?_⟩
        · rcases List.mem_cons.mp hc with rfl | hc
          · exact hab
          · exact lt_trans hab (hh c hc)
        · rcases List.mem_cons.mp hc with rfl | hc
          · exact hv
          · exact h.2 c hc
    · rw [if_neg hab]
      by_cases he : a = b
      · rw [if_pos he]
        by_cases hv : v = 0#8
        · simpa [hv] using ht
        · rw [if_neg hv]
          refine ⟨List.pairwise_cons.mpr ⟨fun c hc => he ▸ hh c hc, ht.1⟩, fun c hc => ?_⟩
          rcases List.mem_cons.mp hc with rfl | hc
          · exact hv
          · exact ht.2 c hc
      · rw [if_neg he]
        refine ⟨List.pairwise_cons.mpr ⟨fun c hc => ?_, (ih ht).1⟩, fun c hc => ?_⟩
        · rcases Memory.mem_write hc with ⟨rfl, -⟩ | hc
          · show b < a
            omega
          · exact hh c hc
        · rcases List.mem_cons.mp hc with rfl | hc
          · exact hd
          · exact (ih ht).2 c hc

/-- A read after a write: the value written there, the old byte everywhere else. -/
theorem Memory.read_write {m : Memory} (a : Nat) (v : Byte) (x : Nat) (h : Memory.wf m) :
    Memory.read (Memory.write m a v) x = if x = a then v else Memory.read m x := by
  induction m with
  | nil =>
    by_cases hv : v = 0#8 <;> by_cases hx : x = a <;> simp [Memory.write, Memory.read, hv, hx]
  | cons d m ih =>
    have ht := Memory.wf_tail h
    have hh := Memory.wf_head h
    obtain ⟨b, w⟩ := d
    have ih := ih ht
    simp only [Memory.write]
    by_cases hab : a < b
    · rw [if_pos hab]
      have hbelow : Memory.read ((b, w) :: m) a = 0#8 := by
        refine Memory.read_below fun c hc => ?_
        rcases List.mem_cons.mp hc with rfl | hc
        · exact hab
        · exact lt_trans hab (hh c hc)
      by_cases hv : v = 0#8
      · by_cases hx : x = a
        · subst hx; simp [hv, hbelow]
        · simp [hv, hx]
      · rw [if_neg hv]
        by_cases hx : x = a
        · simp [Memory.read, hx]
        · rw [Memory.read, if_neg hx]
    · rw [if_neg hab]
      by_cases he : a = b
      · subst he
        rw [if_pos rfl]
        by_cases hx : x = a
        · subst hx
          by_cases hv : v = 0#8
          · rw [if_pos hv, if_pos rfl, hv]
            exact Memory.read_below hh
          · rw [if_neg hv]; simp [Memory.read]
        · by_cases hv : v = 0#8
          · rw [if_pos hv, if_neg hx, Memory.read, if_neg hx]
          · rw [if_neg hv, if_neg hx, Memory.read, Memory.read, if_neg hx, if_neg hx]
      · rw [if_neg he]
        by_cases hxb : x = b
        · subst hxb
          rw [Memory.read, Memory.read, if_pos rfl, if_pos rfl, if_neg (fun h => he h.symm)]
        · rw [Memory.read, Memory.read, if_neg hxb, if_neg hxb]
          exact ih

theorem Memory.writeList_wf {m : Memory} (bs : List Byte) (a : Nat) (h : Memory.wf m) :
    Memory.wf (Memory.writeList m a bs) := by
  induction bs generalizing m a with
  | nil => exact h
  | cons b bs ih => exact ih (a + 1) (Memory.write_wf a b h)

/-- A read after a list has been written from a up. -/
theorem Memory.read_writeList {m : Memory} (bs : List Byte) (a x : Nat) (h : Memory.wf m) :
    Memory.read (Memory.writeList m a bs) x =
      if a ≤ x ∧ x < a + bs.length then bs.getD (x - a) 0#8 else Memory.read m x := by
  induction bs generalizing m a with
  | nil =>
    simp only [Memory.writeList, List.length_nil, Nat.add_zero]
    rw [if_neg (by omega)]
  | cons b bs ih =>
    rw [Memory.writeList, ih (a + 1) (Memory.write_wf a b h), Memory.read_write a b x h]
    by_cases hx : x = a
    · subst hx
      rw [if_neg (by omega), if_pos rfl, if_pos (by simp)]
      simp
    · by_cases hin : a + 1 ≤ x ∧ x < a + 1 + bs.length
      · rw [if_pos hin, if_pos (by simp only [List.length_cons]; omega)]
        have : x - a = (x - (a + 1)) + 1 := by omega
        rw [this, List.getD_cons_succ]
      · rw [if_neg hin, if_neg hx, if_neg (by simp only [List.length_cons]; omega)]

theorem Memory.mem_writeList {m : Memory} (bs : List Byte) {a : Nat} {c : Host.Cell}
    (h : c ∈ Memory.writeList m a bs) : (a ≤ c.1 ∧ c.1 < a + bs.length) ∨ c ∈ m := by
  induction bs generalizing m a with
  | nil => exact .inr h
  | cons b bs ih =>
    rcases ih h with h | h
    · exact .inl (by simp only [List.length_cons]; omega)
    · rcases Memory.mem_write h with ⟨rfl, -⟩ | h
      · exact .inl (by simp)
      · exact .inr h

@[simp] theorem Memory.readList_length (m : Memory) (a n : Nat) : (Memory.readList m a n).length = n := by
  induction n generalizing a with
  | zero => rfl
  | succ n ih => simp [Memory.readList, ih]

theorem Memory.readList_getD (m : Memory) (a n i : Nat) (h : i < n) :
    (Memory.readList m a n).getD i 0#8 = Memory.read m (a + i) := by
  induction n generalizing a i with
  | zero => omega
  | succ n ih =>
    cases i with
    | zero => simp [Memory.readList]
    | succ i =>
      rw [Memory.readList, List.getD_cons_succ, ih (a + 1) i (by omega)]
      congr 1; omega

/-- Reading back a list that was written. -/
theorem Memory.readList_eq {m : Memory} {a : Nat} {bs : List Byte}
    (h : ∀ i, i < bs.length → Memory.read m (a + i) = bs.getD i 0#8) : Memory.readList m a bs.length = bs := by
  induction bs generalizing a with
  | nil => rfl
  | cons b bs ih =>
    have h0 : Memory.read m a = b := h 0 (by simp)
    have ht : Memory.readList m (a + 1) bs.length = bs := by
      refine ih fun i hi => ?_
      have hs := h (i + 1) (by simp only [List.length_cons]; omega)
      rw [List.getD_cons_succ] at hs
      rw [← hs]; congr 1; omega
    rw [List.length_cons, Memory.readList, h0, ht]

/-- Canonical memories that read the same are equal. -/
theorem Memory.ext {m n : Memory} (hm : Memory.wf m) (hn : Memory.wf n)
    (h : ∀ a, Memory.read m a = Memory.read n a) : m = n := by
  induction m generalizing n with
  | nil =>
    cases n with
    | nil => rfl
    | cons d n =>
      have := h d.1
      simp [Memory.read] at this
      exact absurd this.symm (hn.2 d (by simp))
  | cons c m ih =>
    cases n with
    | nil =>
      have := h c.1
      simp [Memory.read] at this
      exact absurd this (hm.2 c (by simp))
    | cons d n =>
      have hcm := Memory.wf_head hm
      have hdn := Memory.wf_head hn
      have hc0 := hm.2 c (by simp)
      have hd0 := hn.2 d (by simp)
      obtain ⟨a, v⟩ := c
      obtain ⟨b, w⟩ := d
      simp only at hcm hdn hc0 hd0
      have hab : a = b := by
        by_contra hne
        rcases Nat.lt_or_gt_of_ne hne with hlt | hgt
        · have := h a
          rw [Memory.read, if_pos rfl, Memory.read, if_neg hne] at this
          exact hc0 (this.trans (Memory.read_below fun c hc => lt_trans hlt (hdn c hc)))
        · have := h b
          rw [Memory.read, if_neg (fun e => hne e.symm), Memory.read, if_pos rfl] at this
          exact hd0 (this.symm.trans (Memory.read_below fun c hc => lt_trans hgt (hcm c hc)))
      subst hab
      have hvw : v = w := by
        have := h a
        rwa [Memory.read, if_pos rfl, Memory.read, if_pos rfl] at this
      subst hvw
      congr 1
      refine ih (Memory.wf_tail hm) (Memory.wf_tail hn) fun x => ?_
      by_cases hx : x = a
      · subst hx
        rw [Memory.read_below hcm, Memory.read_below hdn]
      · have := h x
        rwa [Memory.read, if_neg hx, Memory.read, if_neg hx] at this

end Sys2Proof.Machine
end

