-- ==== Sys2Proof/Laws/Sequencer.lean ====
section
/-! SUPPORT. What one step of a command does, said once: where the sequencer stands (runs), and how each phase end moves
it. Later proofs cite these and do not unfold commandStep, PhaseEnd.outcome or advance. -/

namespace Sys2Proof.Machine

open Sys2Proof

@[simp] theorem complete_finished (s : State) : s.complete .outside .ok 0#8 = s.finished := rfl

theorem complete_failed (s : State) (st : Stage) (c : ErrorCode) (n : Byte) : s.complete st c n = s.failed st c n := rfl

/-- What the sequencer's phase is when the block runs a command at an index. -/
theorem State.runs.current {s : State} {op idx : BitVec 4} (h : s.runs op idx) :
    s.current = (phaseList op)[idx.toNat]? := by
  obtain ⟨hb, ho, hi⟩ := h
  simp [State.current, hb, ho, hi]

theorem State.runs.stage {s : State} {op idx : BitVec 4} {p : Phase} {st : Stage} (h : s.runs op idx)
    (hp : (phaseList op)[idx.toNat]? = some (p, st)) : s.stage = st := by
  simp [State.stage, h.current, hp]

theorem State.runs.phase {s : State} {op idx : BitVec 4} {p : Phase} {st : Stage} (h : s.runs op idx)
    (hp : (phaseList op)[idx.toNat]? = some (p, st)) : s.phase = some p := by
  simp [State.phase, h.current, hp]

/-- A running command's step is its phase's step. -/
theorem commandStep_runs {s : State} {op idx : BitVec 4} {p : Phase} {st : Stage} (h : s.runs op idx)
    (hp : (phaseList op)[idx.toNat]? = some (p, st)) : commandStep op s = (runPhase p s).outcome := by
  have hc := h.current
  obtain ⟨hb, ho, hi⟩ := h
  simp [commandStep, hb, ho, hc, hp]

/-- A phase that ends moves the sequencer to the next phase, or finishes the command after its last (R32). -/
theorem outcome_ended {t : State} {op idx : BitVec 4} {last : Bool} (ho : t.seqOp = op) (hi : t.seqIdx = idx)
    (hl : last = decide ((phaseList op).length ≤ idx.toNat + 1)) :
    (PhaseEnd.ended t).outcome = .next (t.moved last) := by
  subst hl ho hi
  unfold PhaseEnd.outcome State.advance State.moved
  by_cases h : t.seqIdx.toNat + 1 < (phaseList t.seqOp).length
  · simp only [if_pos h, decide_eq_true_eq, if_neg (Nat.not_le.mpr h)]
  · simp only [if_neg h, decide_eq_true_eq, if_pos (Nat.not_lt.mp h), complete_finished]

/-- A phase that raises ends the command with the error, at the phase's stage (R32, R224). -/
theorem outcome_raised {t : State} {op idx : BitVec 4} {p : Phase} {st : Stage} {c : ErrorCode} {n : Byte}
    (h : t.runs op idx) (hp : (phaseList op)[idx.toNat]? = some (p, st)) :
    (PhaseEnd.raised c n t).outcome = .next (t.failed st c n) := by
  simp only [PhaseEnd.outcome, h.stage hp]; rfl

@[simp] theorem outcome_waiting (t : State) : (PhaseEnd.waiting t).outcome = .next t := rfl

/-- A row of R31's table agrees with phaseList. -/
abbrev PhaseRun.fits (r : PhaseRun) (p : Phase) : Prop :=
  (phaseList r.op)[r.idx.toNat]? = some (p, r.stage) ∧
    r.last = decide ((phaseList r.op).length ≤ r.idx.toNat + 1)

theorem encodeRuns_fit : ∀ r ∈ encodeRuns, r.fits .encode := by decide
theorem writeRuns_fit : ∀ r ∈ writeRuns, r.fits .write := by decide
theorem syncRuns_fit : ∀ r ∈ syncRuns, r.fits .sync ∧ r.last = false := by decide
theorem decodeRuns_fit : ∀ r ∈ decodeRuns, r.fits .decode := by decide
theorem ackRuns_fit : ∀ r ∈ ackRuns, r.fits .checkAck := by decide
theorem drepRuns_fit : ∀ r ∈ drepRuns, r.fits .checkDrep := by decide
theorem srepRuns_fit : ∀ r ∈ srepRuns, r.fits .checkSrep := by decide
theorem copyRuns_fit : ∀ r ∈ copyRuns, r.fits .copyRpl := by decide

/-- Every row of the tables: the instruction's meaning is the sequencer's step of its OP. -/
theorem exec_run (s : State) :
    ∀ r ∈ encodeRuns ++ writeRuns ++ syncRuns ++ decodeRuns ++ ackRuns ++ drepRuns ++ srepRuns ++ copyRuns,
      exec r.instr s = commandStep r.op s := by
  simp only [encodeRuns, writeRuns, syncRuns, decodeRuns, ackRuns, drepRuns, srepRuns, copyRuns, List.cons_append,
    List.nil_append, List.forall_mem_cons]
  simp [exec, execEnc, execDec, execSend, execRecv, execVack, execVdrep, execVsrep, execXcmd, execXqry, execXsqry]

/-- A row's step, through its phase. -/
theorem exec_run_phase {s : State} {r : PhaseRun} {p : Phase}
    (hr : r ∈ encodeRuns ++ writeRuns ++ syncRuns ++ decodeRuns ++ ackRuns ++ drepRuns ++ srepRuns ++ copyRuns)
    (hf : r.fits p) (h : s.runs r.op r.idx) : exec r.instr s = (runPhase p s).outcome := by
  rw [exec_run s r hr, commandStep_runs h hf.1]

end Sys2Proof.Machine
end

