-- ==== Sys2Proof/Laws/Codec.lean ====
section
/-! SUPPORT. The codec's laws: a frame's length, what ENCODE leaves in TXBUF, and what DECODE's walk finds. -/

namespace Sys2Proof.Machine

open Sys2Proof

theorem stuff_length (d : Byte) : (stuff d).length = if d = 0xFF#8 ∨ d = 0xFE#8 then 2 else 1 := by
  simp only [stuff, startByte, escByte]
  by_cases h : d = 0xFF#8
  · simp [h]
  · by_cases h2 : d = 0xFE#8 <;> simp [h, h2]

theorem flatMap_stuff_length (l : List Byte) :
    (l.flatMap stuff).length = l.length + l.countP (fun d => d = 0xFF#8 ∨ d = 0xFE#8) := by
  induction l with
  | nil => rfl
  | cons d l ih =>
    rw [List.flatMap_cons, List.length_append, ih, stuff_length, List.countP_cons, List.length_cons]
    by_cases h : d = 0xFF#8 ∨ d = 0xFE#8 <;> simp [h] <;> omega

theorem payload_length {m : Bank} (h : m.dataSize.toNat ≤ 8) : m.payload.length = m.dataSize.toNat := by
  simp [Bank.payload, Payload.toList]; exact h

theorem encodeFrame_length {m : Bank} (h : m.dataSize.toNat ≤ 8) :
    (encodeFrame m).length =
      6 + m.dataSize.toNat + m.payload.countP (fun d => d = 0xFF#8 ∨ d = 0xFE#8) := by
  simp only [encodeFrame, packId, List.length_append, flatMap_stuff_length, payload_length h, List.length_cons,
    List.length_nil]
  omega

theorem encodeFrame_length_le {m : Bank} (h : m.dataSize.toNat ≤ 8) : (encodeFrame m).length ≤ 22 := by
  have hl := payload_length h
  have hc : m.payload.countP (fun d => d = 0xFF#8 ∨ d = 0xFE#8) ≤ m.payload.length := List.countP_le_length
  rw [encodeFrame_length h]
  omega

theorem le_encodeFrame_length (m : Bank) : 6 ≤ (encodeFrame m).length := by
  simp [encodeFrame, packId]

theorem padded_length {l : List Byte} (h : l.length ≤ 22) : (padded l).length = 22 := by
  simp [padded, bufSize]; omega

theorem padded_getD (l : List Byte) (k : Nat) : (padded l).getD k 0#8 = l.getD k 0#8 := by
  unfold padded
  by_cases h : k < l.length
  · rw [List.getD_append _ _ _ _ h]
  · rw [List.getD_append_right _ _ _ _ (by omega)]
    rw [List.getD_eq_default l _ (by omega)]
    by_cases h2 : k - l.length < bufSize - l.length
    · rw [List.getD_eq_getElem _ _ (by simpa using h2)]; simp
    · rw [List.getD_eq_default _ _ (by simpa using h2)]

/-- What a whole buffer reads as after it has been written. -/
theorem read_written {m : Memory} (h : Memory.wf m) {l : List Byte} (hl : l.length ≤ 22) (base a : Nat) :
    Memory.read (Memory.writeList m base (padded l)) a =
      if base ≤ a ∧ a < base + 22 then l.getD (a - base) 0#8 else Memory.read m a := by
  rw [Memory.read_writeList _ _ _ h, padded_length hl]
  by_cases hin : base ≤ a ∧ a < base + 22
  · rw [if_pos hin, if_pos hin, padded_getD]
  · rw [if_neg hin, if_neg hin]

/-- What the unit of a payload row spells. -/
theorem unitValue_cases {u : Instr} {v : Byte} (h : unitValue u = some v) :
    (encode u = [v] ∧ v ≠ escByte) ∨ ∃ c, encode u = [escByte, c] ∧ unescape c = some v := by
  cases u <;> simp [unitValue] at h
  case wireLiteral d =>
    obtain ⟨h1, rfl⟩ := h
    exact .inl ⟨rfl, h1⟩
  case wireEscStart => exact .inr ⟨escByte, rfl, by simp [unescape, ← h, startByte]⟩
  case wireEscEsc => exact .inr ⟨altByte, rfl, by simp [unescape, ← h, escByte, altByte]⟩

/-- Bytes standing in RXBUF from an index. -/
def StoredAt (m : Memory) (p : Nat) (bytes : List Byte) : Prop :=
  ∀ k, k < bytes.length → Memory.read m (rxbufBase + (p + k)) = bytes.getD k 0#8

theorem StoredAt.head {m : Memory} {p : Nat} {b : Byte} {bs : List Byte} (h : StoredAt m p (b :: bs)) :
    Memory.read m (rxbufBase + p) = b := by
  simpa using h 0 (by simp)

theorem StoredAt.tail {m : Memory} {p : Nat} {b : Byte} {bs : List Byte} (h : StoredAt m p (b :: bs)) :
    StoredAt m (p + 1) bs := by
  intro k hk
  have := h (k + 1) (by simp only [List.length_cons]; omega)
  rw [List.getD_cons_succ] at this
  rw [← this]; congr 2; omega

theorem StoredAt.append_left {m : Memory} {p : Nat} {xs ys : List Byte} (h : StoredAt m p (xs ++ ys)) :
    StoredAt m p xs := by
  intro k hk
  have := h k (by rw [List.length_append]; omega)
  rwa [List.getD_append _ _ _ _ hk] at this

/-- DECODE's walk over valid units finds their values and goes on after them. -/
theorem unstuff_units {m : Memory} {units : List Instr} {values : List Byte} {p n : Nat} {more : List Byte}
    (hv : units.map unitValue = values.map some) (hs : StoredAt m p (units.flatMap encode ++ more)) :
    ∃ q, StoredAt m q more ∧ q = p + (units.flatMap encode).length ∧
      unstuff m p (units.length + n) =
        match unstuff m q n with
        | .error c => .error c
        | .ok ds => .ok (values ++ ds) := by
  induction units generalizing values p with
  | nil =>
    have : values = [] := by cases values <;> simp_all
    subst this
    refine ⟨p, by simpa using hs, by simp, ?_⟩
    simp only [List.length_nil, Nat.zero_add, List.nil_append]
    cases unstuff m p n <;> rfl
  | cons u units ih =>
    cases values with
    | nil => simp at hv
    | cons v values =>
      simp only [List.map_cons, List.cons.injEq] at hv
      have e : (u :: units).length + n = (units.length + n) + 1 := by simp only [List.length_cons]; omega
      rw [e, unstuff]
      rw [List.flatMap_cons, List.append_assoc] at hs
      rcases unitValue_cases hv.1 with ⟨hu, hne⟩ | ⟨c, hu, hc⟩
      · rw [hu] at hs
        have h0 := hs.head
        obtain ⟨q, hq, hqe, hw⟩ := ih hv.2 hs.tail
        refine ⟨q, hq, by rw [hqe, List.flatMap_cons, hu]; simp; omega, ?_⟩
        rw [h0, if_neg hne, hw]
        cases unstuff m q n <;> rfl
      · rw [hu] at hs
        have h0 := hs.head
        have h1 := hs.tail.head
        obtain ⟨q, hq, hqe, hw⟩ := ih hv.2 hs.tail.tail
        refine ⟨q, hq, by rw [hqe, List.flatMap_cons, hu]; simp; omega, ?_⟩
        rw [h0, if_pos rfl, h1, hc]
        rw [show p + 2 = p + 1 + 1 from rfl, hw]
        cases unstuff m q n <;> rfl

/-- The payload row whose unit spells a byte, as ENCODE chooses it (R89). -/
def unitOf (d : Byte) : Instr :=
  if d = startByte then .wireEscStart else if d = escByte then .wireEscEsc else .wireLiteral d

theorem encode_unitOf (d : Byte) : encode (unitOf d) = stuff d := by
  unfold unitOf stuff
  split
  · rfl
  · split <;> rfl

theorem unitValue_unitOf (d : Byte) : unitValue (unitOf d) = some d := by
  unfold unitOf
  split
  · next h => simp [unitValue, h, startByte]
  · split
    · next h => simp [unitValue, h, escByte]
    · next h => exact if_neg h

theorem flatMap_unitOf (l : List Byte) : (l.map unitOf).flatMap encode = l.flatMap stuff := by
  induction l with
  | nil => rfl
  | cons d l ih => rw [List.map_cons, List.flatMap_cons, List.flatMap_cons, ih, encode_unitOf]

theorem map_unitOf (l : List Byte) : (l.map unitOf).map unitValue = l.map some := by
  induction l with
  | nil => rfl
  | cons d l ih => rw [List.map_cons, List.map_cons, List.map_cons, ih, unitValue_unitOf]

/-- The eight payload bytes DECODE builds, one by one. -/
theorem Payload.ofList_getD (l : List Byte) (k : Nat) (hl : l.length ≤ 8) :
    (Payload.ofList l).toList.getD k 0#8 = l.getD k 0#8 := by
  unfold Payload.ofList Payload.toList
  match k with
  | 0 | 1 | 2 | 3 | 4 | 5 | 6 | 7 => rfl
  | k + 8 => rw [List.getD_eq_default _ _ (by simp), List.getD_eq_default _ _ (by omega)]

theorem Payload.take_ofList (l : List Byte) (hl : l.length ≤ 8) : (Payload.ofList l).toList.take l.length = l := by
  have hlen : ((Payload.ofList l).toList.take l.length).length = l.length := by
    simp [Payload.toList]; exact hl
  refine List.ext_getElem hlen fun k h1 h2 => ?_
  have := Payload.ofList_getD l k hl
  rw [List.getElem_take]
  rw [List.getD_eq_getElem (hn := h2), List.getD_eq_getElem (hn := by simp [Payload.toList]; omega)] at this
  exact this

end Sys2Proof.Machine
end

