-- ==== Sys2Proof/Laws/Step.lean ====
section
/-! SUPPORT. Everything one step can do, said once: the block's turn is the next step of its phase (block_phase), and a
step that answers is one of the kinds of Stepped (step_next). -/

namespace Sys2Proof.Machine

open Sys2Proof

/-- What a fetched step does. -/
def Fetched.result : Fetched → Host.Outcome State Fault Refusal
  | .run i t => exec i t
  | .other o => o

theorem step_eq (s : State) : step s = (fetch s).result := by
  unfold step Fetched.result
  cases fetch s <;> rfl

/-- The phase lists of R31 are those of the commands 0x1 to 0xA. -/
theorem phaseList_op {op : BitVec 4} {k : Nat} {p : Phase × Stage} (h : (phaseList op)[k]? = some p) :
    1 ≤ op.toNat ∧ op.toNat ≤ 10 := by
  have : ∀ o : BitVec 4, (1 ≤ o.toNat ∧ o.toNat ≤ 10) ∨ phaseList o = [] := by decide
  rcases this op with h' | h'
  · exact h'
  · rw [h'] at h; simp at h

/-- A command that has phases runs as the sequencer's step of its OP. -/
theorem exec_commandOfOp {op : BitVec 4} (h : 1 ≤ op.toNat ∧ op.toNat ≤ 10) (s : State) :
    exec (commandOfOp op) s = commandStep op s := by
  have : ∀ o : BitVec 4, (1 ≤ o.toNat ∧ o.toNat ≤ 10) →
      o = 0x1 ∨ o = 0x2 ∨ o = 0x3 ∨ o = 0x4 ∨ o = 0x5 ∨ o = 0x6 ∨ o = 0x7 ∨ o = 0x8 ∨ o = 0x9 ∨ o = 0xA := by decide
  rcases this op h with rfl | rfl | rfl | rfl | rfl | rfl | rfl | rfl | rfl | rfl <;> rfl

theorem current_some {s : State} {p : Phase × Stage} (h : s.current = some p) :
    s.busy = true ∧ (phaseList s.seqOp)[s.seqIdx.toNat]? = some p := by
  unfold State.current at h
  split at h
  · next hb => exact ⟨hb, h⟩
  · simp at h

theorem phase_some {s : State} {p : Phase} (h : s.phase = some p) : ∃ st, s.current = some (p, st) := by
  unfold State.phase at h
  cases hc : s.current with
  | none => simp [hc] at h
  | some q => simp [hc] at h; exact ⟨q.2, by rw [← h]⟩

theorem awaitsByte_iff (s : State) : s.awaitsByte = true ↔ s.rxReq = true ∧ s.phase = some .sync := by
  unfold State.awaitsByte State.phase
  cases s.current <;> simp

/-- A byte read at a place runs the unit it completes, or opens a two-byte unit: what SYNC does with it. -/
theorem unit_phase {u : State} {p : Place} (b : Byte) (ha : u.awaitsByte = true) (hp : u.place = some p) :
    (match decode p (u.unitBytes b) with
      | .ok (i, _) => exec i u
      | .error _ => (bodyEscape u).outcome) = (syncByte b u).outcome := by
  unfold State.place at hp
  cases hd : u.dfrState <;> simp only [hd] at hp
  case idle => simp at hp
  case done => simp at hp
  case hunt =>
    cases hp
    by_cases hb : b = startByte <;>
      simp [State.unitBytes, hd, decode, syncByte, hb, exec, execWireStart, execWireNoise, wireUnit, ha]
  case len =>
    cases hp
    simp [State.unitBytes, hd, decode, syncByte, exec, execWireLength, wireUnit, ha]
  case id =>
    split at hp
    · next hu =>
      cases hp
      have hu : u.dfrUnits = 0#8 := BitVec.eq_of_toNat_eq hu
      simp [State.unitBytes, hd, decode, syncByte, exec, execWireId0, wireUnit, ha, hu, join26]
    · next hu =>
      cases hp
      have hu : u.dfrUnits = 1#8 := BitVec.eq_of_toNat_eq hu
      simp [State.unitBytes, hd, decode, syncByte, exec, execWireId1, wireUnit, ha, hu, join62]
    · next hu =>
      cases hp
      have hu : u.dfrUnits = 2#8 := BitVec.eq_of_toNat_eq hu
      simp [State.unitBytes, hd, decode, syncByte, exec, execWireId2, wireUnit, ha, hu]
    · next hu =>
      cases hp
      have hu : u.dfrUnits = 3#8 := BitVec.eq_of_toNat_eq hu
      simp [State.unitBytes, hd, decode, syncByte, exec, execWireId3, wireUnit, ha, hu]
    · simp at hp
  case body =>
    cases hp
    by_cases hb : b = escByte <;>
      simp [State.unitBytes, hd, decode, syncByte, hb, exec, execWireLiteral, wireUnit, ha]
  case esc =>
    cases hp
    by_cases hb : b = escByte
    · simp [State.unitBytes, hd, decode, decodeEscape, syncByte, hb, exec, execWireEscStart, wireUnit, ha]
    · by_cases hb2 : b = altByte
      · subst hb2
        simp [State.unitBytes, hd, decode, decodeEscape, syncByte, hb, exec, execWireEscEsc, wireUnit, ha]
      · simp [State.unitBytes, hd, decode, decodeEscape, syncByte, hb, hb2, exec, execWireEscInvalid, wireUnit, ha]

/-- The block's turn, while it runs a phase, is that phase's next step. -/
theorem block_phase {s : State} {p : Phase} {st : Stage} (hr : s.rst = false) (hc : s.current = some (p, st)) :
    (blockTurn s).result = (runPhase p s).outcome := by
  obtain ⟨hb, hp⟩ := current_some hc
  have hrun : exec s.running s = (runPhase p s).outcome := by
    rw [State.running, exec_commandOfOp (phaseList_op hp)]
    simp [commandStep, hb, hc]
  unfold blockTurn
  rw [if_neg (show ¬(s.rst || !s.busy) = true by simp [hr, hb])]
  split
  · next q b rest ha hpl hch =>
    have hs := (awaitsByte_iff s).mp ha
    obtain rfl : p = .sync := by simpa [State.phase, hc] using hs.2
    have hu := unit_phase (u := { s with chanIn := rest }) b ha hpl
    have hph : runPhase .sync s = syncByte b { s with chanIn := rest } := by
      simp [runPhase, syncPhase, hs.1, hch, hpl]
    rw [hph, ← hu]
    show Fetched.result (match decode q (s.unitBytes b) with
      | .ok (i, _) => Fetched.run i { s with chanIn := rest }
      | .error _ => .other (bodyEscape { s with chanIn := rest }).outcome) = _
    show _ = match decode q (s.unitBytes b) with
      | .ok (i, _) => exec i { s with chanIn := rest }
      | .error _ => (bodyEscape { s with chanIn := rest }).outcome
    cases decode q (s.unitBytes b) with
    | ok x => rfl
    | error e => rfl
  · exact hrun

/-! ### The kinds of a step -/

@[simp] theorem issue_eq (op : BitVec 4) (s : State) :
    s.issue op = if (phaseList op).isEmpty then (s.accept (0x0#4 ++ op)).finished else s.accept (0x0#4 ++ op) := rfl

/-- Everything a step that answers a next state can be. -/
inductive Stepped (s : State) : State → Prop where
  /-- The reset line is asserted or released. -/
  | reset (level : Bool) (ht : s.nextTurn = .rst level) (he : level = true ∨ s.rst = true) :
      Stepped s (s.popTurn.resetAll level)
  /-- A host access without effect on the block, the block's hold, or a reset line that stays low. -/
  | quiet (host : List HostOp) (reads : List Byte)
      (ht : s.nextTurn = .host ∨ s.nextTurn = .block ∨ (s.nextTurn = .rst false ∧ s.rst = false)) :
      Stepped s { s.popTurn with host := host, reads := reads }
  /-- A host write to a busy block. -/
  | lost (host : List HostOp) (ht : s.nextTurn = .host) (hr : s.rst = false) (hb : s.busy = true) :
      Stepped s { s.popTurn with host := host, hostOvr := true }
  /-- A host write to an idle block. -/
  | store (a v : Byte) (host : List HostOp) (ht : s.nextTurn = .host) (hr : s.rst = false) (hb : s.busy = false) :
      Stepped s (({ s.popTurn with host := host } : State).poke a v)
  /-- The accept of a command. -/
  | accept (op : BitVec 4) (host : List HostOp) (ht : s.nextTurn = .host) (hr : s.rst = false)
      (hb : s.busy = false) (hh : s.host = .write 0x00#8 (0x0#4 ++ op) :: host) :
      Stepped s (({ s.popTurn with host := host } : State).issue op)
  /-- The accept of an illegal byte. -/
  | illegal (v : Byte) (host : List HostOp) (ht : s.nextTurn = .host) (hr : s.rst = false)
      (hb : s.busy = false) (hh : s.host = .write 0x00#8 v :: host) :
      Stepped s ((({ s.popTurn with host := host } : State).accept v).failed .outside .illegalCmd v)
  /-- ABORT of a running command. -/
  | abort (host : List HostOp) (ht : s.nextTurn = .host) (hr : s.rst = false) (hb : s.busy = true) :
      Stepped s (({ s.popTurn with host := host } : State).withdraw.failed s.stage .aborted 0x00#8)
  /-- The running phase's next step. -/
  | phase (p : Phase) (st : Stage) (t : State) (ht : s.nextTurn = .block) (hr : s.rst = false)
      (hc : s.current = some (p, st)) (h : (runPhase p s.popTurn).outcome = .next t) : Stepped s t
  /-- A busy block with no phase to run, which no run reaches. -/
  | none (u : State) (st : Stage) (c : ErrorCode) (ht : s.nextTurn = .block) (hr : s.rst = false)
      (hb : s.busy = true) (hc : s.current = Option.none)
      (hu : u = s.popTurn ∨ u = s.popTurn.withdraw) :
      Stepped s (u.failed st c 0x00#8)
  /-- The same with an illegal OP in SEQ. -/
  | noneLost (ht : s.nextTurn = .block) (hr : s.rst = false) (hb : s.busy = true)
      (hc : s.current = Option.none) : Stepped s s.popTurn.turnAway

/-- On an idle block every command byte is accepted, and completes at once if it is illegal. -/
theorem decodeCommand_cases (v : Byte) :
    (∃ op, v = 0x0#4 ++ op ∧ ∀ s : State, s.busy = false → exec (decodeCommand v) s = .next (s.issue op)) ∨
      ∀ s : State, s.busy = false → exec (decodeCommand v) s = .next ((s.accept v).failed .outside .illegalCmd v) := by
  have key : ∀ w : Byte, (∃ op : BitVec 4, w = 0x0#4 ++ op ∧ decodeCommand w = commandOfOp op) ∨
      ∃ a b : BitVec 4, w = a ++ b ∧ decodeCommand w = .illegalRsv a b := by
    intro w
    by_cases h : w.extractLsb' 4 4 = 0x0#4
    · exact .inl ⟨w.extractLsb' 0 4, by rw [← h, join44], by simp [decodeCommand, h]⟩
    · exact .inr ⟨_, _, (join44 w).symm, by simp [decodeCommand, h]⟩
  rcases key v with ⟨op, hv, hd⟩ | ⟨a, b, hv, hd⟩
  · by_cases hop : 1 ≤ op.toNat ∧ op.toNat ≤ 10
    · refine .inl ⟨op, hv, fun s hb => ?_⟩
      rw [hd, exec_commandOfOp hop]
      simp [commandStep, hb]
    · have h6 : ∀ o : BitVec 4, ¬(1 ≤ o.toNat ∧ o.toNat ≤ 10) →
          o = 0x0 ∨ o = 0xF ∨ o = 0xB ∨ o = 0xC ∨ o = 0xD ∨ o = 0xE := by decide
      rcases h6 op hop with rfl | rfl | rfl | rfl | rfl | rfl
      · refine .inl ⟨0x0, hv, fun s hb => ?_⟩
        rw [hd]; simp [commandOfOp, exec, execNop, commandStep, hb]
      · refine .inl ⟨0xF, hv, fun s hb => ?_⟩
        rw [hd]; simp [commandOfOp, exec, execAbort, hb]
      all_goals
        refine .inr fun s hb => ?_
        rw [hd, hv]
        simp [commandOfOp, exec, execIllegal0B, execIllegal0C, execIllegal0D, execIllegal0E, illegalByte, hb,
          complete_failed]
  · refine .inr fun s hb => ?_
    rw [hd, hv]
    simp [exec, execIllegalRsv, illegalByte, hb, complete_failed]

/-- A step that answers a next state is one of these. -/
theorem step_next {s t : State} (h : step s = .next t) : Stepped s t := by
  rw [step_eq] at h
  unfold fetch at h
  cases ht : s.nextTurn with
  | rst level =>
    simp only [ht, Fetched.result, Host.Outcome.next.injEq] at h
    by_cases he : level = true ∨ s.rst = true
    · rw [State.setRst_resets (s := s.popTurn) he] at h
      exact h ▸ .reset level ht he
    · obtain ⟨hl, hr⟩ := not_or.mp he
      obtain rfl : level = false := by simpa using hl
      have hr : s.rst = false := by simpa using hr
      rw [State.setRst_low (s := s.popTurn) hr] at h
      exact h ▸ .quiet s.host s.reads (.inr (.inr ⟨ht, hr⟩))
  | host =>
    simp only [ht] at h
    unfold hostTurn at h
    have hh : s.popTurn.host = s.host := rfl
    have hrr : s.popTurn.rst = s.rst := rfl
    split at h
    · simp only [Fetched.result, Host.Outcome.next.injEq] at h
      exact h ▸ .quiet s.host s.reads (.inl ht)
    · next a v rest hw =>
      split at h
      · simp only [Fetched.result, Host.Outcome.next.injEq] at h
        exact h ▸ .quiet rest s.reads (.inl ht)
      · next hr =>
        have hr : s.rst = false := by simpa [hrr] using hr
        unfold hostWrite at h
        by_cases hb : s.busy = true
        · split at h
          · next hc =>
            have hv : v = 0x0F#8 := by
              rcases hc.2 with hc | hc
              · exact absurd hc (by simp [hb])
              · exact hc
            subst hv
            simp only [Fetched.result, show decodeCommand 0x0F#8 = .abort by decide, exec, execAbort] at h
            rw [if_pos (show s.popTurn.busy = true from hb)] at h
            simp only [Host.Outcome.next.injEq] at h
            exact h ▸ .abort rest ht hr hb
          · simp only [Fetched.result, State.busWrite] at h
            rw [if_pos (show s.popTurn.busy = true from hb)] at h
            simp only [Host.Outcome.next.injEq] at h
            exact h ▸ .lost rest ht hr hb
        · have hb : s.busy = false := by simpa using hb
          split at h
          · next hc =>
            obtain ⟨rfl, -⟩ := hc
            simp only [Fetched.result] at h
            rcases decodeCommand_cases v with ⟨op, rfl, he⟩ | he
            · rw [he { s.popTurn with host := rest } hb, Host.Outcome.next.injEq] at h
              exact h ▸ .accept op rest ht hr hb hw
            · rw [he { s.popTurn with host := rest } hb, Host.Outcome.next.injEq] at h
              exact h ▸ .illegal v rest ht hr hb hw
          · simp only [Fetched.result, State.busWrite] at h
            rw [if_neg (by simp [hb])] at h
            simp only [Host.Outcome.next.injEq] at h
            exact h ▸ .store a v rest ht hr hb
    · next a rest hw =>
      simp only [Fetched.result, Host.Outcome.next.injEq] at h
      exact h ▸ .quiet rest _ (.inl ht)
    · next rest hw =>
      simp only [Fetched.result, Host.Outcome.next.injEq] at h
      exact h ▸ .quiet _ _ (.inl ht)
  | block =>
    simp only [ht] at h
    by_cases hg : (s.rst || !s.busy) = true
    · unfold blockTurn at h
      rw [if_pos (show (s.popTurn.rst || !s.popTurn.busy) = true from hg)] at h
      simp only [Fetched.result, Host.Outcome.next.injEq] at h
      exact h ▸ .quiet s.host s.reads (.inr (.inl ht))
    · simp only [Bool.or_eq_true, not_or, Bool.not_eq_true, Bool.not_eq_false'] at hg
      obtain ⟨hr, hb⟩ := hg
      cases hc : s.current with
      | some p =>
        rw [block_phase (s := s.popTurn) hr (show s.popTurn.current = some (p.1, p.2) from hc)] at h
        exact .phase p.1 p.2 t ht hr hc h
      | none =>
        have hcp : s.popTurn.current = none := hc
        have hap : s.popTurn.awaitsByte = false := by simp [State.awaitsByte, hcp]
        unfold blockTurn at h
        rw [if_neg (show ¬(s.popTurn.rst || !s.popTurn.busy) = true by
          simp [hr, hb])] at h
        simp only [hap] at h
        simp only [Fetched.result] at h
        have hbp : s.popTurn.busy = true := hb
        have h16 : ∀ o : BitVec 4, (1 ≤ o.toNat ∧ o.toNat ≤ 10) ∨
          o = 0x0 ∨ o = 0xF ∨ o = 0xB ∨ o = 0xC ∨ o = 0xD ∨ o = 0xE := by decide
        rw [State.running] at h
        rcases h16 s.popTurn.seqOp with ho | ho | ho | ho | ho | ho | ho
        · rw [exec_commandOfOp ho] at h
          simp only [commandStep, hbp, hcp, if_true, Host.Outcome.next.injEq] at h
          exact h ▸ .none _ .outside .ok ht hr hb hc (.inl rfl)
        · rw [ho] at h
          simp only [commandOfOp, exec, execNop, commandStep, hbp, hcp, ho, if_true] at h
          exact (Host.Outcome.next.inj h) ▸ .none _ .outside .ok ht hr hb hc (.inl rfl)
        · rw [ho] at h
          simp only [commandOfOp, exec, execAbort, hbp, if_true] at h
          exact (Host.Outcome.next.inj h) ▸ .none _ _ .aborted ht hr hb hc (.inr rfl)
        all_goals
          rw [ho] at h
          simp only [commandOfOp, exec, execIllegal0B, execIllegal0C, execIllegal0D, execIllegal0E, illegalByte, hbp,
            if_true] at h
          exact (Host.Outcome.next.inj h) ▸ .noneLost ht hr hb hc

end Sys2Proof.Machine
end

