-- ==== Sys2Proof/Laws/Phases.lean ====
section
/-! SUPPORT. What the phases and their ends leave alone, which states make every phase end in a next state, and the
places of a step where the turn is given. -/

namespace Sys2Proof.Machine

open Sys2Proof

/-- A store into RXBUF while there is room goes on with the byte stored and counted. -/
theorem storeRx_room {s : State} (b : Byte) (k : State → PhaseEnd) (h : s.rxPlen.toNat < 22) :
    storeRx b s k = k { s with mem := Memory.write s.mem (rxbufBase + s.rxPlen.toNat) b, rxPlen := s.rxPlen + 1#8 } :=
  if_pos h

/-- The block's turn, where `turns` gives it. -/
theorem step_block {s : State} {turns : List Turn} (ht : s.turns = .block :: turns) :
    step s = (blockTurn { s with turns := turns }).result := by
  rw [step_eq]
  simp [fetch, State.nextTurn, ht, State.popTurn]

/-- The host's turn, where `turns` gives it. -/
theorem step_host {s : State} {turns : List Turn} (ht : s.turns = .host :: turns) :
    step s = (hostTurn { s with turns := turns }).result := by
  rw [step_eq]
  simp [fetch, State.nextTurn, ht, State.popTurn]

/-- With `turns` empty, an idle block leaves the turn to the host. -/
theorem step_idle {s : State} (ht : s.turns = []) (hb : s.busy = false) : step s = (hostTurn s).result := by
  have hp : s.popTurn = s := by simp only [State.popTurn, ht, List.tail_nil]; rw [← ht]
  rw [step_eq]
  simp [fetch, State.nextTurn, ht, State.blockReady, State.current, hb, hp]

/-- With `turns` empty, a block whose phase can go on takes the phase's next step. -/
theorem step_phase {s : State} {p : Phase} {st : Stage} (ht : s.turns = []) (hr : s.rst = false)
    (hc : s.current = some (p, st)) (h1 : p = .sync → s.rxReq = false ∨ s.chanIn ≠ [])
    (h2 : p = .write → s.txReq = false ∨ s.chanOut ≠ []) : step s = (runPhase p s).outcome := by
  have hp : s.popTurn = s := by simp only [State.popTurn, ht, List.tail_nil]; rw [← ht]
  have hready : s.blockReady = true := by
    unfold State.blockReady
    rw [hr, hc]
    cases p
    case sync => rcases h1 rfl with h | h <;> simp [h]
    case write => rcases h2 rfl with h | h <;> simp [h]
    all_goals simp [(current_some hc).1]
  rw [step_eq]
  simp only [fetch, State.nextTurn, ht, hready, if_true, hp]
  exact block_phase hr hc

/-- The state a phase end carries, unless it left a buffer. -/
def PhaseEnd.state? : PhaseEnd → Option State
  | .ended s => some s
  | .waiting s => some s
  | .raised _ _ s => some s
  | .overrun _ => none

/-- What one step of a phase leaves alone: the operands, and, but in the phases named, RX, RPL and the channel. -/
theorem phase_state {s u : State} {p} (h : (runPhase p s).state? = some u) :
   u.req = s.req ∧ (u.rx ≠ s.rx → p = .decode) ∧ (u.rpl ≠ s.rpl → p = .copyRpl) ∧ u.lastCmd = s.lastCmd ∧
   (u.chanIn = s.chanIn ∨ (p = .sync ∧ s.rxReq = true ∧ u.chanIn = s.chanIn.tail)) ∧
   (u.chanOut = s.chanOut ∨ (p = .write ∧ s.txReq = true ∧ u.chanOut = s.chanOut.tail)) ∧
   (u.sent = s.sent ∨ ∃ a, p = .write ∧ s.chanOut = a :: u.chanOut ∧ u.sent = s.sent ++ [⟨s.txFrame, a⟩]) ∧
   u.busy = s.busy ∧ u.seqOp = s.seqOp ∧ u.seqIdx = s.seqIdx := by
  cases p
  case encode =>
    simp only [runPhase, encodePhase] at h
    split at h <;> (simp only [PhaseEnd.state?, Option.some.injEq] at h; subst h; simp)
  case write =>
    simp only [runPhase, writePhase] at h
    split at h
    · simp [PhaseEnd.state?] at h
    · split at h
      · next hq =>
        split at h <;> (simp only [PhaseEnd.state?, Option.some.injEq] at h; subst h)
        · simp
        · next rest hr => simp [hq, hr, State.txFrame]
        · next n rest hr => simp [hq, hr, State.txFrame]
      · simp only [PhaseEnd.state?, Option.some.injEq] at h; subst h; simp
  case decode =>
    simp only [runPhase, decodePhase] at h
    split at h <;> (simp only [PhaseEnd.state?, Option.some.injEq] at h; subst h; simp)
  case copyRpl =>
    simp only [runPhase, copyRplPhase] at h
    (simp only [PhaseEnd.state?, Option.some.injEq] at h; subst h; simp)
  case sync =>
    simp only [runPhase, syncPhase, syncRaise, syncStart, syncMore] at h
    split at h
    · next hq =>
      split at h
      · simp only [PhaseEnd.state?, Option.some.injEq] at h; subst h; simp
      · next rest hr => simp only [PhaseEnd.state?, Option.some.injEq] at h; subst h; simp [hq, hr]
      · next rest hr => simp only [PhaseEnd.state?, Option.some.injEq] at h; subst h; simp [hq, hr]
      · next b rest hr =>
        split at h
        · simp only [PhaseEnd.state?, Option.some.injEq] at h; subst h; simp
        · unfold syncByte at h
          simp only [huntStart, huntNoise, lengthByte, idByte, storeRx, bodyEscape, bodyLiteral, escSecond, unitRead, syncMore, syncRaise, syncEnd] at h
          repeat' split at h
          all_goals first
            | (simp [PhaseEnd.state?] at h; done)
            | (simp only [PhaseEnd.state?, Option.some.injEq] at h; subst h; simp [hq, hr])
    · simp only [PhaseEnd.state?, Option.some.injEq] at h; subst h; simp
  all_goals
    simp only [runPhase, checkAckPhase, checkDrepPhase, checkSrepPhase, checkMask] at h
    split at h <;> (simp only [PhaseEnd.state?, Option.some.injEq] at h; subst h; simp)

/-- A phase end that answers does so with its state, moved on or completed. -/
theorem outcome_shape {e : PhaseEnd} {t : State} (ht : e.outcome = .next t) :
    ∃ u, e.state? = some u ∧ (t = u ∨ (∃ i, t = { u with seqIdx := i }) ∨ ∃ st c n, t = u.complete st c n) := by
  cases e with
  | ended s =>
    simp only [PhaseEnd.outcome, Host.Outcome.next.injEq] at ht; subst ht
    refine ⟨s, rfl, ?_⟩
    unfold State.advance; split
    · exact .inr (.inl ⟨_, rfl⟩)
    · exact .inr (.inr ⟨_, _, _, rfl⟩)
  | waiting s => 
    simp only [PhaseEnd.outcome, Host.Outcome.next.injEq] at ht; subst ht
    exact ⟨s, rfl, .inl rfl⟩
  | raised c n s =>
    simp only [PhaseEnd.outcome, Host.Outcome.next.injEq] at ht; subst ht
    exact ⟨s, rfl, .inr (.inr ⟨_, _, _, rfl⟩)⟩
  | overrun f => simp [PhaseEnd.outcome] at ht

/-- The same of the next state. -/
theorem phase_frame {s t : State} {p} (h : (runPhase p s).outcome = .next t) :
   t.req = s.req ∧ (t.rx ≠ s.rx → p = .decode) ∧ (t.rpl ≠ s.rpl → p = .copyRpl) ∧ t.lastCmd = s.lastCmd ∧
   (t.chanIn = s.chanIn ∨ (p = .sync ∧ s.rxReq = true ∧ t.chanIn = s.chanIn.tail)) ∧
   (t.chanOut = s.chanOut ∨ (p = .write ∧ s.txReq = true ∧ t.chanOut = s.chanOut.tail)) ∧
   (t.sent = s.sent ∨ ∃ a, p = .write ∧ s.chanOut = a :: t.chanOut ∧ t.sent = s.sent ++ [⟨s.txFrame, a⟩]) := by
  obtain ⟨u, hu, ht⟩ := outcome_shape h
  obtain ⟨a, b, c, d, e, f, g, -⟩ := phase_state hu
  rcases ht with rfl | ⟨i, rfl⟩ | ⟨st, cc, n, rfl⟩ <;> exact ⟨a, b, c, d, e, f, g⟩

/-- TXBUF and TX_PLEN move only in ENCODE, RXBUF only in SYNC. -/
theorem phase_buffers_state {s u : State} {p} (hwf : Memory.wf s.mem) (h : (runPhase p s).state? = some u) :
   (u.txPlen ≠ s.txPlen → p = .encode) ∧ (∀ k, k < 22 → u.txbuf k ≠ s.txbuf k → p = .encode) ∧
   ∀ k, k < 22 → u.rxbuf k ≠ s.rxbuf k → p = .sync := by
  cases p
  case encode =>
    simp only [runPhase, encodePhase] at h
    split at h <;> (simp only [PhaseEnd.state?, Option.some.injEq] at h; subst h)
    · simp [State.rxbuf]
    · next hs =>
      refine ⟨fun _ => rfl, fun _ _ _ => rfl, fun k hk hne => absurd ?_ hne⟩
      simp only [State.rxbuf]
      rw [read_written hwf (encodeFrame_length_le (by omega)), if_neg (by simp only [rxbufBase, txbufBase]; omega)]
  case sync =>
    have tx : ∀ (m : Memory) (b : Byte) (k e : Nat), Memory.wf m → k < 22 → Memory.read (Memory.write m (rxbufBase + e) b) (txbufBase + k) = Memory.read m (txbufBase + k) := by
      intro m b k e hm hk; rw [Memory.read_write _ _ _ hm, if_neg (by simp only [rxbufBase, txbufBase]; omega)]
    simp only [runPhase, syncPhase, syncRaise, syncStart, syncMore] at h
    split at h
    · next hq =>
      split at h
      · simp only [PhaseEnd.state?, Option.some.injEq] at h; subst h; simp
      · next rest hr => simp only [PhaseEnd.state?, Option.some.injEq] at h; subst h; simp [State.txbuf]
      · next rest hr => simp only [PhaseEnd.state?, Option.some.injEq] at h; subst h; simp [State.txbuf]
      · next b rest hr =>
        split at h
        · simp only [PhaseEnd.state?, Option.some.injEq] at h; subst h; simp
        · unfold syncByte at h
          simp only [huntStart, huntNoise, lengthByte, idByte, storeRx, bodyEscape, bodyLiteral, escSecond, unitRead, syncMore, syncRaise, syncEnd] at h
          repeat' split at h
          all_goals first
            | (simp [PhaseEnd.state?] at h; done)
            | (simp only [PhaseEnd.state?, Option.some.injEq] at h; subst h
               refine ⟨by simp, fun k hk => ?_, fun _ _ _ => rfl⟩
               simp only [State.txbuf, tx _ _ _ _ hwf hk]
               try rw [show rxbufBase = rxbufBase + 0 from rfl, tx _ _ _ _ hwf hk]
               simp)
    · simp only [PhaseEnd.state?, Option.some.injEq] at h; subst h
      refine ⟨by simp, fun k hk => ?_, fun _ _ _ => rfl⟩
      simp only [State.txbuf]
      rw [read_written hwf (by simp), if_neg (by simp only [rxbufBase, txbufBase]; omega)]
      simp
  case write =>
    simp only [runPhase, writePhase] at h
    split at h
    · simp [PhaseEnd.state?] at h
    · split at h
      · next hq =>
        split at h <;> (simp only [PhaseEnd.state?, Option.some.injEq] at h; subst h; simp [State.txbuf, State.rxbuf])
      · simp only [PhaseEnd.state?, Option.some.injEq] at h; subst h; simp [State.txbuf, State.rxbuf]
  case decode =>
    simp only [runPhase, decodePhase] at h
    split at h <;> (simp only [PhaseEnd.state?, Option.some.injEq] at h; subst h; simp [State.txbuf, State.rxbuf])
  case copyRpl =>
    simp only [runPhase, copyRplPhase] at h
    (simp only [PhaseEnd.state?, Option.some.injEq] at h; subst h; simp [State.txbuf, State.rxbuf])
  all_goals
    simp only [runPhase, checkAckPhase, checkDrepPhase, checkSrepPhase, checkMask] at h
    split at h <;> (simp only [PhaseEnd.state?, Option.some.injEq] at h; subst h; simp)

/-- The same of the next state. -/
theorem phase_buffers {s t : State} {p} (hwf : Memory.wf s.mem) (h : (runPhase p s).outcome = .next t) :
   (t.txPlen ≠ s.txPlen → p = .encode) ∧ (∀ k, k < 22 → t.txbuf k ≠ s.txbuf k → p = .encode) ∧
   ∀ k, k < 22 → t.rxbuf k ≠ s.rxbuf k → p = .sync := by
  obtain ⟨u, hu, ht⟩ := outcome_shape h
  have := phase_buffers_state hwf hu
  rcases ht with rfl | ⟨i, rfl⟩ | ⟨st, cc, n, rfl⟩ <;> exact this

/-- A host store touches no result register and no channel. -/
theorem poke_frame (s : State) (a v : Byte) : (s.poke a v).lastCmd = s.lastCmd ∧ (s.poke a v).errCode = s.errCode ∧ (s.poke a v).errStage = s.errStage ∧ (s.poke a v).errInfo = s.errInfo ∧ (s.poke a v).chanIn = s.chanIn ∧ (s.poke a v).chanOut = s.chanOut ∧ (s.poke a v).sent = s.sent := by
  unfold State.poke; split <;> simp

/-- An accept names its byte in LASTCMD and touches no channel. -/
theorem issue_frame (s : State) (op) : (s.issue op).lastCmd = 0x0#4 ++ op ∧ (s.issue op).chanIn = s.chanIn ∧ (s.issue op).chanOut = s.chanOut ∧ (s.issue op).sent = s.sent := by
  rw [issue_eq]; split <;> simp [State.finished]

theorem outcome_ok {e : PhaseEnd} (h : ∀ f, e ≠ .overrun f) : ∃ t, e.outcome = .next t := by
  cases e with
  | ended s => exact ⟨_, rfl⟩
  | waiting s => exact ⟨_, rfl⟩
  | raised c n s => exact ⟨_, rfl⟩
  | overrun f => exact absurd rfl (h f)

theorem unitRead_ok (s : State) : ∀ f, unitRead s ≠ .overrun f := by
  intro f; unfold unitRead; dsimp only; split <;> simp [syncMore, syncEnd]

/-- Under the invariant no phase leaves a buffer. -/
theorem phase_ok {s : State} {p st} (h : s.Inv) (hc : s.current = some (p, st)) : ∀ f, runPhase p s ≠ .overrun f := by
  intro f
  have hdf := h.deframer
  cases p
  case encode => simp only [runPhase, encodePhase]; split <;> simp
  case write =>
    simp only [runPhase, writePhase]
    rw [if_neg (by have := h.tx_plen.1; simp only [bufSize]; omega)]
    repeat' split
    all_goals simp
  case decode => simp only [runPhase, decodePhase]; split <;> simp
  case checkAck => simp only [runPhase, checkAckPhase, checkMask]; split <;> simp
  case checkDrep => simp only [runPhase, checkDrepPhase, checkMask]; split <;> simp
  case checkSrep => simp only [runPhase, checkSrepPhase, checkMask]; split <;> simp
  case copyRpl => simp [runPhase, copyRplPhase]
  case sync =>
    simp only [runPhase, syncPhase]
    unfold State.DeframerOk at hdf
    split
    · split
      · simp
      · simp [syncRaise]
      · simp [syncRaise]
      · next b rest hci =>
        split
        · simp
        · unfold syncByte
          cases hd : s.dfrState <;> simp only [hd] at hdf ⊢
          case idle => simp
          case done => simp
          case hunt => split <;> simp [huntStart, huntNoise, syncMore]
          case len => simp only [lengthByte]; split <;> simp [syncRaise, syncMore]
          case id =>
            simp only [idByte]; rw [storeRx_room _ _ (by show s.rxPlen.toNat < 22; omega)]; dsimp only
            split
            · simp [syncMore]
            · split <;> simp [syncMore, syncEnd]
          case body =>
            split
            · simp only [bodyEscape]; rw [storeRx_room _ _ (by show s.rxPlen.toNat < 22; omega)]; simp [syncMore]
            · simp only [bodyLiteral]; rw [storeRx_room _ _ (by show s.rxPlen.toNat < 22; omega)]; exact unitRead_ok _ f
          case esc =>
            simp only [escSecond]; rw [storeRx_room _ _ (by show s.rxPlen.toNat < 22; omega)]; exact unitRead_ok _ f
    · simp [syncStart, syncMore]

end Sys2Proof.Machine
end

