-- ==== Sys2Proof/Laws/Invariant.lean ====
section
/-! SUPPORT. Each operation keeps the invariant: the ends of phases, the accept, the host's stores, the reset line and
the steps of the eight phases. -/

namespace Sys2Proof.Machine

open Sys2Proof

/-- The part of the invariant that does not speak of the sequencer. -/
structure State.Base (u : State) : Prop where
  mem_wf : Memory.wf u.mem
  mem_in : ∀ c ∈ u.mem, (0x40 ≤ c.1 ∧ c.1 < 0x56) ∨ (0x60 ≤ c.1 ∧ c.1 < 0x76)
  rst : u.rst = false
  tx_plen : u.txPlen.toNat ≤ 22 ∧ (u.txPlen = 0#8 ∨ 6 ≤ u.txPlen.toNat) ∧ (u.txValid = true → 6 ≤ u.txPlen.toNat)
  deframer : u.DeframerOk

theorem phase_eq_of {s : State} {p : Phase} {st : Stage} (h : s.current = some (p, st)) : s.phase = some p := by
  simp [State.phase, h]

/-- A command's end keeps the invariant. -/
theorem inv_failed {u : State} {st c n} (h : u.Base) (hr : u.rxReq = false) (htq : u.txReq = false)
    (hc : c = .ok → st = .outside ∧ n = 0#8) : (u.failed st c n).Inv := by
  have hph : (u.failed st c n).phase = none := by simp [State.phase, State.current, State.failed]
  refine ⟨h.mem_wf, h.mem_in, fun _ => ⟨rfl, rfl, hr, htq⟩, fun hb => by simp [State.failed] at hb, hc, ?_, ?_, h.tx_plen, ?_, h.deframer, ?_⟩
  · intro hx; have : u.rxReq = true := hx; simp [hr] at this
  · intro hx; have : u.txReq = true := hx; simp [htq] at this
  · rw [hph]; simp
  · intro hx; have : u.rst = true := hx; simp [h.rst] at this

/-- The block runs a phase, and its result registers are clear. -/
structure State.Run (u : State) (p : Phase) (st : Stage) : Prop where
  busy : u.busy = true
  hp : (phaseList u.seqOp)[u.seqIdx.toNat]? = some (p, st)
  done : u.done = false
  code : u.errCode = .ok
  last : u.lastCmd = 0x0#4 ++ u.seqOp
  clean : u.errStage = .outside ∧ u.errInfo = 0#8

theorem State.Run.cur {u : State} {p st} (h : u.Run p st) : u.current = some (p, st) := by
  simp [State.current, h.busy, h.hp]

/-- A running phase has the invariant where its request lines and its frame are right. -/
theorem inv_wait {u : State} {p st} (h : u.Base) (hrun : u.Run p st)
    (hrx : u.rxReq = true → p = .sync ∧ u.place.isSome = true ∧ (u.dfrState = .len → u.rxPlen = 1#8))
    (htx : u.txReq = true → p = .write)
    (hw : p = .write → u.req.dataSize.toNat ≤ 8 ∧ u.txValid = true ∧ u.txPlen.toNat = (encodeFrame u.req).length ∧
      u.txFrame = encodeFrame u.req) : u.Inv := by
  have hph : u.phase = some p := phase_eq_of hrun.cur
  have hlt := (List.getElem?_eq_some_iff.mp hrun.hp).1
  refine ⟨h.mem_wf, h.mem_in, fun hb => by simp [hrun.busy] at hb, fun _ => ⟨hrun.done, hrun.code, hrun.last, hlt, h.rst⟩,
    fun _ => hrun.clean, ?_, ?_, h.tx_plen, ?_, h.deframer, ?_⟩
  · intro hx; obtain ⟨rfl, h2, h3⟩ := hrx hx; exact ⟨hph, h2, h3⟩
  · intro hx; rw [htx hx] at hph; exact hph
  · intro hx; rw [hph] at hx; exact hw (by simpa using hx)
  · intro hx; simp [h.rst] at hx

/-- A phase's end without an error keeps the invariant. -/
theorem inv_advance {u : State} {p st} (h : u.Base) (hrun : u.Run p st)
    (hr : u.rxReq = false) (htq : u.txReq = false)
    (hw : p = .encode → u.req.dataSize.toNat ≤ 8 ∧ u.txValid = true ∧ u.txPlen.toNat = (encodeFrame u.req).length ∧
      u.txFrame = encodeFrame u.req) : u.advance.Inv := by
  unfold State.advance
  split
  · next hlt =>
    have hidx : (u.seqIdx + 1#4).toNat = u.seqIdx.toNat + 1 := by
      have : ∀ o : BitVec 4, (phaseList o).length ≤ 9 := by decide
      have := this u.seqOp
      simp [BitVec.toNat_add]; omega
    obtain ⟨q, hq⟩ : ∃ q, (phaseList u.seqOp)[u.seqIdx.toNat + 1]? = some q := ⟨_, List.getElem?_eq_getElem hlt⟩
    have hnext : ∀ (o i : BitVec 4), (phaseList o)[i.toNat + 1]?.map Prod.fst = some .write → (phaseList o)[i.toNat]?.map Prod.fst = some .encode := by decide
    refine inv_wait (u := { u with seqIdx := u.seqIdx + 1#4 }) (p := q.1) (st := q.2) ⟨h.mem_wf, h.mem_in, h.rst, h.tx_plen, h.deframer⟩
      ⟨hrun.busy, by simp only [hidx]; exact hq, hrun.done, hrun.code, hrun.last, hrun.clean⟩ ?_ ?_ ?_
    · intro hx; simp [hr] at hx
    · intro hx; simp [htq] at hx
    · intro hq'
      have := hnext u.seqOp u.seqIdx (by rw [hq]; simp [hq'])
      rw [hrun.hp] at this
      exact hw (by simpa using this)
  · exact inv_failed h hr htq (fun _ => ⟨rfl, rfl⟩)

theorem State.Inv.base {s : State} (h : s.Inv) (hr : s.rst = false) : s.Base :=
  ⟨h.mem_wf, h.mem_in, hr, h.tx_plen, h.deframer⟩

theorem State.Inv.run {s : State} {p st} (h : s.Inv) (hc : s.current = some (p, st)) : s.Run p st := by
  obtain ⟨hb, hp⟩ := current_some hc
  obtain ⟨h1, h2, h3, -, -⟩ := h.busy hb
  exact ⟨hb, hp, h1, h2, h3, h.clean h2⟩

/-- The invariant does not speak of the environment. -/
theorem inv_env {s : State} (h : s.Inv) (turns host reads chanIn chanOut sent) :
    ({ s with turns := turns, host := host, reads := reads, chanIn := chanIn, chanOut := chanOut, sent := sent } : State).Inv :=
  ⟨h.mem_wf, h.mem_in, h.idle, h.busy, h.clean, h.rx_req, h.tx_req, h.tx_plen, h.write_frame, h.deframer, fun hr => by
    have := h.held hr
    have := congrArg (fun x : State => { x with turns := turns, host := host, reads := reads, chanIn := chanIn, chanOut := chanOut, sent := sent }) this
    exact this⟩

/-- The reset line leaves a state that has the invariant. -/
theorem inv_reset (s : State) (level : Bool) : (s.resetAll level).Inv := by
  refine ⟨Memory.wf_nil, by simp [State.resetAll, State.reset], fun _ => ⟨rfl, rfl, rfl, rfl⟩, fun hb => by simp [State.resetAll, State.reset] at hb, fun _ => ⟨rfl, rfl⟩, fun hx => by simp [State.resetAll, State.reset] at hx, fun hx => by simp [State.resetAll, State.reset] at hx, ?_, ?_, ?_, ?_⟩
  · simp [State.resetAll, State.reset]
  · intro hx; simp [State.phase, State.current, State.resetAll, State.reset] at hx
  · exact ⟨rfl, rfl, rfl, rfl, rfl⟩
  · intro hx
    have hx : level = true := hx
    subst hx; rfl

theorem mem_in_write {m : Memory} {a v} (h : ∀ c ∈ m, (0x40 ≤ c.1 ∧ c.1 < 0x56) ∨ (0x60 ≤ c.1 ∧ c.1 < 0x76))
    (ha : (0x40 ≤ a ∧ a < 0x56) ∨ (0x60 ≤ a ∧ a < 0x76)) :
    ∀ c ∈ Memory.write m a v, (0x40 ≤ c.1 ∧ c.1 < 0x56) ∨ (0x60 ≤ c.1 ∧ c.1 < 0x76) := by
  intro c hc
  rcases Memory.mem_write hc with ⟨rfl, -⟩ | hc
  · exact ha
  · exact h c hc

theorem locOf_rxbuf (a : Byte) {i : Nat} (h : locOf a = .rxbuf i) : i < 22 := by
  unfold locOf lowLoc at h
  repeat' split at h
  all_goals first | (cases h; omega) | (simp at h)

/-- A host store keeps the invariant. -/
theorem inv_poke {s : State} (h : s.Inv) (hb : s.busy = false) (hr : s.rst = false) (a v : Byte) : (s.poke a v).Inv := by
  have hi := h.idle hb
  have hph : s.phase = none := by simp [State.phase, State.current, hb]
  unfold State.poke
  split
  · exact ⟨h.mem_wf, h.mem_in, h.idle, h.busy, h.clean, h.rx_req, h.tx_req, h.tx_plen,
      fun hx => by (have hx : s.phase = some .write := hx); simp [hph] at hx, h.deframer, fun hx => by (have hx : s.rst = true := hx); simp [hr] at hx⟩
  · exact ⟨h.mem_wf, h.mem_in, h.idle, h.busy, h.clean, h.rx_req, h.tx_req, h.tx_plen,
      fun hx => by (have hx : s.phase = some .write := hx); simp [hph] at hx, h.deframer, fun hx => by (have hx : s.rst = true := hx); simp [hr] at hx⟩
  · next i hl =>
    have key := locOf_rxbuf a hl
    exact ⟨Memory.write_wf _ _ h.mem_wf, mem_in_write h.mem_in (.inr (by simp only [rxbufBase]; omega)), h.idle, h.busy, h.clean, h.rx_req, h.tx_req, h.tx_plen,
      fun hx => by (have hx : s.phase = some .write := hx); simp [hph] at hx, h.deframer, fun hx => by (have hx : s.rst = true := hx); simp [hr] at hx⟩
  · exact h

/-- An accept keeps the invariant. -/
theorem inv_issue {s : State} (h : s.Inv) (hb : s.busy = false) (hr : s.rst = false) (op : BitVec 4) : (s.issue op).Inv := by
  have hi := h.idle hb
  have hbase : (s.accept (0x0#4 ++ op)).Base := ⟨h.mem_wf, h.mem_in, hr, h.tx_plen, h.deframer⟩
  rw [issue_eq]
  split
  · exact inv_failed (st := .outside) (c := .ok) (n := 0#8) hbase hi.2.2.1 hi.2.2.2 (fun _ => ⟨rfl, rfl⟩)
  · next hne =>
    have hlen : 0 < (phaseList op).length := by
      cases hp : phaseList op
      · simp [hp] at hne
      · simp
    have h0 : ∀ o : BitVec 4, (phaseList o)[0]?.map Prod.fst ≠ some .write := by decide
    obtain ⟨q, hq⟩ : ∃ q, (phaseList op)[0]? = some q := ⟨_, List.getElem?_eq_getElem hlen⟩
    have hso : (s.accept (0x0#4 ++ op)).seqOp = op := by simp only [State.accept_seqOp, split44_lo]
    refine inv_wait (p := q.1) (st := q.2) hbase ⟨rfl, by rw [hso]; exact hq, rfl, rfl, by rw [hso]; rfl, rfl, rfl⟩ ?_ ?_ ?_
    · intro hx; (have hx : s.rxReq = true := hx); simp [hi.2.2.1] at hx
    · intro hx; (have hx : s.txReq = true := hx); simp [hi.2.2.2] at hx
    · intro hx; exact absurd (by rw [hq]; simp [hx]) (h0 op)

theorem readList_written (s : State) (h : Memory.wf s.mem) (hn : s.req.dataSize.toNat ≤ 8) :
    Memory.readList (Memory.writeList s.mem txbufBase (padded (encodeFrame s.req))) txbufBase (encodeFrame s.req).length
     = encodeFrame s.req := by
  have hl := encodeFrame_length_le hn
  apply Memory.readList_eq
  intro i hi
  rw [read_written h hl]
  rw [if_pos (by simp only [txbufBase]; omega)]
  congr 1; omega

theorem toNat_len {m : Bank} (hn : m.dataSize.toNat ≤ 8) : (BitVec.ofNat 8 (encodeFrame m).length).toNat = (encodeFrame m).length := by
  have hl := encodeFrame_length_le hn
  simp only [BitVec.toNat_ofNat]
  omega

/-- ENCODE keeps the invariant. -/
theorem inv_encode {s t : State} {st} (h : s.Inv) (hr : s.rst = false) (hc : s.current = some (.encode, st))
    (ht : (runPhase .encode s).outcome = .next t) : t.Inv := by
  have hrun := h.run hc
  have hb := h.base hr
  have hph := phase_eq_of hc
  have hrx : s.rxReq = false := by
    by_contra hx; simp only [Bool.not_eq_false] at hx
    have := (h.rx_req hx).1; simp [hph] at this
  have htx : s.txReq = false := by
    by_contra hx; simp only [Bool.not_eq_false] at hx
    have := (h.tx_req hx); simp [hph] at this
  simp only [runPhase, encodePhase] at ht
  split at ht
  · simp only [PhaseEnd.outcome, Host.Outcome.next.injEq] at ht
    subst ht
    rw [complete_failed]
    exact inv_failed ⟨h.mem_wf, h.mem_in, hr, ⟨h.tx_plen.1, h.tx_plen.2.1, by simp⟩, h.deframer⟩ hrx htx (by simp)
  · next hn =>
    have hn : s.req.dataSize.toNat ≤ 8 := by omega
    have hl := encodeFrame_length_le hn
    have hl6 := le_encodeFrame_length s.req
    have hlen := toNat_len hn
    simp only [PhaseEnd.outcome, Host.Outcome.next.injEq] at ht
    subst ht
    refine inv_advance (p := .encode) (st := st) ⟨Memory.writeList_wf _ _ h.mem_wf, ?_, hr, ⟨by simp only; rw [hlen]; exact hl, .inr (by simp only; rw [hlen]; exact hl6), fun _ => by simp only; rw [hlen]; exact hl6⟩, h.deframer⟩ ⟨hrun.busy, hrun.hp, hrun.done, hrun.code, hrun.last, hrun.clean⟩ hrx htx ?_
    · intro c hc
      rcases Memory.mem_writeList _ hc with hc | hc
      · rw [padded_length hl] at hc; simp only [txbufBase] at hc; left; omega
      · exact h.mem_in c hc
    · intro _
      refine ⟨hn, rfl, hlen, ?_⟩
      simp only [State.txFrame, hlen]
      exact readList_written s h.mem_wf hn

/-- WRITE keeps the invariant. -/
theorem inv_write {s t : State} {st} (h : s.Inv) (hr : s.rst = false) (hc : s.current = some (.write, st))
    (ht : (runPhase .write s).outcome = .next t) : t.Inv := by
  have hrun := h.run hc
  have hb := h.base hr
  have hph := phase_eq_of hc
  have hrx : s.rxReq = false := by
    by_contra hx; simp only [Bool.not_eq_false] at hx
    have := (h.rx_req hx).1; simp [hph] at this
  have hbase : ∀ (chanOut sent txReq), ({ s with chanOut := chanOut, sent := sent, txReq := txReq } : State).Base := fun _ _ _ =>
    ⟨h.mem_wf, h.mem_in, hr, h.tx_plen, h.deframer⟩
  simp only [runPhase, writePhase] at ht
  split at ht
  · simp [PhaseEnd.outcome] at ht
  · split at ht
    · split at ht <;> simp only [PhaseEnd.outcome, Host.Outcome.next.injEq] at ht <;> subst ht
      · exact h
      · exact inv_advance (p := .write) (st := st) (hbase _ _ _) ⟨hrun.busy, hrun.hp, hrun.done, hrun.code, hrun.last, hrun.clean⟩ hrx rfl (by simp)
      · rw [complete_failed]; exact inv_failed (hbase _ _ _) hrx rfl (by simp)
    · simp only [PhaseEnd.outcome, Host.Outcome.next.injEq] at ht
      subst ht
      exact inv_wait (p := .write) (st := st) (hbase _ _ true) ⟨hrun.busy, hrun.hp, hrun.done, hrun.code, hrun.last, hrun.clean⟩ (by simp [hrx]) (fun _ => rfl) (fun _ => h.write_frame hph)

/-- The phases that touch neither the frame buffers nor the channel keep the invariant. -/
theorem inv_simple {s t : State} {p st} (h : s.Inv) (hr : s.rst = false) (hc : s.current = some (p, st))
    (hp : p ≠ .encode ∧ p ≠ .write ∧ p ≠ .sync)
    (ht : (runPhase p s).outcome = .next t) : t.Inv := by
  have hrun := h.run hc
  have hb := h.base hr
  have hph := phase_eq_of hc
  have hrx : s.rxReq = false := by
    by_contra hx; simp only [Bool.not_eq_false] at hx
    have := (h.rx_req hx).1; simp [hph, hp] at this
  have htx : s.txReq = false := by
    by_contra hx; simp only [Bool.not_eq_false] at hx
    have := (h.tx_req hx); simp [hph, hp] at this
  have hadv := inv_advance hb hrun hrx htx (fun e => absurd e hp.1)
  have hfail : ∀ st c n, c ≠ .ok → (s.failed st c n).Inv := fun st c n hc => inv_failed hb hrx htx (fun e => absurd e hc)
  cases p <;> simp only [ne_eq, not_true_eq_false, false_and, and_false] at hp
  case decode =>
    simp only [runPhase, decodePhase] at ht
    split at ht
    · next e he =>
      simp only [PhaseEnd.outcome, Host.Outcome.next.injEq] at ht; subst ht
      rw [complete_failed]
      refine inv_failed ⟨h.mem_wf, h.mem_in, hr, h.tx_plen, h.deframer⟩ hrx htx fun e' => ?_
      unfold decodeBuffer at he
      split at he
      · cases he; simp at e'
      · split at he <;> cases he; simp at e'
    · simp only [PhaseEnd.outcome, Host.Outcome.next.injEq] at ht; subst ht
      exact inv_advance (p := .decode) (st := st) ⟨h.mem_wf, h.mem_in, hr, h.tx_plen, h.deframer⟩ ⟨hrun.busy, hrun.hp, hrun.done, hrun.code, hrun.last, hrun.clean⟩ hrx htx (by simp)
  case copyRpl =>
    simp only [runPhase, copyRplPhase, PhaseEnd.outcome, Host.Outcome.next.injEq] at ht; subst ht
    exact inv_advance (p := .copyRpl) (st := st) ⟨h.mem_wf, h.mem_in, hr, h.tx_plen, h.deframer⟩ ⟨hrun.busy, hrun.hp, hrun.done, hrun.code, hrun.last, hrun.clean⟩ hrx htx (by simp)
  all_goals
    simp only [runPhase, checkAckPhase, checkDrepPhase, checkSrepPhase, checkMask] at ht
    split at ht <;> simp only [PhaseEnd.outcome, Host.Outcome.next.injEq] at ht <;> subst ht
    · exact hadv
    · exact hfail _ _ _ (by simp)

/-- SYNC keeps the invariant. -/
theorem inv_sync {s t : State} {st} (h : s.Inv) (hr : s.rst = false) (hc : s.current = some (.sync, st))
    (ht : (runPhase .sync s).outcome = .next t) : t.Inv := by
  have hrun := h.run hc
  have hb := h.base hr
  have hph := phase_eq_of hc
  have htx : s.txReq = false := by
    by_contra hx; simp only [Bool.not_eq_false] at hx
    have := (h.tx_req hx); simp [hph] at this
  have hdf := h.deframer
  simp only [runPhase, syncPhase] at ht
  split at ht
  · next hrq =>
    have hrx := h.rx_req hrq
    split at ht
    · simp only [PhaseEnd.outcome, Host.Outcome.next.injEq] at ht; subst ht; exact h
    · simp only [syncRaise, PhaseEnd.outcome, Host.Outcome.next.injEq] at ht; subst ht
      rw [complete_failed]; exact inv_failed ⟨h.mem_wf, h.mem_in, hr, h.tx_plen, h.deframer⟩ rfl htx (by simp)
    · simp only [syncRaise, PhaseEnd.outcome, Host.Outcome.next.injEq] at ht; subst ht
      rw [complete_failed]; exact inv_failed ⟨h.mem_wf, h.mem_in, hr, h.tx_plen, h.deframer⟩ rfl htx (by simp)
    · next b rest hci =>
      rw [if_neg (by have := hrx.2.1; cases hpp : s.place <;> simp_all)] at ht
      obtain ⟨u, hu⟩ : ∃ u : State, u = { s with chanIn := rest } := ⟨_, rfl⟩
      rw [← hu] at ht
      have hui : u.Inv := by rw [hu]; exact inv_env h _ _ _ _ _ _
      have hurun : u.Run .sync st := by rw [hu]; exact ⟨hrun.busy, hrun.hp, hrun.done, hrun.code, hrun.last, hrun.clean⟩
      have hur : u.rst = false := by rw [hu]; exact hr
      have hutx : u.txReq = false := by rw [hu]; exact htx
      have hurx : u.rxReq = true := by rw [hu]; exact hrq
      clear hu hci hdf h hb hrun
      have hdf := hui.deframer
      unfold State.DeframerOk at hdf
      unfold syncByte at ht
      have hwf : ∀ a v, Memory.wf (Memory.write u.mem a v) := fun a v => Memory.write_wf a v hui.mem_wf
      have hin : ∀ a v, 0x60 ≤ a → a < 0x76 → ∀ c ∈ Memory.write u.mem a v, (0x40 ≤ c.1 ∧ c.1 < 0x56) ∨ (0x60 ≤ c.1 ∧ c.1 < 0x76) := 
         fun a v h1 h2 => mem_in_write hui.mem_in (.inr ⟨h1, h2⟩)
      have hrunOf : ∀ v : State, v.busy = u.busy → v.seqOp = u.seqOp → v.seqIdx = u.seqIdx → v.done = u.done → v.errCode = u.errCode → v.lastCmd = u.lastCmd → v.errStage = u.errStage → v.errInfo = u.errInfo → v.Run .sync st := by
        intro v a b c d e f g i
        exact ⟨a ▸ hurun.busy, by rw [b, c]; exact hurun.hp, d ▸ hurun.done, e ▸ hurun.code, by rw [f, b]; exact hurun.last, by rw [g, i]; exact hurun.clean⟩
      cases hd : u.dfrState <;> simp only [hd] at ht hdf
      case idle => simp only [PhaseEnd.outcome, Host.Outcome.next.injEq] at ht; exact ht ▸ hui
      case done => simp only [PhaseEnd.outcome, Host.Outcome.next.injEq] at ht; exact ht ▸ hui
      case hunt =>
        split at ht
        · simp only [huntStart, syncMore, PhaseEnd.outcome, Host.Outcome.next.injEq] at ht; subst ht
          refine inv_wait (p := .sync) (st := st) ⟨hwf _ _, hin _ _ (by decide) (by decide), hur, hui.tx_plen, ?_⟩ (hrunOf _ rfl rfl rfl rfl rfl rfl rfl rfl) ?_ ?_ (by simp)
          · exact ⟨hdf.2.2.1, hdf.2.2.2, .inl ⟨rfl, hdf.2.1⟩⟩
          · intro _; exact ⟨rfl, rfl, fun _ => rfl⟩
          · simp [hutx]
        · simp only [huntNoise, syncMore, PhaseEnd.outcome, Host.Outcome.next.injEq] at ht; subst ht
          refine inv_wait (p := .sync) (st := st) ⟨hui.mem_wf, hui.mem_in, hur, hui.tx_plen, ?_⟩ (hrunOf _ rfl rfl rfl rfl rfl rfl rfl rfl) ?_ ?_ (by simp)
          · simp only [State.DeframerOk, hd]; exact hdf
          · intro _; exact ⟨rfl, by simp [State.place, hd], by simp [hd]⟩
          · simp [hutx]
      case len =>
        simp only [lengthByte] at ht
        split at ht
        · next hbad =>
          simp only [syncRaise, PhaseEnd.outcome, Host.Outcome.next.injEq] at ht; subst ht
          rw [complete_failed]
          refine inv_failed ⟨hwf _ _, hin _ _ (by decide) (by decide), hur, hui.tx_plen, ?_⟩ rfl hutx (by simp)
          simp only [State.DeframerOk, hd]
          exact ⟨hdf.1, hdf.2.1, .inr ⟨trivial, hbad⟩⟩
        · next hbad =>
          simp only [syncMore, PhaseEnd.outcome, Host.Outcome.next.injEq] at ht; subst ht
          simp only [badLength, Bool.or_eq_true, decide_eq_true_eq, not_or, not_lt] at hbad
          refine inv_wait (p := .sync) (st := st) ⟨hwf _ _, hin _ _ (by decide) (by decide), hur, hui.tx_plen, ?_⟩ (hrunOf _ rfl rfl rfl rfl rfl rfl rfl rfl) ?_ ?_ (by simp)
          · simp [State.DeframerOk, hdf.2.1, hdf.1, hbad]
          · intro _; exact ⟨rfl, by simp [State.place, hdf.2.1], by simp⟩
          · simp [hutx]
      case id =>
        obtain ⟨h1, h2, h3, h4, h5⟩ := hdf
        have hp : u.rxPlen.toNat < 22 := by omega
        have hp1 : (u.rxPlen + 1#8).toNat = u.rxPlen.toNat + 1 := by simp [BitVec.toNat_add]; omega
        have hu1 : (u.dfrUnits + 1#8).toNat = u.dfrUnits.toNat + 1 := by simp [BitVec.toNat_add]; omega
        simp only [idByte, storeRx, if_pos (show u.rxPlen.toNat < bufSize from hp), hu1] at ht
        split at ht
        · simp only [syncMore, PhaseEnd.outcome, Host.Outcome.next.injEq] at ht; subst ht
          refine inv_wait (p := .sync) (st := st) ⟨hwf _ _, hin _ _ (by simp [rxbufBase]) (by simp only [rxbufBase]; omega), hur, hui.tx_plen, ?_⟩ (hrunOf _ rfl rfl rfl rfl rfl rfl rfl rfl) ?_ ?_ (by simp)
          · simp only [State.DeframerOk, hd, hp1, hu1]; exact ⟨by omega, by omega, h3, h4, h5⟩
          · intro _; refine ⟨rfl, ?_, by simp [hd]⟩
            simp only [State.place, hd, hu1]
            have : u.dfrUnits.toNat = 0 ∨ u.dfrUnits.toNat = 1 ∨ u.dfrUnits.toNat = 2 := by omega
            rcases this with e | e | e <;> simp [e]
          · simp [hutx]
        · split at ht
          · simp only [syncMore, PhaseEnd.outcome, Host.Outcome.next.injEq] at ht; subst ht
            refine inv_wait (p := .sync) (st := st) ⟨hwf _ _, hin _ _ (by simp [rxbufBase]) (by simp only [rxbufBase]; omega), hur, hui.tx_plen, ?_⟩ (hrunOf _ rfl rfl rfl rfl rfl rfl rfl rfl) ?_ ?_ (by simp)
            · simp only [State.DeframerOk, hp1, hu1, h5]; simp only [BitVec.toNat_ofNat]; omega
            · intro _; exact ⟨rfl, by simp [State.place], by simp⟩
            · simp [hutx]
          · simp only [syncEnd, PhaseEnd.outcome, Host.Outcome.next.injEq] at ht; subst ht
            refine inv_advance (p := .sync) (st := st) ⟨hwf _ _, hin _ _ (by simp [rxbufBase]) (by simp only [rxbufBase]; omega), hur, hui.tx_plen, ?_⟩ (hrunOf _ rfl rfl rfl rfl rfl rfl rfl rfl) rfl hutx (by simp)
            simp only [State.DeframerOk, hp1, h5]
            refine ⟨BitVec.eq_of_toNat_eq (by rw [hu1]; omega), by simp only [BitVec.toNat_ofNat]; omega, h3, h4, by simp only [BitVec.toNat_ofNat]; omega⟩
      case body =>
        obtain ⟨h1, h2, h3, h4, h5⟩ := hdf
        have hp : u.rxPlen.toNat < 22 := by omega
        have hp1 : (u.rxPlen + 1#8).toNat = u.rxPlen.toNat + 1 := by simp [BitVec.toNat_add]; omega
        have hu1 : (u.dfrUnits + 1#8).toNat = u.dfrUnits.toNat + 1 := by simp [BitVec.toNat_add]; omega
        split at ht
        · simp only [bodyEscape, storeRx, if_pos (show u.rxPlen.toNat < bufSize from hp), syncMore, PhaseEnd.outcome, Host.Outcome.next.injEq] at ht; subst ht
          refine inv_wait (p := .sync) (st := st) ⟨hwf _ _, hin _ _ (by simp [rxbufBase]) (by simp only [rxbufBase]; omega), hur, hui.tx_plen, ?_⟩ (hrunOf _ rfl rfl rfl rfl rfl rfl rfl rfl) ?_ ?_ (by simp)
          · simp only [State.DeframerOk, hp1]; omega
          · intro _; exact ⟨rfl, by simp [State.place], by simp⟩
          · simp [hutx]
        · simp only [bodyLiteral, storeRx, if_pos (show u.rxPlen.toNat < bufSize from hp), unitRead, hu1] at ht
          split at ht
          · simp only [syncMore, PhaseEnd.outcome, Host.Outcome.next.injEq] at ht; subst ht
            refine inv_wait (p := .sync) (st := st) ⟨hwf _ _, hin _ _ (by simp [rxbufBase]) (by simp only [rxbufBase]; omega), hur, hui.tx_plen, ?_⟩ (hrunOf _ rfl rfl rfl rfl rfl rfl rfl rfl) ?_ ?_ (by simp)
            · simp only [State.DeframerOk, hp1, hu1]; omega
            · intro _; exact ⟨rfl, by simp [State.place], by simp⟩
            · simp [hutx]
          · simp only [syncEnd, PhaseEnd.outcome, Host.Outcome.next.injEq] at ht; subst ht
            refine inv_advance (p := .sync) (st := st) ⟨hwf _ _, hin _ _ (by simp [rxbufBase]) (by simp only [rxbufBase]; omega), hur, hui.tx_plen, ?_⟩ (hrunOf _ rfl rfl rfl rfl rfl rfl rfl rfl) rfl hutx (by simp)
            simp only [State.DeframerOk, hp1]
            exact ⟨BitVec.eq_of_toNat_eq (by rw [hu1]; omega), by omega, by omega, h4, by omega⟩
      case esc =>
        obtain ⟨h1, h2, h3, h4, h5⟩ := hdf
        have hp : u.rxPlen.toNat < 22 := by omega
        have hp1 : (u.rxPlen + 1#8).toNat = u.rxPlen.toNat + 1 := by simp [BitVec.toNat_add]; omega
        have hu1 : (u.dfrUnits + 1#8).toNat = u.dfrUnits.toNat + 1 := by simp [BitVec.toNat_add]; omega
        have ho1 : (u.rxOvh + 1#8).toNat = u.rxOvh.toNat + 1 := by simp [BitVec.toNat_add]; omega
        simp only [escSecond, storeRx, if_pos (show u.rxPlen.toNat < bufSize from hp), unitRead, hu1] at ht
        split at ht
        · simp only [syncMore, PhaseEnd.outcome, Host.Outcome.next.injEq] at ht; subst ht
          refine inv_wait (p := .sync) (st := st) ⟨hwf _ _, hin _ _ (by simp [rxbufBase]) (by simp only [rxbufBase]; omega), hur, hui.tx_plen, ?_⟩ (hrunOf _ rfl rfl rfl rfl rfl rfl rfl rfl) ?_ ?_ (by simp)
          · simp only [State.DeframerOk, hp1, hu1, ho1]; omega
          · intro _; exact ⟨rfl, by simp [State.place], by simp⟩
          · simp [hutx]
        · simp only [syncEnd, PhaseEnd.outcome, Host.Outcome.next.injEq] at ht; subst ht
          refine inv_advance (p := .sync) (st := st) ⟨hwf _ _, hin _ _ (by simp [rxbufBase]) (by simp only [rxbufBase]; omega), hur, hui.tx_plen, ?_⟩ (hrunOf _ rfl rfl rfl rfl rfl rfl rfl rfl) rfl hutx (by simp)
          simp only [State.DeframerOk, hp1, ho1]
          exact ⟨BitVec.eq_of_toNat_eq (by rw [hu1]; omega), by omega, by omega, h4, by omega⟩
  · simp only [syncStart, syncMore, PhaseEnd.outcome, Host.Outcome.next.injEq] at ht
    have hw := Memory.writeList_wf (padded []) rxbufBase h.mem_wf
    have hin : ∀ c ∈ Memory.writeList s.mem rxbufBase (padded []), (0x40 ≤ c.1 ∧ c.1 < 0x56) ∨ (0x60 ≤ c.1 ∧ c.1 < 0x76) := by
      intro c hc
      rcases Memory.mem_writeList _ hc with hc | hc
      · rw [padded_length (by simp)] at hc; simp only [rxbufBase] at hc; right; omega
      · exact h.mem_in c hc
    generalize Memory.writeList s.mem rxbufBase (padded []) = mm at ht hw hin
    subst ht
    refine inv_wait (p := .sync) (st := st) ⟨hw, hin, hr, h.tx_plen, by simp [State.DeframerOk]⟩ ⟨hrun.busy, hrun.hp, hrun.done, hrun.code, hrun.last, hrun.clean⟩ ?_ ?_ (by simp)
    · intro _; exact ⟨rfl, rfl, by simp⟩
    · simp [htx]

/-- One step of any phase keeps the invariant. -/
theorem inv_phase {s t : State} {p st} (h : s.Inv) (hr : s.rst = false) (hc : s.current = some (p, st))
    (ht : (runPhase p s).outcome = .next t) : t.Inv := by
  by_cases h1 : p = .encode
  · subst h1; exact inv_encode h hr hc ht
  by_cases h2 : p = .write
  · subst h2; exact inv_write h hr hc ht
  by_cases h3 : p = .sync
  · subst h3; exact inv_sync h hr hc ht
  exact inv_simple h hr hc ⟨h1, h2, h3⟩ ht

end Sys2Proof.Machine
end

