-- ==== Sys2Proof/Laws/PerInstr.lean ====
section
/-! SUPPORT. One lemma per row of the opcode table: a well-formed instruction is one byte, and two if and only if it is a
payload unit whose first byte is ESC (R81, R92). -/

namespace Sys2Proof.Laws.UnitSize

open Sys2Proof

/-- How many bytes an instruction has, told by its place and its first byte. -/
def Statement (i : Instr) : Prop :=
  i.wf = true →
    (encode i).length = (if i.place = .payload ∧ (encode i).head? = some escByte then 2 else 1)

theorem nop : Statement .nop := by
  intro _; simp [encode, Instr.place, escByte]
theorem enc : Statement .enc := by
  intro _; simp [encode, Instr.place, escByte]
theorem dec : Statement .dec := by
  intro _; simp [encode, Instr.place, escByte]
theorem send : Statement .send := by
  intro _; simp [encode, Instr.place, escByte]
theorem recv : Statement .recv := by
  intro _; simp [encode, Instr.place, escByte]
theorem vack : Statement .vack := by
  intro _; simp [encode, Instr.place, escByte]
theorem vdrep : Statement .vdrep := by
  intro _; simp [encode, Instr.place, escByte]
theorem vsrep : Statement .vsrep := by
  intro _; simp [encode, Instr.place, escByte]
theorem xcmd : Statement .xcmd := by
  intro _; simp [encode, Instr.place, escByte]
theorem xqry : Statement .xqry := by
  intro _; simp [encode, Instr.place, escByte]
theorem xsqry : Statement .xsqry := by
  intro _; simp [encode, Instr.place, escByte]
theorem abort : Statement .abort := by
  intro _; simp [encode, Instr.place, escByte]
theorem illegal0B : Statement .illegal0B := by
  intro _; simp [encode, Instr.place, escByte]
theorem illegal0C : Statement .illegal0C := by
  intro _; simp [encode, Instr.place, escByte]
theorem illegal0D : Statement .illegal0D := by
  intro _; simp [encode, Instr.place, escByte]
theorem illegal0E : Statement .illegal0E := by
  intro _; simp [encode, Instr.place, escByte]
theorem illegalRsv (rsv op : BitVec 4) : Statement (.illegalRsv rsv op) := by
  intro h; revert h; simp [encode, Instr.place, Instr.wf, escByte]
theorem wireStart : Statement .wireStart := by
  intro _; simp [encode, Instr.place, escByte]
theorem wireNoise (b : Byte) : Statement (.wireNoise b) := by
  intro h; revert h; simp [encode, Instr.place, Instr.wf, escByte]
theorem wireLength (l : Byte) : Statement (.wireLength l) := by
  intro h; revert h; simp [encode, Instr.place, Instr.wf, escByte]
theorem wireId0 (idxLo : BitVec 2) (dev : BitVec 6) : Statement (.wireId0 idxLo dev) := by
  intro h; revert h; simp [encode, Instr.place, Instr.wf, escByte]
theorem wireId1 (cls : BitVec 6) (idxHi : BitVec 2) : Statement (.wireId1 cls idxHi) := by
  intro h; revert h; simp [encode, Instr.place, Instr.wf, escByte]
theorem wireId2 (mfr : Byte) : Statement (.wireId2 mfr) := by
  intro h; revert h; simp [encode, Instr.place, Instr.wf, escByte]
theorem wireId3 (typ : Byte) : Statement (.wireId3 typ) := by
  intro h; revert h; simp [encode, Instr.place, Instr.wf, escByte]
theorem wireLiteral (d : Byte) : Statement (.wireLiteral d) := by
  intro h; revert h; simp [encode, Instr.place, Instr.wf, escByte]
theorem wireEscStart : Statement .wireEscStart := by
  intro _; simp [encode, Instr.place, escByte]
theorem wireEscEsc : Statement .wireEscEsc := by
  intro _; simp [encode, Instr.place, escByte]
theorem wireEscInvalid (x : Byte) : Statement (.wireEscInvalid x) := by
  intro h; revert h; simp [encode, Instr.place, Instr.wf, escByte]

end Sys2Proof.Laws.UnitSize
end

