-- ==== Sys2Proof/Laws/Walk.lean ====
section
/-! SUPPORT. The walk over RXBUF's payload units (R152): where it ends, and that a store at or past its end leaves it. -/

namespace Sys2Proof.Machine

open Sys2Proof

theorem le_walkEnd (m : Memory) (p n : Nat) : p + n ≤ walkEnd m p n := by
  induction n generalizing p with
  | zero => exact Nat.le_refl _
  | succ n ih =>
    unfold walkEnd
    split
    · have := ih (p + 2); omega
    · have := ih (p + 1); omega

/-- One more unit at the end of a walk. -/
theorem walkEnd_snoc (m : Memory) (p n : Nat) :
    walkEnd m p (n + 1) =
      if Memory.read m (rxbufBase + walkEnd m p n) = escByte then walkEnd m p n + 2 else walkEnd m p n + 1 := by
  induction n generalizing p with
  | zero => rfl
  | succ n ih =>
    rw [walkEnd]
    conv_rhs => rw [walkEnd]
    by_cases h : Memory.read m (rxbufBase + p) = escByte
    · rw [if_pos h, if_pos h, ih (p + 2)]
    · rw [if_neg h, if_neg h, ih (p + 1)]

/-- Memories that agree below a walk's end walk alike. -/
theorem walkEnd_congr {m m' : Memory} {p n e : Nat} (he : walkEnd m p n ≤ e)
    (h : ∀ a, a < rxbufBase + e → Memory.read m' a = Memory.read m a) : walkEnd m' p n = walkEnd m p n := by
  induction n generalizing p with
  | zero => rfl
  | succ n ih =>
    have hp : p < e := by have := le_walkEnd m p (n + 1); omega
    rw [walkEnd, walkEnd, h _ (by omega)]
    rw [walkEnd] at he
    split
    · next hb => rw [if_pos hb] at he; exact ih he
    · next hb => rw [if_neg hb] at he; exact ih he

/-- A store at or past a walk's end leaves it. -/
theorem walkEnd_write {m : Memory} (hm : Memory.wf m) {p n e : Nat} (b : Byte) (he : walkEnd m p n ≤ e) :
    walkEnd (Memory.write m (rxbufBase + e) b) p n = walkEnd m p n :=
  walkEnd_congr he fun a ha => by rw [Memory.read_write _ _ _ hm, if_neg (by omega)]

/-- A store past the header leaves it. -/
theorem header_write {m : Memory} (hm : Memory.wf m) {e : Nat} (b : Byte) (he : 2 ≤ e) :
    Memory.read (Memory.write m (rxbufBase + e) b) rxbufBase = Memory.read m rxbufBase ∧
      Memory.read (Memory.write m (rxbufBase + e) b) (rxbufBase + 1) = Memory.read m (rxbufBase + 1) := by
  constructor <;> rw [Memory.read_write _ _ _ hm, if_neg (by omega)]

/-- Where DECODE's walk finds no invalid pair, the bytes it took are those of n valid units, and they end where walkEnd
says (R152). -/
theorem unstuff_split {m : Memory} {p n : Nat} {ds : List Byte} (h : unstuff m p n = .ok ds) :
    ∃ units : List Instr, units.length = n ∧ units.map unitValue = ds.map some ∧
      StoredAt m p (units.flatMap encode) ∧ p + (units.flatMap encode).length = walkEnd m p n := by
  induction n generalizing p ds with
  | zero =>
    simp only [unstuff, Except.ok.injEq] at h; subst h
    exact ⟨[], rfl, rfl, fun k hk => by simp at hk, rfl⟩
  | succ n ih =>
    rw [unstuff] at h
    have stored : ∀ (bs cs : List Byte), (∀ k, k < bs.length → Memory.read m (rxbufBase + (p + k)) = bs.getD k 0#8) →
        StoredAt m (p + bs.length) cs → StoredAt m p (bs ++ cs) := by
      intro bs cs h1 h2 k hk
      by_cases hl : k < bs.length
      · rw [h1 k hl, List.getD_append _ _ _ _ hl]
      · rw [List.getD_append_right _ _ _ _ (by omega), ← h2 _ (by simp at hk; omega)]
        congr 2; omega
    split at h
    · next he =>
      cases hu : unescape (Memory.read m (rxbufBase + (p + 1))) with
      | none => simp [hu] at h
      | some d =>
        simp only [hu] at h
        cases hr : unstuff m (p + 2) n with
        | error c => simp [hr] at h
        | ok ds' =>
          simp only [hr, Except.ok.injEq] at h; subst h
          obtain ⟨us, h1, h2, h3, h4⟩ := ih hr
          have : ∃ u, encode u = [escByte, Memory.read m (rxbufBase + (p + 1))] ∧ unitValue u = some d := by
            unfold unescape at hu
            split at hu
            · next hc => exact ⟨.wireEscStart, by rw [hc]; rfl, by simpa [unitValue, startByte] using hu⟩
            · split at hu
              · next hc => exact ⟨.wireEscEsc, by rw [hc]; rfl, by simpa [unitValue, escByte] using hu⟩
              · simp at hu
          obtain ⟨u, e1, e2⟩ := this
          refine ⟨u :: us, by simp [h1], by simp [e2, h2], ?_, ?_⟩
          · rw [List.flatMap_cons, e1]
            refine stored _ _ (fun k hk => ?_) h3
            have : k = 0 ∨ k = 1 := by simp at hk; omega
            rcases this with rfl | rfl
            · simpa using he
            · rfl
          · rw [List.flatMap_cons, e1, walkEnd, if_pos he, ← h4]; simp; omega
    · next he =>
      cases hr : unstuff m (p + 1) n with
      | error c => simp [hr] at h
      | ok ds' =>
        simp only [hr, Except.ok.injEq] at h; subst h
        obtain ⟨us, h1, h2, h3, h4⟩ := ih hr
        refine ⟨.wireLiteral (Memory.read m (rxbufBase + p)) :: us, by simp [h1], ?_, ?_, ?_⟩
        · simp [h2, unitValue]; exact he
        · rw [List.flatMap_cons]
          refine stored _ _ (fun k hk => ?_) h3
          have : k = 0 := by simpa [encode] using hk
          subst this; rfl
        · rw [List.flatMap_cons, walkEnd, if_neg he, ← h4]; simp [encode]; omega

end Sys2Proof.Machine
end

