-- ==== Sys2Proof/Machine/HostProgram.lean ====
section
/-! DEFINITION. The host's assembly language and its encoding as bus cycles (R100 to R102). -/

namespace Sys2Proof.Machine

open Sys2Proof

/-- The base address of a bank (R21). -/
def BankName.base : BankName → Byte
  | .req => 0x10#8
  | .rx => 0x20#8
  | .rpl => 0x30#8

/-- A statement of the host's assembly (R100) or a pseudo-instruction (R102). A register is its address (R39). -/
inductive HostStmt where
  /-- `WR reg, imm8`. -/
  | wr (addr value : Byte)
  /-- `RD reg`. -/
  | rd (addr : Byte)
  /-- `CMD mnemonic`, with the mnemonic's byte. -/
  | cmd (byte : Byte)
  /-- `WAIT`. -/
  | wait
  /-- `LDMSG bank, dev, cls, idx, mfr, typ, [data]`. -/
  | ldmsg (bank : BankName) (dev cls idx mfr typ : Byte) (data : List Byte)
  /-- `LDRXBUF [bytes]`. -/
  | ldrxbuf (bytes : List Byte)
  /-- `DO mnemonic`. -/
  | doCmd (byte : Byte)
  deriving DecidableEq, Repr

/-- Writes of a list of bytes from an address up. -/
def writesFrom : Byte → List Byte → List HostOp
  | _, [] => []
  | a, b :: bs => .write a b :: writesFrom (a + 1#8) bs

/-- What the assembler admits: LDMSG loads REQ or RX with at most 8 data bytes, LDRXBUF at most 22 bytes (R102). -/
def HostStmt.wf : HostStmt → Bool
  | .ldmsg bank _ _ _ _ _ data => bank != .rpl && data.length ≤ 8
  | .ldrxbuf bytes => bytes.length ≤ bufSize
  | .wr _ _ | .rd _ | .cmd _ | .wait | .doCmd _ => true

/-- The bus cycles of a statement (R101, R102). -/
def HostStmt.expand : HostStmt → List HostOp
  | .wr a v => [.write a v]
  | .rd a => [.read a]
  | .cmd v => [.write 0x00#8 v]
  | .wait => [.wait]
  | .ldmsg bank dev cls idx mfr typ data =>
    writesFrom bank.base [dev, cls, idx, mfr, typ, BitVec.ofNat 8 data.length] ++ writesFrom (bank.base + 8#8) data
  | .ldrxbuf bytes => writesFrom 0x60#8 bytes
  | .doCmd v => [.write 0x00#8 v, .wait]

/-- A host program as its list of bus cycles (R101). -/
def assemble (p : List HostStmt) : List HostOp := p.flatMap HostStmt.expand

end Sys2Proof.Machine
end

