-- ==== Sys2Proof/Tests/Slice0.lean ====
section
/-! SUPPORT. Tests of the model. Expected values come from the spec: the encodings of 30_encoding.md and the vectors V<n>
of 95_test_vectors.md, named in each comment. The last part shows, for every obligation with hypotheses, a state that
meets them. -/

namespace Sys2Proof.Tests

open Sys2Proof Sys2Proof.Machine

/-! ### Helpers -/

/-- CFG_EX, the example parameters of 95_test_vectors.md. -/
def cfgEx : Params :=
  { ctrlVendor := 0x02, mcType := 0x02, ackClass := 0x08, sysVendor := 0x00, sysType := 0x00, sysClass := 0x00 }

/-- A message {dev, cls, idx, mfr, typ; data} as the vectors write it. -/
def msg (dev cls : BitVec 6) (idx : BitVec 4) (mfr typ : Byte) (data : List Byte) : Bank :=
  { device := dev, apiClass := cls, apiIndex := idx, manufacturer := mfr, deviceType := typ,
    dataSize := BitVec.ofNat 4 data.length, data := Payload.ofList data }

/-- The reset state with the block running a command at a phase index. -/
def running (op idx : BitVec 4) : State :=
  { State.reset with busy := true, lastCmd := 0x0#4 ++ op, seqOp := op, seqIdx := idx }

/-- RECV waiting for a byte, with the deframer at a state. -/
def receiving (d : DfrState) (units plen len : Byte) : State :=
  { running 0x4 0x0 with rxReq := true, dfrState := d, dfrUnits := units, rxPlen := plen, rxLen := len }

/-- The reset state about to do a bus cycle. -/
def hostAt (op : HostOp) : State := { State.reset with turns := [.host], host := [op] }

/-- A buffer's bytes as memory. -/
def stored (base : Nat) (bytes : List Byte) : Memory := Memory.writeList [] base bytes

/-- One reading of the next state. -/
def after {α : Type} (o : Host.Outcome State Fault Refusal) (f : State → α) : Option α :=
  match o with
  | .next t => some (f t)
  | _ => none

/-- ERRCODE, ERRINFO and STATUS, as the vectors list them. -/
def result (s : State) : List Byte := [s.errcode, s.errInfo, s.status]

/-! ### WellFormed: each check refuses an ill-formed term -/

theorem test_wf_illegalRsv : (Instr.illegalRsv 0x0 0x3).wf = false := by decide
theorem test_wf_wireNoise : (Instr.wireNoise 0xFF).wf = false := by decide
theorem test_wf_wireLiteral : (Instr.wireLiteral 0xFE).wf = false := by decide
theorem test_wf_wireEscInvalid_esc : (Instr.wireEscInvalid 0xFE).wf = false := by decide
theorem test_wf_wireEscInvalid_alt : (Instr.wireEscInvalid 0xFD).wf = false := by decide
theorem test_wf_admits :
    (Instr.illegalRsv 0x1 0x3).wf = true ∧ (Instr.wireNoise 0xFE).wf = true ∧ (Instr.wireLiteral 0xFF).wf = true ∧
      (Instr.wireEscInvalid 0xFF).wf = true := by decide
theorem test_wf_ldmsg_rpl : (HostStmt.ldmsg .rpl 0 0 0 0 0 []).wf = false := by decide
theorem test_wf_ldrxbuf_long : (HostStmt.ldrxbuf (List.replicate 23 0)).wf = false := by decide

/-! ### Decoding: one word of every row, written out from R81, R83, R84 and R86 to R90 -/

theorem test_decode_nop : (decode .command [0b00000000#8]).toOption = some (.nop, []) := by decide
theorem test_decode_enc : (decode .command [0b00000001#8]).toOption = some (.enc, []) := by decide
theorem test_decode_dec : (decode .command [0b00000010#8]).toOption = some (.dec, []) := by decide
theorem test_decode_send : (decode .command [0b00000011#8]).toOption = some (.send, []) := by decide
theorem test_decode_recv : (decode .command [0b00000100#8]).toOption = some (.recv, []) := by decide
theorem test_decode_vack : (decode .command [0b00000101#8]).toOption = some (.vack, []) := by decide
theorem test_decode_vdrep : (decode .command [0b00000110#8]).toOption = some (.vdrep, []) := by decide
theorem test_decode_vsrep : (decode .command [0b00000111#8]).toOption = some (.vsrep, []) := by decide
theorem test_decode_xcmd : (decode .command [0b00001000#8]).toOption = some (.xcmd, []) := by decide
theorem test_decode_xqry : (decode .command [0b00001001#8]).toOption = some (.xqry, []) := by decide
theorem test_decode_xsqry : (decode .command [0b00001010#8]).toOption = some (.xsqry, []) := by decide
theorem test_decode_abort : (decode .command [0b00001111#8]).toOption = some (.abort, []) := by decide
theorem test_decode_illegal0B : (decode .command [0b00001011#8]).toOption = some (.illegal0B, []) := by decide
theorem test_decode_illegal0C : (decode .command [0b00001100#8]).toOption = some (.illegal0C, []) := by decide
theorem test_decode_illegal0D : (decode .command [0b00001101#8]).toOption = some (.illegal0D, []) := by decide
theorem test_decode_illegal0E : (decode .command [0b00001110#8]).toOption = some (.illegal0E, []) := by decide
/-- V125: 0x1F is not an ABORT. -/
theorem test_decode_illegalRsv :
    (decode .command [0b00011111#8]).toOption = some (.illegalRsv 0b0001 0b1111, []) := by decide
theorem test_decode_wireStart : (decode .hunt [0b11111111#8]).toOption = some (.wireStart, []) := by decide
theorem test_decode_wireNoise : (decode .hunt [0b11111110#8]).toOption = some (.wireNoise 0xFE, []) := by decide
theorem test_decode_wireLength : (decode .length [0b00001100#8]).toOption = some (.wireLength 12, []) := by decide
/-- V20: byte0 = 0x6A = {01, 101010}. -/
theorem test_decode_wireId0 :
    (decode .id0 [0b01101010#8]).toOption = some (.wireId0 0b01 0b101010, []) := by decide
/-- V20: byte1 = 0x56 = {010101, 10}. -/
theorem test_decode_wireId1 :
    (decode .id1 [0b01010110#8]).toOption = some (.wireId1 0b010101 0b10, []) := by decide
theorem test_decode_wireId2 : (decode .id2 [0b11111110#8]).toOption = some (.wireId2 0xFE, []) := by decide
theorem test_decode_wireId3 : (decode .id3 [0b11111111#8]).toOption = some (.wireId3 0xFF, []) := by decide
/-- V50: ALT alone is a literal. -/
theorem test_decode_wireLiteral :
    (decode .payload [0b11111101#8, 0x55#8]).toOption = some (.wireLiteral 0xFD, [0x55]) := by decide
theorem test_decode_wireEscStart :
    (decode .payload [0b11111110#8, 0b11111110#8, 0x55#8]).toOption = some (.wireEscStart, [0x55]) := by decide
theorem test_decode_wireEscEsc :
    (decode .payload [0b11111110#8, 0b11111101#8]).toOption = some (.wireEscEsc, []) := by decide
theorem test_decode_wireEscInvalid :
    (decode .payload [0b11111110#8, 0b00000111#8]).toOption = some (.wireEscInvalid 7, []) := by decide
theorem test_decode_halfUnit : (decode .payload [0xFE#8]).toOption = none := by decide
theorem test_decode_table :
    decodeTableWord 8 0x09 = some .xqry ∧ decodeTableWord 8 0xFF = some .wireStart ∧
      decodeTableWord 16 0xFEFD = some .wireEscEsc ∧ decodeTableWord 16 0x00FE = none := by decide
/-- R102: LDMSG and DO as bus cycles (P1's encoding). -/
theorem test_assemble :
    assemble [.ldmsg .req 5 1 2 2 2 [0x34, 0x12], .doCmd 1] =
      [.write 0x10 5, .write 0x11 1, .write 0x12 2, .write 0x13 2, .write 0x14 2, .write 0x15 2, .write 0x18 0x34,
       .write 0x19 0x12, .write 0x00 1, .wait] := by decide

/-! ### One step of each instruction -/

/-- V120. -/
theorem test_nop : after (exec .nop State.reset) (fun t => result t ++ [t.lastCmd]) = some [0x00, 0x00, 0x02, 0x00] := by
  decide
/-- V130: the accept clears HOST_OVR. -/
theorem test_nop_clears_hostOvr : after (exec .nop { State.reset with hostOvr := true }) (·.status) = some 0x02 := by
  decide
/-- V2. -/
theorem test_enc_stuffs :
    after (exec .enc { running 0x1 0x0 with req := msg 0 0 0 0 0 [0xFF, 0xFE] })
      (fun t => (Memory.readList t.mem 0x40 11, result t ++ [t.txPlen])) =
      some ([0xFF, 0x06, 0x00, 0x00, 0x00, 0x00, 0xFE, 0xFE, 0xFE, 0xFD, 0x00], [0x00, 0x00, 0x0A, 0x0A]) := by
  decide
/-- V37. -/
theorem test_enc_bad_size :
    after (exec .enc { running 0x1 0x0 with req := { Bank.zero with dataSize := 9 } })
      (fun t => result t ++ [t.txPlen]) = some [0x07, 0x09, 0x06, 0x00] := by
  decide
/-- V41. -/
theorem test_dec_unstuffs :
    after (exec .dec { running 0x2 0x0 with
        mem := stored 0x60 [0xFF, 0x06, 0x00, 0x00, 0x00, 0x00, 0xFE, 0xFE, 0xFE, 0xFD] })
      (fun t => (result t, t.rx)) = some ([0x00, 0x00, 0x12], msg 0 0 0 0 0 [0xFF, 0xFE]) := by
  decide
/-- V49: the first invalid pair in walk order is reported. -/
theorem test_dec_first_invalid :
    after (exec .dec { running 0x2 0x0 with
        mem := stored 0x60 [0xFF, 0x06, 0x00, 0x00, 0x00, 0x00, 0xFE, 0x01, 0xFE, 0x02] })
      (fun t => (result t, t.rx)) = some ([0x03, 0x01, 0x06], Bank.zero) := by
  decide
/-- V75: the whole frame in one ChanWrite. -/
theorem test_send_writes :
    after (exec .send { running 0x3 0x1 with
        mem := stored 0x40 [0xFF, 0x06, 0x85, 0x04, 0x02, 0x02, 0x34, 0x12], txPlen := 8, txValid := true,
        txReq := true, chanOut := [.ok] })
      (fun t => (result t, t.sent)) =
      some ([0x00, 0x00, 0x0A], [⟨[0xFF, 0x06, 0x85, 0x04, 0x02, 0x02, 0x34, 0x12], .ok⟩]) := by
  decide
/-- V76: TX_VALID stays 1 after TRANSPORT_TX. -/
theorem test_send_err :
    after (exec .send { running 0x3 0x1 with
        txPlen := 8, txValid := true, txReq := true, chanOut := [.err 3] }) result = some [0x02, 0x02, 0x0E] := by
  decide
/-- V64, from the hunt. -/
theorem test_recv_err :
    after (exec .recv { receiving .hunt 0 0 0 with chanIn := [.err] })
      (fun t => result t ++ [t.peek 0x04]) = some [0x01, 0x02, 0x06, 0x01] := by
  decide
/-- V133: while RECV hunts SEQ is 0x04 and STATUS is 0x01. -/
theorem test_recv_accept :
    after (exec .recv State.reset) (fun t => [t.peek 0x0C, t.peek 0x01]) = some [0x04, 0x01] := by
  decide
/-- V83 and V84, under CFG_EX. -/
theorem test_vack_mask :
    ackMask cfgEx (msg 5 1 2 2 2 []) (msg 6 1 2 3 4 []) = 0x1B ∧
      ackMask cfgEx (msg 0 0 0 0 0 []) (msg 0 0 0 0 0 []) = 0x1A := by
  decide
/-- V80, under CFG_EX. -/
theorem test_vack_passes :
    ackMask cfgEx (msg 5 1 2 2 2 []) (msg 5 8 3 2 2 []) = 0x00 := by
  decide
/-- V86. -/
theorem test_vdrep_index :
    after (exec .vdrep { running 0x6 0x0 with req := msg 5 1 2 2 2 [], rx := msg 5 1 3 2 2 [] }) result =
      some [0x06, 0x04, 0x06] := by
  decide
/-- V88. -/
theorem test_vdrep_passes :
    after (exec .vdrep { running 0x6 0x0 with req := msg 63 63 15 255 255 [], rx := msg 63 63 15 255 255 [] }) result =
      some [0x00, 0x00, 0x02] := by
  decide
/-- V90 and V92, under CFG_EX. -/
theorem test_vsrep_mask :
    srepMask cfgEx (msg 0 0 1 0 0 []) (msg 0 0 1 2 2 []) = 0x18 ∧
      srepMask cfgEx (msg 5 9 1 2 2 []) (msg 4 9 2 2 2 []) = 0x1F := by
  decide
/-- V91, under CFG_EX. -/
theorem test_vsrep_passes : srepMask cfgEx (msg 5 9 1 2 2 []) (msg 5 0 1 0 0 []) = 0x00 := by decide
/-- V104: BAD_SIZE at stage 1. -/
theorem test_xcmd_bad_size :
    after (exec .xcmd { running 0x8 0x0 with req := { Bank.zero with dataSize := 9 } }) result =
      some [0x17, 0x09, 0x06] := by
  decide
/-- V103: the channel closes before the acknowledgement. -/
theorem test_xcmd_eof :
    after (exec .xcmd { running 0x8 0x2 with txValid := true, rxReq := true, dfrState := .hunt, chanIn := [.eof] })
      result = some [0x21, 0x01, 0x0E] := by
  decide
/-- V105: the reply's api_index is wrong. -/
theorem test_xqry_reply :
    after (exec .xqry { running 0x9 0x4 with
        txValid := true, rxValid := true, req := msg 5 1 2 2 2 [], rx := msg 5 1 3 2 2 [0, 0] })
      (fun t => (result t, t.rpl)) = some ([0x26, 0x04, 0x1E], Bank.zero) := by
  decide
/-- V108: the channel closes before the second response. -/
theorem test_xqry_second :
    after (exec .xqry { running 0x9 0x6 with
        txValid := true, rplValid := true, rxReq := true, dfrState := .hunt, chanIn := [.eof] }) result =
      some [0x31, 0x01, 0x2E] := by
  decide
/-- R82: XSQRY's accept clears RPL_VALID; SEQ reads 0x0A. -/
theorem test_xsqry_accept :
    after (exec .xsqry { State.reset with rplValid := true }) (fun t => [t.peek 0x0C, t.peek 0x01]) =
      some [0x0A, 0x01] := by
  decide
/-- R174: COPY_RPL in XSQRY. -/
theorem test_xsqry_copy :
    after (exec .xsqry { running 0xA 0x5 with rx := msg 0 0 1 0 0 [] })
      (fun t => (t.rpl, t.rplValid, t.seqIdx)) = some (msg 0 0 1 0 0 [], true, 6) := by
  decide
/-- V127. -/
theorem test_abort_idle :
    after (exec .abort State.reset) (fun t => result t ++ [t.lastCmd]) = some [0x00, 0x00, 0x02, 0x0F] := by
  decide
/-- V131: XCMD aborted while it waits in SYNC. -/
theorem test_abort_busy :
    after (exec .abort { running 0x8 0x2 with txValid := true, rxReq := true, dfrState := .hunt })
      (fun t => result t ++ [t.lastCmd, t.peek 0x04, t.peek 0x0C]) = some [0x29, 0x00, 0x0E, 0x08, 0x01, 0x00] := by
  decide
/-- V122. -/
theorem test_illegal0B :
    after (exec .illegal0B State.reset) (fun t => result t ++ [t.lastCmd]) = some [0x08, 0x0B, 0x06, 0x0B] := by
  decide
theorem test_illegal0C : after (exec .illegal0C State.reset) result = some [0x08, 0x0C, 0x06] := by decide
theorem test_illegal0D : after (exec .illegal0D State.reset) result = some [0x08, 0x0D, 0x06] := by decide
/-- V123. -/
theorem test_illegal0E : after (exec .illegal0E State.reset) result = some [0x08, 0x0E, 0x06] := by decide
/-- V126. -/
theorem test_illegalRsv : after (exec (.illegalRsv 0x8 0xF) State.reset) result = some [0x08, 0x8F, 0x06] := by decide
/-- V60: START is stored at RXBUF[0]. -/
theorem test_wireStart :
    after (exec .wireStart (receiving .hunt 0 0 0)) (fun t => [t.rxbuf 0, t.peek 0x08, t.peek 0x04]) =
      some [0xFF, 0x01, 0x02] := by
  decide
/-- V63: two noise bytes read DISCARD = 2; the second of them. -/
theorem test_wireNoise :
    after (exec (.wireNoise 0x02) { receiving .hunt 0 0 0 with discard := 1 })
      (fun t => [t.peek 0x0A, t.peek 0x0B, t.peek 0x04]) = some [0x02, 0x00, 0x01] := by
  decide
/-- R35: DISCARD saturates. -/
theorem test_wireNoise_saturates :
    after (exec (.wireNoise 0x02) { receiving .hunt 0 0 0 with discard := 0xFFFF }) (·.discard) = some 0xFFFF := by
  decide
/-- V67: the length byte 0x0D is stored and refused. -/
theorem test_wireLength_bad :
    after (exec (.wireLength 0x0D) (receiving .len 0 1 0))
      (fun t => result t ++ [t.rxLen, t.rxPlen, t.rxbuf 1, t.peek 0x04]) =
      some [0x04, 0x0D, 0x06, 0x0D, 0x02, 0x0D, 0x02] := by
  decide
/-- V62: the length byte 4 is in range. -/
theorem test_wireLength :
    after (exec (.wireLength 0x04) (receiving .len 0 1 0)) (fun t => [t.rxLen, t.rxPlen, t.peek 0x04]) =
      some [0x04, 0x02, 0x03] := by
  decide
/-- V65: byte0 = 0x85. -/
theorem test_wireId0 :
    after (exec (.wireId0 0b10 0b000101) (receiving .id 0 2 6)) (fun t => [t.rxbuf 2, t.rxPlen, t.dfrUnits]) =
      some [0x85, 0x03, 0x01] := by
  decide
/-- V65: byte1 = 0x04. -/
theorem test_wireId1 :
    after (exec (.wireId1 0b000001 0b00) (receiving .id 1 3 6)) (fun t => [t.rxbuf 3, t.rxPlen, t.dfrUnits]) =
      some [0x04, 0x04, 0x02] := by
  decide
/-- V22: an identifier byte with the value ESC is one raw unit. -/
theorem test_wireId2 :
    after (exec (.wireId2 0xFE) (receiving .id 2 4 4)) (fun t => [t.rxbuf 4, t.rxPlen, t.dfrUnits, t.peek 0x04]) =
      some [0xFE, 0x05, 0x03, 0x03] := by
  decide
/-- V62: with length 4 the frame ends at the fourth identifier byte, and DECODE is due. -/
theorem test_wireId3_ends :
    after (exec (.wireId3 0x02) (receiving .id 3 5 4))
      (fun t => [t.rxPlen, t.dfrUnits, t.peek 0x04, t.peek 0x0C]) = some [0x06, 0x04, 0x06, 0x14] := by
  decide
/-- V60: the last literal of the frame. -/
theorem test_wireLiteral_ends :
    after (exec (.wireLiteral 0x12) (receiving .body 5 7 6))
      (fun t => [t.rxbuf 7, t.rxPlen, t.dfrUnits, t.rxOvh, t.peek 0x04]) = some [0x12, 0x08, 0x06, 0x00, 0x06] := by
  decide
/-- V61: the first escape pair counts one unit. -/
theorem test_wireEscStart :
    after (exec .wireEscStart (receiving .esc 4 7 6))
      (fun t => [t.rxbuf 7, t.rxPlen, t.dfrUnits, t.rxOvh, t.peek 0x04]) = some [0xFE, 0x08, 0x05, 0x01, 0x04] := by
  decide
/-- V61: the second escape pair ends the frame. -/
theorem test_wireEscEsc :
    after (exec .wireEscEsc { receiving .esc 5 9 6 with rxOvh := 1 })
      (fun t => [t.rxbuf 9, t.rxPlen, t.dfrUnits, t.rxOvh, t.peek 0x04]) = some [0xFD, 0x0A, 0x06, 0x02, 0x06] := by
  decide
/-- V70: SYNC stores the pair FE 07 and goes on. -/
theorem test_wireEscInvalid :
    after (exec (.wireEscInvalid 0x07) (receiving .esc 4 7 6))
      (fun t => [t.rxbuf 7, t.rxPlen, t.dfrUnits, t.rxOvh, t.peek 0x04]) = some [0x07, 0x08, 0x05, 0x01, 0x04] := by
  decide

/-! ### One step of the machine: fetch, the host's accesses, the placed word -/

/-- V129: a write to REQ.DEVICE while busy is lost and noted. -/
theorem test_step_lost_write :
    after (step { receiving .hunt 0 0 0 with turns := [.host], host := [.write 0x10 0x07] })
      (fun t => [t.peek 0x10, t.peek 0x01]) = some [0x00, 0x41] := by
  decide
/-- V135: the reserved bits of REQ.DEVICE are dropped. -/
theorem test_step_masked_write : after (step (hostAt (.write 0x10 0xC5))) (·.peek 0x10) = some 0x05 := by decide
/-- V137: RPL is read-only. -/
theorem test_step_readonly_write :
    after (step (hostAt (.write 0x30 0x01))) (fun t => [t.peek 0x30, t.peek 0x01]) = some [0x00, 0x00] := by
  decide
/-- V122, through the bus. -/
theorem test_step_command : after (step (hostAt (.write 0x00 0x0B))) result = some [0x08, 0x0B, 0x06] := by decide
theorem test_step_fetchWord :
    after (step (State.reset.withFetchWord 8 0x04)) (·.peek 0x0C) = some 0x04 ∧
      after (step (State.reset.withFetchWord 8 0xFF)) (·.rxbuf 0) = some 0xFF ∧
      after (step (State.reset.withFetchWord 16 0xFE07)) (·.rxbuf 7) = some 0x07 := by
  decide

/-- R250 resets while `rst` is asserted and at its release; log 14: driving a low line low resets nothing. -/
theorem test_step_rst_low_stays :
    after (step { receiving .body 5 7 6 with turns := [.rst false] }) (fun t => [t.peek 0x01, t.peek 0x05, t.peek 0x0C]) =
      some [0x01, 0x05, 0x04] ∧
    after (step { receiving .body 5 7 6 with turns := [.rst true] }) (fun t => [t.peek 0x01, t.peek 0x05, t.peek 0x0C]) =
      some [0x00, 0x00, 0x00] := by
  decide
/-- R29, R31, R33: codes of a failed exchange, read back. -/
theorem test_peek_codes :
    ({ State.reset with errCode := .aborted, errStage := .second } : State).peek 0x02 = 0x39 ∧
      ({ State.reset with dfrState := .esc } : State).peek 0x04 = 0x05 := by
  decide

/-! ### Witnesses: the hypotheses of each obligation met together -/

/-- The reset state at the place of a row of R31's table. -/
def atRun (r : PhaseRun) : State := running r.op r.idx

theorem atRun_runs (r : PhaseRun) : (atRun r).runs r.op r.idx := ⟨rfl, rfl, rfl⟩

theorem hostAt_inv (op : HostOp) : (hostAt op).Inv :=
  inv_env (inv_reset State.reset false) [.host] [op] [] [] [] []

theorem reset_inv : State.reset.Inv := inv_reset State.reset false

theorem witness_DecodeOfEncodeIsTheInstruction :
    (Instr.illegalRsv 0xF 0x0).wf = true ∧ (Instr.wireNoise 0x00).wf = true ∧ (Instr.wireLiteral 0xFD).wf = true ∧
      (Instr.wireEscInvalid 0xFC).wf = true ∧ Instr.xsqry.wf = true ∧ (Instr.wireId0 0x3 0x3F).wf = true := by
  decide

theorem witness_DecodedBytesAreTheInstructionsEncoding :
    decode .payload [0xFE, 0xFC, 0x55] = .ok (.wireEscInvalid 0xFC, [0x55]) ∧
      decode .command [0xF0] = .ok (.illegalRsv 0xF 0x0, []) := by
  exact ⟨rfl, rfl⟩

/-- Sizes 8 and 9, where the two clauses meet. -/
theorem witness_EncodeWritesTheFrameOrRaisesBadSize :
    ∀ r ∈ encodeRuns,
      (({ atRun r with req := { Bank.zero with dataSize := 8 } } : State).runs r.op r.idx ∧
        Memory.wf (atRun r).mem ∧ ({ Bank.zero with dataSize := 8 } : Bank).dataSize.toNat ≤ 8) ∧
      (({ atRun r with req := { Bank.zero with dataSize := 9 } } : State).runs r.op r.idx ∧
        8 < ({ Bank.zero with dataSize := 9 } : Bank).dataSize.toNat) := fun r _ =>
  ⟨⟨⟨rfl, rfl, rfl⟩, Memory.wf_nil, by decide⟩, ⟨rfl, rfl, rfl⟩, by decide⟩

theorem witness_PhysicalSizeCountsTheSpecialBytes :
    ∀ r ∈ encodeRuns,
      ({ atRun r with req := msg 1 2 3 4 5 (List.replicate 8 0xFF) } : State).runs r.op r.idx ∧
        Memory.wf (atRun r).mem ∧ (msg 1 2 3 4 5 (List.replicate 8 0xFF)).dataSize.toNat ≤ 8 := fun _ _ =>
  ⟨⟨rfl, rfl, rfl⟩, Memory.wf_nil, by decide⟩

/-- Lengths 3 and 13, next to the legal range. -/
theorem witness_DecodeRejectsABadLength :
    ∀ r ∈ decodeRuns,
      (({ atRun r with mem := stored 0x61 [3] } : State).runs r.op r.idx ∧
        (({ atRun r with mem := stored 0x61 [3] } : State).rxbuf 1).toNat < 4) ∧
      (({ atRun r with mem := stored 0x61 [13] } : State).runs r.op r.idx ∧
        12 < (({ atRun r with mem := stored 0x61 [13] } : State).rxbuf 1).toNat) := by
  intro r hr
  refine ⟨⟨⟨rfl, rfl, rfl⟩, ?_⟩, ⟨rfl, rfl, rfl⟩, ?_⟩ <;> (revert r; decide)

/-- V41's buffer: two units, four bytes. -/
theorem witness_DecodeReadsTheUnits :
    ∀ r ∈ decodeRuns,
      let w : State := { atRun r with mem := stored 0x60 [0xFF, 0x06, 0, 0, 0, 0, 0xFE, 0xFE, 0xFE, 0xFD] }
      w.runs r.op r.idx ∧ 4 ≤ (w.rxbuf 1).toNat ∧ (w.rxbuf 1).toNat ≤ 12 ∧
        [Instr.wireEscStart, .wireEscEsc].length = (w.rxbuf 1).toNat - 4 ∧
        [Instr.wireEscStart, .wireEscEsc].map unitValue = [0xFF#8, 0xFE#8].map some ∧
        ∀ k, k < ([Instr.wireEscStart, .wireEscEsc].flatMap encode).length →
          w.rxbuf (6 + k) = ([Instr.wireEscStart, .wireEscEsc].flatMap encode).getD k 0x00#8 := by
  intro r hr
  refine ⟨⟨rfl, rfl, rfl⟩, ?_⟩
  revert r
  decide

/-- V42's buffer: no unit, length 4. -/
theorem witness_DecodeReadsTheUnits_empty :
    ∀ r ∈ decodeRuns,
      let w : State := { atRun r with mem := stored 0x60 [0xFF, 0x04, 0x85, 0x04, 0x02, 0x02] }
      w.runs r.op r.idx ∧ 4 ≤ (w.rxbuf 1).toNat ∧ (w.rxbuf 1).toNat ≤ 12 ∧
        ([] : List Instr).length = (w.rxbuf 1).toNat - 4 := by
  intro r hr
  refine ⟨⟨rfl, rfl, rfl⟩, ?_⟩
  revert r
  decide

/-- V48's buffer: a literal, then FE FC. -/
theorem witness_DecodeRaisesAtTheFirstInvalidPair :
    ∀ r ∈ decodeRuns,
      let w : State := { atRun r with mem := stored 0x60 [0xFF, 0x06, 0, 0, 0, 0, 0x11, 0xFE, 0xFC] }
      w.runs r.op r.idx ∧ 4 ≤ (w.rxbuf 1).toNat ∧ (w.rxbuf 1).toNat ≤ 12 ∧
        [Instr.wireLiteral 0x11].length < (w.rxbuf 1).toNat - 4 ∧
        [Instr.wireLiteral 0x11].map unitValue = [0x11#8].map some ∧ (0xFC#8 ≠ 0xFE#8) ∧ (0xFC#8 ≠ 0xFD#8) ∧
        ∀ k, k < ([Instr.wireLiteral 0x11].flatMap encode ++ [0xFE#8, 0xFC#8]).length →
          w.rxbuf (6 + k) = ([Instr.wireLiteral 0x11].flatMap encode ++ [0xFE#8, 0xFC#8]).getD k 0x00#8 := by
  intro r hr
  refine ⟨⟨rfl, rfl, rfl⟩, ?_⟩
  revert r
  decide

/-- V31's message; the second state holds in RXBUF what ENC leaves in TXBUF. -/
theorem witness_DecodingInvertsEncoding :
    ∀ r ∈ encodeRuns, ∀ d ∈ decodeRuns,
      ({ atRun r with req := msg 5 1 2 2 2 [0x34, 0x12] } : State).runs r.op r.idx ∧ Memory.wf (atRun r).mem ∧
        (msg 5 1 2 2 2 [0x34, 0x12]).dataSize.toNat ≤ 8 ∧
        ({ atRun d with
            mem := stored 0x60 [0xFF, 0x06, 0x85, 0x04, 0x02, 0x02, 0x34, 0x12] } : State).runs d.op d.idx :=
  fun _ _ _ _ => ⟨⟨rfl, rfl, rfl⟩, Memory.wf_nil, by decide, rfl, rfl, rfl⟩

theorem witness_DecodingInvertsEncoding_buffers :
    ∃ t : State, exec .enc { running 0x1 0x0 with req := msg 5 1 2 2 2 [0x34, 0x12] } = .next t ∧
      ∀ k, k < t.txPlen.toNat →
        ({ running 0x2 0x0 with
            mem := stored 0x60 [0xFF, 0x06, 0x85, 0x04, 0x02, 0x02, 0x34, 0x12] } : State).rxbuf k = t.txbuf k :=
  ⟨_, rfl, by decide⟩

theorem witness_AcceptStartsTheCommand :
    (0x01 ≤ (0x01#8).toNat ∧ (0x01#8).toNat ≤ 0x0A) ∧ (0x01 ≤ (0x0A#8).toNat ∧ (0x0A#8).toNat ≤ 0x0A) ∧
      State.reset.busy = false := by
  decide

theorem witness_NopOnlyCompletes : State.reset.busy = false := rfl

theorem witness_AbortEndsTheRunningCommand :
    State.reset.busy = false ∧
      ∀ r ∈ encodeRuns ++ writeRuns ++ syncRuns ++ decodeRuns ++ ackRuns ++ drepRuns ++ srepRuns ++ copyRuns,
        (atRun r).runs r.op r.idx :=
  ⟨rfl, fun r _ => atRun_runs r⟩

theorem witness_IllegalByteCompletesWithIllegalCmd :
    0x10 ≤ (0x10#8).toNat ∧ (0x0B ≤ (0x0B#8).toNat ∧ (0x0B#8).toNat ≤ 0x0E) ∧
      (0x0B ≤ (0x0E#8).toNat ∧ (0x0E#8).toNat ≤ 0x0E) ∧ State.reset.busy = false ∧ (running 0x4 0x0).busy = true := by
  decide

/-- An idle block and XCMD; a busy one and ABORT. -/
theorem witness_StepRunsTheCommandTheHostWrites :
    ((hostAt (.write 0x00 0x08)).turns = .host :: [] ∧ (hostAt (.write 0x00 0x08)).host = .write 0x00#8 0x08 :: [] ∧
      (hostAt (.write 0x00 0x08)).rst = false ∧ (hostAt (.write 0x00 0x08)).busy = false) ∧
    ∃ s : State, s.turns = .host :: [] ∧ s.host = .write 0x00#8 0x0F#8 :: [] ∧ s.rst = false ∧ s.busy = true :=
  ⟨by decide, { running 0x8 0x2 with turns := [.host], host := [.write 0x00 0x0F] }, by decide⟩

/-- Busy: a store, a command and ABORT; idle: the first and last read-only locations. -/
theorem witness_WritesWhileBusyAreLost :
    (∀ op ∈ [HostOp.write 0x10 0x07, .write 0x00 0x08, .write 0x00 0x0F],
      ({ running 0x8 0x2 with turns := [.host], host := [op] } : State).turns = .host :: [] ∧
        ({ running 0x8 0x2 with turns := [.host], host := [op] } : State).rst = false ∧
        ({ running 0x8 0x2 with turns := [.host], host := [op] } : State).busy = true) ∧
    ∀ a ∈ [0x01#8, 0x0F#8, 0x30#8, 0x5F#8, 0x76#8, 0xFF#8],
      (hostAt (.write a 1)).turns = .host :: [] ∧ (hostAt (.write a 1)).host = .write a 1 :: [] ∧
        (hostAt (.write a 1)).rst = false ∧ (hostAt (.write a 1)).busy = false ∧ a ≠ 0x00#8 ∧
        (a.toNat < 0x10 ∨ (0x30 ≤ a.toNat ∧ a.toNat < 0x60) ∨ 0x76 ≤ a.toNat) := by
  decide

theorem witness_IdleWriteStoresTheWritableBits :
    ∀ a ∈ [0x10#8, 0x2F#8, 0x60#8, 0x75#8],
      (hostAt (.write a 1)).turns = .host :: [] ∧ (hostAt (.write a 1)).host = .write a 1 :: [] ∧
        (hostAt (.write a 1)).rst = false ∧ (hostAt (.write a 1)).busy = false ∧ Memory.wf (hostAt (.write a 1)).mem ∧
        ((0x10 ≤ a.toNat ∧ a.toNat < 0x30) ∨ (0x60 ≤ a.toNat ∧ a.toNat < 0x76)) := by
  decide

theorem witness_HostReadsChangeNothing :
    (hostAt (.read 0x01)).turns = .host :: [] ∧ (hostAt (.read 0x01)).host = .read 0x01 :: [] ∧
      (hostAt (.read 0x01)).rst = false := by
  decide

theorem witness_ReservedLocationsReadZero :
    ∀ a ∈ [0x0D#8, 0x0F#8, 0x56#8, 0x5F#8, 0x76#8, 0xFF#8, 0x16#8, 0x17#8, 0x26#8, 0x37#8],
      ((0x0D ≤ a.toNat ∧ a.toNat ≤ 0x0F) ∨ (0x56 ≤ a.toNat ∧ a.toNat ≤ 0x5F) ∨ 0x76 ≤ a.toNat ∨
        ((0x10 ≤ a.toNat ∧ a.toNat < 0x40) ∧ (a.toNat % 16 = 6 ∨ a.toNat % 16 = 7))) ∧
      (hostAt (.write a 1)).turns = .host :: [] ∧ (hostAt (.write a 1)).host = .write a 1 :: [] ∧
        (hostAt (.write a 1)).rst = false ∧ (hostAt (.write a 1)).busy = false := by
  decide

theorem witness_WaitPollsStatusUntilIdle :
    (hostAt .wait).turns = .host :: [] ∧ (hostAt .wait).host = .wait :: [] ∧ (hostAt .wait).rst = false := by
  decide

/-- A command killed by an assertion; a release; a low line driven low. -/
theorem witness_ResetLineClearsTheRegistersOnly :
    (({ receiving .body 5 7 6 with turns := [.rst true] } : State).turns = .rst true :: [] ∧
      (true = true ∨ (receiving .body 5 7 6).rst = true)) ∧
    (({ State.reset with rst := true, turns := [.rst false] } : State).turns = .rst false :: [] ∧
      (false = true ∨ ({ State.reset with rst := true, turns := [.rst false] } : State).rst = true)) ∧
    ({ receiving .body 5 7 6 with turns := [.rst false] } : State).turns = .rst false :: [] ∧
      ({ receiving .body 5 7 6 with turns := [.rst false] } : State).rst = false := by
  decide

theorem witness_NothingHappensDuringReset :
    ∃ w r p b : State,
      (w.rst = true ∧ w.turns = .host :: [] ∧ w.host = .write 0x00#8 0x08#8 :: []) ∧
      (r.rst = true ∧ r.turns = .host :: [] ∧ r.host = .read 0x01#8 :: []) ∧
      (p.rst = true ∧ p.turns = .host :: [] ∧ p.host = .wait :: []) ∧ b.rst = true ∧ b.turns = .block :: [] :=
  ⟨{ hostAt (.write 0x00 0x08) with rst := true }, { hostAt (.read 0x01) with rst := true },
    { hostAt .wait with rst := true }, { State.reset with rst := true, turns := [.block] }, by decide⟩

/-- The four cases of WRITE, with the longest frame. -/
theorem witness_WriteHandsOverTheWholeFrame :
    ∀ r ∈ writeRuns, ∀ (q : Bool) (c : List TxAnswer),
      ({ atRun r with txPlen := 22, txReq := q, chanOut := c } : State).runs r.op r.idx ∧
        ({ atRun r with txPlen := 22, txReq := q, chanOut := c } : State).txPlen.toNat ≤ 22 := fun _ _ _ _ =>
  ⟨⟨rfl, rfl, rfl⟩, Nat.le_refl 22⟩

/-- SEND of the reset REQ, its frame offered and answered. -/
def sending : State :=
  { running 0x3 0x1 with
    mem := stored 0x40 [0xFF, 0x04], txPlen := 6, txValid := true, txReq := true, chanOut := [.ok] }

theorem sending_inv : sending.Inv :=
  ⟨by decide, by decide, by decide, by decide, by decide, by decide, by decide, by decide, by decide,
    ⟨rfl, rfl, rfl, rfl, rfl⟩, by decide⟩

theorem witness_EveryFrameSentIsTheRequestsEncoding :
    sending.Inv ∧ ∃ t : State, step sending = .next t ∧ t.sent = [⟨[0xFF, 0x04, 0x00, 0x00, 0x00, 0x00], .ok⟩] :=
  ⟨sending_inv, _, rfl, by decide⟩

theorem witness_SyncStartClearsTheReceiver :
    ∀ r ∈ syncRuns, (atRun r).runs r.op r.idx ∧ (atRun r).rxReq = false ∧ Memory.wf (atRun r).mem := fun r _ =>
  ⟨atRun_runs r, rfl, Memory.wf_nil⟩

theorem witness_ChannelFailureIsTransportRx :
    ∀ r ∈ syncRuns, ∀ a ∈ [RxAnswer.eof, .err],
      ({ atRun r with rxReq := true, chanIn := [a] } : State).runs r.op r.idx ∧
        ({ atRun r with rxReq := true, chanIn := [a] } : State).rxReq = true := fun _ _ _ _ =>
  ⟨⟨rfl, rfl, rfl⟩, rfl⟩

theorem witness_TheBlockHoldsForASilentChannel :
    ∃ u w : State,
      (u.turns = .block :: [] ∧ u.rst = false ∧ u.busy = true ∧ u.phase = some .sync ∧ u.rxReq = true ∧ u.chanIn = []) ∧
      w.turns = .block :: [] ∧ w.rst = false ∧ w.busy = true ∧ w.phase = some .write ∧ w.txPlen.toNat ≤ 22 ∧
        w.txReq = true ∧ w.chanOut = [] :=
  ⟨{ receiving .hunt 0 0 0 with turns := [.block] }, { sending with turns := [.block], chanOut := [] }, by decide⟩

theorem witness_HuntFindsStart :
    (receiving .hunt 0 0 0).phase = some .sync ∧ (receiving .hunt 0 0 0).rxReq = true ∧
      (receiving .hunt 0 0 0).dfrState = .hunt ∧ Memory.wf (receiving .hunt 0 0 0).mem ∧
      (0x00#8 ≠ 0xFF#8 ∧ 0xFE#8 ≠ 0xFF#8) := by
  decide

/-- A row of R31's table where SYNC waits for a byte. -/
def syncAt (r : PhaseRun) (d : DfrState) (units plen len : Byte) : State :=
  { receiving d units plen len with lastCmd := 0x0#4 ++ r.op, seqOp := r.op, seqIdx := r.idx }

/-- The lengths where the two clauses meet are 3, 4, 12 and 13. -/
theorem witness_LengthByteIsStoredThenChecked :
    (∀ r ∈ syncRuns, (syncAt r .len 0 1 0).runs r.op r.idx ∧ (syncAt r .len 0 1 0).rxReq = true ∧
      (syncAt r .len 0 1 0).dfrState = .len ∧ Memory.wf (syncAt r .len 0 1 0).mem) ∧
    (4 ≤ (4#8).toNat ∧ (4#8).toNat ≤ 12) ∧ (4 ≤ (12#8).toNat ∧ (12#8).toNat ≤ 12) ∧
      ((3#8).toNat < 4 ∨ 12 < (3#8).toNat) ∧ ((13#8).toNat < 4 ∨ 12 < (13#8).toNat) :=
  ⟨fun _ _ => ⟨⟨rfl, rfl, rfl⟩, rfl, rfl, Memory.wf_nil⟩, by decide⟩

/-- Length 4, where the fourth byte ends SYNC, and length 5, where it goes to BODY. -/
theorem witness_IdentifierBytesAreRawUnits :
    ∀ r ∈ syncRuns, ∀ u ∈ [0x00#8, 0x01#8, 0x02#8, 0x03#8], ∀ len ∈ [0x04#8, 0x05#8],
      (syncAt r .id u (2 + u) len).runs r.op r.idx ∧ (syncAt r .id u (2 + u) len).rxReq = true ∧
        (syncAt r .id u (2 + u) len).dfrState = .id ∧ (syncAt r .id u (2 + u) len).rxPlen.toNat < 22 ∧
        Memory.wf (syncAt r .id u (2 + u) len).mem ∧ (syncAt r .id u (2 + u) len).dfrUnits = u ∧
        (syncAt r .id u (2 + u) len).rxLen = len := by
  intro r hr u hu len _
  refine ⟨⟨rfl, rfl, rfl⟩, rfl, rfl, ?_, Memory.wf_nil, rfl, rfl⟩
  show (2 + u).toNat < 22
  revert u
  decide

/-- The branch to BODY at RX_LEN = 5. -/
theorem witness_IdentifierBytesAreRawUnits_body :
    after (exec (.wireId3 0xFF) (syncAt ⟨.recv, 0x4, 0, false, .outside⟩ .id 3 5 5))
      (fun t => (t.dfrState, t.rxPlen, t.dfrUnits, t.rxReq)) = some (.body, 0x06, 0x04, true) := by
  decide

/-- Length 12: the first unit, and the last with eight bytes stored before it. -/
theorem witness_LiteralUnitIsStored :
    (0x42#8 ≠ 0xFE#8) ∧ (0xFF#8 ≠ 0xFE#8) ∧ ∀ r ∈ syncRuns, ∀ e ∈ [(0x04#8, 0x06#8), (0x0B#8, 0x0D#8)],
      (syncAt r .body e.1 e.2 12).runs r.op r.idx ∧ (syncAt r .body e.1 e.2 12).rxReq = true ∧
        (syncAt r .body e.1 e.2 12).dfrState = .body ∧ (syncAt r .body e.1 e.2 12).rxPlen.toNat < 22 ∧
        (syncAt r .body e.1 e.2 12).dfrUnits.toNat < (syncAt r .body e.1 e.2 12).rxLen.toNat ∧
        Memory.wf (syncAt r .body e.1 e.2 12).mem := by
  refine ⟨by decide, by decide, ?_⟩
  intro r _ e he
  have h : e.2.toNat < 22 ∧ e.1.toNat < 12 := by
    rcases List.mem_pair.mp he with rfl | rfl <;> simp
  refine ⟨⟨rfl, rfl, rfl⟩, rfl, rfl, ?_, ?_, Memory.wf_nil⟩
  · rw [show (syncAt r .body e.1 e.2 12).rxPlen = e.2 from rfl]; exact h.1
  · rw [show (syncAt r .body e.1 e.2 12).dfrUnits = e.1 from rfl]; exact h.2

/-- Length 12: the first unit's second byte, and the last one's, at RXBUF[21]. -/
theorem witness_EscapedUnitIsStoredWhateverItsSecondByte :
    (0xFC#8 ≠ 0xFE#8 ∧ 0xFC#8 ≠ 0xFD#8) ∧ (0xFF#8 ≠ 0xFE#8 ∧ 0xFF#8 ≠ 0xFD#8) ∧ ∀ r ∈ syncRuns, ∀ e ∈ [(0x04#8, 0x07#8), (0x0B#8, 0x15#8)],
      (syncAt r .esc e.1 e.2 12).runs r.op r.idx ∧ (syncAt r .esc e.1 e.2 12).rxReq = true ∧
        (syncAt r .esc e.1 e.2 12).dfrState = .esc ∧ (syncAt r .esc e.1 e.2 12).rxPlen.toNat < 22 ∧
        (syncAt r .esc e.1 e.2 12).dfrUnits.toNat < (syncAt r .esc e.1 e.2 12).rxLen.toNat ∧
        Memory.wf (syncAt r .esc e.1 e.2 12).mem := by
  refine ⟨by decide, by decide, ?_⟩
  intro r _ e he
  have h : e.2.toNat < 22 ∧ e.1.toNat < 12 := by
    rcases List.mem_pair.mp he with rfl | rfl <;> simp
  refine ⟨⟨rfl, rfl, rfl⟩, rfl, rfl, ?_, ?_, Memory.wf_nil⟩
  · rw [show (syncAt r .esc e.1 e.2 12).rxPlen = e.2 from rfl]; exact h.1
  · rw [show (syncAt r .esc e.1 e.2 12).dfrUnits = e.1 from rfl]; exact h.2

/-- SYNC about to take a byte from the channel. -/
def taking (d : DfrState) (units plen len b : Byte) : State :=
  { receiving d units plen len with turns := [.block], chanIn := [.byte b] }

theorem witness_EscapeByteOpensAUnit :
    let w := taking .body 4 6 5 0xFE
    w.turns = .block :: [] ∧ w.rst = false ∧ w.busy = true ∧ w.phase = some .sync ∧ w.rxReq = true ∧
      w.dfrState = .body ∧ w.chanIn = .byte 0xFE#8 :: [] ∧ w.rxPlen.toNat < 22 ∧ Memory.wf w.mem := by
  decide

/-- One byte at each of the seven places. -/
theorem witness_StepRunsTheWireUnitTheChannelDelivers :
    ∀ e ∈ [(taking .hunt 0 0 0 0x55, Place.hunt, Instr.wireNoise 0x55), (taking .len 0 1 0 0x55, .length, .wireLength 0x55),
        (taking .id 0 2 4 0x55, .id0, .wireId0 0x1 0x15), (taking .id 1 3 4 0x55, .id1, .wireId1 0x15 0x1),
        (taking .id 2 4 4 0x55, .id2, .wireId2 0x55), (taking .id 3 5 4 0x55, .id3, .wireId3 0x55),
        (taking .body 4 6 5 0x55, .payload, .wireLiteral 0x55), (taking .esc 4 7 5 0x55, .payload, .wireEscInvalid 0x55)],
      e.1.turns = .block :: [] ∧ e.1.rst = false ∧ e.1.busy = true ∧ e.1.phase = some .sync ∧ e.1.rxReq = true ∧
        e.1.chanIn = .byte 0x55#8 :: [] ∧ e.1.place = some e.2.1 ∧
        (decode e.2.1 (if e.1.dfrState = .esc then [0xFE#8, 0x55#8] else [0x55#8])).toOption = some (e.2.2, []) := by
  decide

/-- Not in SYNC; in SYNC before its first rd(); in SYNC answered EOF. -/
theorem witness_StepRunsTheCommandInSeq :
    (sending.busy = true ∧ sending.rst = false ∧ sending.phase ≠ some .sync) ∧
    ((running 0x4 0x0).busy = true ∧ (running 0x4 0x0).rst = false ∧ (running 0x4 0x0).rxReq = false) ∧
    ∃ s : State, s.turns = .block :: [] ∧ s.rst = false ∧ s.busy = true ∧
      ∀ b, s.chanIn.head? ≠ some (.byte b) :=
  ⟨by decide, by decide, { receiving .hunt 0 0 0 with turns := [.block], chanIn := [.eof] }, rfl, rfl, rfl, fun b => by
    simp⟩

theorem witness_WireUnitsAreWhatSyncDoes :
    ∀ r ∈ syncRuns, ({ syncAt r .hunt 0 0 0 with turns := [.block], chanIn := [.byte 0xFF] } : State).turns = .block :: [] ∧
      ({ syncAt r .hunt 0 0 0 with turns := [.block], chanIn := [.byte 0xFF] } : State).rst = false ∧
      ({ syncAt r .hunt 0 0 0 with turns := [.block], chanIn := [.byte 0xFF] } : State).runs r.op r.idx := fun _ _ =>
  ⟨rfl, rfl, rfl, rfl, rfl⟩

/-- Idle; and waiting in SYNC at a place that is only WIRE_ID2's. -/
theorem witness_UnitsOutOfPlaceAreRefused :
    State.reset.rxReq = false ∧ (receiving .id 2 4 4).rxReq = true ∧ (receiving .id 2 4 4).phase = some .sync ∧
      (receiving .id 2 4 4).dfrState ≠ .hunt ∧ (receiving .id 2 4 4).dfrState ≠ .len ∧
      (receiving .id 2 4 4).dfrUnits ≠ 0x03#8 ∧ (receiving .id 2 4 4).dfrState ≠ .body ∧
      (receiving .id 2 4 4).dfrState ≠ .esc := by
  decide

/-- RECV about to take the last byte of a frame of length 5. -/
def lastByte : State :=
  { taking .body 4 6 5 0x42 with mem := stored 0x60 [0xFF, 0x05, 0x07, 0x01, 0x02, 0x03] }

theorem lastByte_inv : lastByte.Inv :=
  ⟨by decide, by decide, by decide, by decide, by decide, by decide, by decide, by decide, by decide,
    ⟨by decide, by decide, by decide, by decide, by decide⟩, by decide⟩

theorem lastByte_coupled : lastByte.Coupled :=
  ⟨by decide, fun _ h => absurd h (by decide), fun _ _ => ⟨⟨by decide, by decide⟩, by decide⟩,
    fun _ h => absurd h (by decide), fun h => absurd h (by decide)⟩

theorem witness_PhysicalSizeReadCountsTheEscapes :
    lastByte.Inv ∧ lastByte.phase = some .sync ∧ ∃ t, step lastByte = .next t ∧ t.phase = some .decode :=
  ⟨lastByte_inv, by decide, _, rfl, by decide⟩

/-- A bank with the codes an acknowledgement of a request has, whatever they are. -/
def ackOf (req : Bank) : Bank :=
  { Bank.zero with
    device := req.device, apiClass := Config.params.ackClass, manufacturer := Config.params.ctrlVendor,
    deviceType := Config.params.mcType }

theorem ackOf_isAck (req : Bank) : IsAck Config.params req (ackOf req) := ⟨rfl, rfl, rfl, rfl⟩

/-- A bank with the codes a system reply to a request has. -/
def sysOf (req : Bank) : Bank :=
  { Bank.zero with
    device := req.device, apiIndex := req.apiIndex, apiClass := Config.params.sysClass,
    manufacturer := Config.params.sysVendor, deviceType := Config.params.sysType }

theorem sysOf_isSystemReply (req : Bank) : IsSystemReply Config.params req (sysOf req) := ⟨rfl, rfl, rfl, rfl, rfl⟩

/-- Passing, and failing by the device alone. -/
theorem witness_CheckAckTestsFourFields :
    ∀ r ∈ ackRuns,
      (({ atRun r with rx := ackOf Bank.zero } : State).runs r.op r.idx ∧
        IsAck Config.params Bank.zero (ackOf Bank.zero)) ∧
      ({ atRun r with rx := { ackOf Bank.zero with device := 1 } } : State).runs r.op r.idx ∧
        ¬IsAck Config.params Bank.zero { ackOf Bank.zero with device := 1 } := fun _ _ =>
  ⟨⟨⟨rfl, rfl, rfl⟩, ackOf_isAck _⟩, ⟨rfl, rfl, rfl⟩, fun h => absurd h.2.2.2 (by decide)⟩

theorem witness_CheckDrepTestsFiveFields :
    ∀ r ∈ drepRuns,
      ((atRun r).runs r.op r.idx ∧ IsDeviceReply (atRun r).req (atRun r).rx) ∧
      ({ atRun r with rx := { Bank.zero with apiIndex := 1 } } : State).runs r.op r.idx ∧
        ¬IsDeviceReply Bank.zero { Bank.zero with apiIndex := 1 } := fun r _ =>
  ⟨⟨atRun_runs r, ⟨rfl, rfl, rfl, rfl, rfl⟩⟩, ⟨rfl, rfl, rfl⟩, fun h => absurd h.2.2.2.1 (by decide)⟩

theorem witness_CheckSrepTestsTheSystemCodes :
    ∀ r ∈ srepRuns,
      (({ atRun r with rx := sysOf Bank.zero } : State).runs r.op r.idx ∧
        IsSystemReply Config.params Bank.zero (sysOf Bank.zero)) ∧
      ({ atRun r with rx := { sysOf Bank.zero with apiIndex := 1 } } : State).runs r.op r.idx ∧
        ¬IsSystemReply Config.params Bank.zero { sysOf Bank.zero with apiIndex := 1 } := fun _ _ =>
  ⟨⟨⟨rfl, rfl, rfl⟩, sysOf_isSystemReply _⟩, ⟨rfl, rfl, rfl⟩, fun h => absurd h.2.2.2.1 (by decide)⟩

theorem witness_CopyRplCopiesTheBank :
    ∀ r ∈ copyRuns, ({ atRun r with rx := msg 0 0 1 0 0 [1] } : State).runs r.op r.idx := fun _ _ => ⟨rfl, rfl, rfl⟩

theorem witness_EveryStepKeepsInv :
    (hostAt (.write 0x00 0x08)).Inv ∧ ∃ t, step (hostAt (.write 0x00 0x08)) = .next t ∧ t.busy = true :=
  ⟨hostAt_inv _, _, rfl, rfl⟩

theorem witness_EveryStepKeepsSyncAndDecodeCoupled :
    lastByte.Inv ∧ lastByte.Coupled ∧ ∃ t, step lastByte = .next t ∧ t.dfrState = .done :=
  ⟨lastByte_inv, lastByte_coupled, _, rfl, by decide⟩

theorem witness_EveryStepAnswers : sending.Inv := sending_inv

/-- At WRITE with no turn given; at ENCODE with a low line driven low; at SYNC taking a byte, which RXBUF gets. -/
theorem witness_OperandsHoldUnderARunningCommand :
    (sending.busy = true ∧ Memory.wf sending.mem ∧ (∀ level, sending.nextTurn ≠ .rst level) ∧
      ∃ t, step sending = .next t ∧ t.busy = false) ∧
    (∃ e : State, e.busy = true ∧ Memory.wf e.mem ∧ e.phase = some .encode ∧ e.nextTurn = .rst false ∧ e.rst = false ∧
      ∃ t, step e = .next t) ∧
    lastByte.busy = true ∧ Memory.wf lastByte.mem ∧ (∀ level, lastByte.nextTurn ≠ .rst level) ∧
      ∃ t, step lastByte = .next t ∧ t.rxbuf 6 ≠ lastByte.rxbuf 6 :=
  ⟨⟨rfl, by decide, by decide, _, rfl, by decide⟩,
    ⟨{ running 0x1 0x0 with turns := [.rst false] }, by decide, by decide, by decide, by decide, by decide, _, rfl⟩,
    rfl, by decide, by decide, _, rfl, by decide⟩

theorem witness_TheChannelIsReadOneAnswerAtATime :
    ∃ t, step lastByte = .next t ∧ t.chanIn = [] ∧ ∃ u, step (hostAt (.write 0x00 0x08)) = .next u :=
  ⟨_, rfl, by decide, _, rfl⟩

/-- The three cases: a store to REQ, an assertion of the line, and an illegal byte's accept. -/
theorem witness_TheLastResultHoldsUntilTheNextAccept :
    ((hostAt (.write 0x10 0x05)).busy = false ∧ ∃ t, step (hostAt (.write 0x10 0x05)) = .next t ∧ t.done = false) ∧
    (∃ s : State, s.busy = false ∧ s.nextTurn = .rst true ∧ ∃ t, step s = .next t) ∧
    (hostAt (.write 0x00 0x0B)).busy = false ∧ (hostAt (.write 0x00 0x0B)).nextTurn = .host ∧
      ∃ t, step (hostAt (.write 0x00 0x0B)) = .next t ∧ t.lastCmd = 0x0B ∧ t.host = [] :=
  ⟨⟨rfl, _, rfl, by decide⟩, ⟨{ State.reset with turns := [.rst true] }, rfl, rfl, _, rfl⟩, rfl, by decide, _, rfl,
    by decide, by decide⟩

/-- The reset state with a command byte to write, a channel script, and a peer that takes one frame. -/
def exchange (v : Byte) (script : List RxAnswer) : State :=
  { State.reset with host := [.write 0x00 v], chanIn := script, chanOut := [.ok] }

theorem exchange_inv (v : Byte) (script : List RxAnswer) : (exchange v script).Inv :=
  inv_env reset_inv [] [.write 0x00 v] [] script [.ok] []

theorem witness_RecvFindsTheFrameAfterNoise :
    let m := msg 5 1 2 2 2 [0xFF, 0xFE]
    let s := exchange 0x04 (answers ([0x00, 0x12] ++ encodeFrame m) ++ [.eof])
    s.Inv ∧ s.busy = false ∧ s.rst = false ∧ s.turns = [] ∧ s.host = [.write 0x00#8 0x04#8] ∧
      m.dataSize.toNat ≤ 8 ∧ 0xFF#8 ∉ [0x00#8, 0x12#8] ∧
      s.chanIn = answers ([0x00, 0x12] ++ encodeFrame m) ++ [.eof] :=
  ⟨exchange_inv _ _, rfl, rfl, rfl, rfl, by decide, by decide, rfl⟩

theorem witness_XcmdCompletesOnTheAcknowledgement :
    let s := exchange 0x08 (answers ([0x00, 0x12] ++ encodeFrame (ackOf Bank.zero)) ++ [.eof])
    s.Inv ∧ s.busy = false ∧ s.rst = false ∧ s.turns = [] ∧ s.host = [.write 0x00#8 0x08#8] ∧
      s.req.dataSize.toNat ≤ 8 ∧ (ackOf Bank.zero).dataSize.toNat ≤ 8 ∧ IsAck Config.params s.req (ackOf Bank.zero) ∧
      0xFF#8 ∉ [0x00#8, 0x12#8] ∧ s.chanOut = .ok :: [] ∧
      s.chanIn = answers ([0x00, 0x12] ++ encodeFrame (ackOf Bank.zero)) ++ [.eof] :=
  ⟨exchange_inv _ _, rfl, rfl, rfl, rfl, by decide, by decide, ackOf_isAck _, by decide, rfl, rfl⟩

/-- XQRY with a reply that equals the request; XSQRY with a system reply. -/
theorem witness_QueryKeepsTheReplyAndTheAcknowledgement :
    ∀ e ∈ [(0x09#8, Bank.zero), (0x0A#8, sysOf Bank.zero)],
      let s := exchange e.1 (answers (encodeFrame e.2 ++ encodeFrame (ackOf Bank.zero)) ++ [])
      s.Inv ∧ s.busy = false ∧ s.rst = false ∧ s.turns = [] ∧ s.host = [.write 0x00#8 e.1] ∧
        ((e.1 = 0x09#8 ∧ IsDeviceReply s.req e.2) ∨ (e.1 = 0x0A#8 ∧ IsSystemReply Config.params s.req e.2)) ∧
        s.req.dataSize.toNat ≤ 8 ∧ e.2.dataSize.toNat ≤ 8 ∧ (ackOf Bank.zero).dataSize.toNat ≤ 8 ∧
        IsAck Config.params s.req (ackOf Bank.zero) ∧ s.chanOut = .ok :: [] ∧
        s.chanIn = answers (encodeFrame e.2 ++ encodeFrame (ackOf Bank.zero)) ++ [] := by
  simp only [List.forall_mem_cons]
  refine ⟨⟨exchange_inv _ _, rfl, rfl, rfl, rfl, .inl ⟨by trivial, rfl, rfl, rfl, rfl, rfl⟩, ?_, ?_, ?_, ackOf_isAck _, rfl, rfl⟩,
    ⟨exchange_inv _ _, rfl, rfl, rfl, rfl, .inr ⟨by trivial, sysOf_isSystemReply _⟩, ?_, ?_, ?_, ackOf_isAck _, rfl, rfl⟩,
    by simp⟩ <;> decide

/-- V105's reply for XQRY; for XSQRY a system reply with another device. -/
theorem witness_FailedReplyLeavesTheRestUnread :
    ∀ e ∈ [(0x09#8, msg 5 1 3 2 2 [0, 0]), (0x0A#8, { sysOf Bank.zero with device := 1 })],
      let s := exchange e.1 (answers (encodeFrame e.2) ++ [.byte 0xFF])
      s.Inv ∧ s.busy = false ∧ s.rst = false ∧ s.turns = [] ∧ s.host = [.write 0x00#8 e.1] ∧
        ((e.1 = 0x09#8 ∧ ¬IsDeviceReply s.req e.2) ∨ (e.1 = 0x0A#8 ∧ ¬IsSystemReply Config.params s.req e.2)) ∧
        s.req.dataSize.toNat ≤ 8 ∧ e.2.dataSize.toNat ≤ 8 ∧ s.chanOut = .ok :: [] ∧
        s.chanIn = answers (encodeFrame e.2) ++ [.byte 0xFF] := by
  simp only [List.forall_mem_cons]
  exact ⟨⟨exchange_inv _ _, rfl, rfl, rfl, rfl, .inl ⟨by trivial, fun h => absurd h.2.2.2.1 (by decide)⟩, by decide, by decide,
      rfl, rfl⟩,
    ⟨exchange_inv _ _, rfl, rfl, rfl, rfl, .inr ⟨by trivial, fun h => absurd h.2.2.2.2 (by decide)⟩, by decide, by decide,
      rfl, rfl⟩,
    by simp⟩

/-- DEC of V41's buffer; and a DECODE that follows SYNC, coupled, of a frame of length 4. -/
theorem witness_DecodeTakesExactlyTheUnitsOfTheFrame :
    (∃ s t : State, s.runs 0x2 0x0 ∧ exec .dec s = .next t ∧ t.rxValid = true ∧ (s.rxbuf 1).toNat = 6) ∧
    ∃ s t : State, s.runs 0x4 0x1 ∧ exec .recv s = .next t ∧ t.rxValid = true ∧ s.Coupled ∧ s.rxPlen.toNat = 6 :=
  ⟨⟨{ running 0x2 0x0 with mem := stored 0x60 [0xFF, 0x06, 0, 0, 0, 0, 0xFE, 0xFE, 0xFE, 0xFD] }, _, ⟨rfl, rfl, rfl⟩,
      rfl, by decide, by decide⟩,
    ⟨{ running 0x4 0x1 with
        mem := stored 0x60 [0xFF, 0x04, 0x85, 0x04, 0x02, 0x02], dfrState := .done, dfrUnits := 4, rxLen := 4, rxPlen := 6 },
      _, ⟨rfl, rfl, rfl⟩, rfl, by decide,
      ⟨fun h => absurd h (by decide), fun h => absurd h (by decide), fun h => absurd h (by decide),
        fun h => absurd h (by decide), fun _ _ => ⟨rfl, ⟨by decide, by decide⟩, by decide⟩⟩, rfl⟩⟩

/-- The frame not yet offered; offered and not answered; taken whole; and cut off after three bytes. -/
theorem witness_ThePeerGetsTheFrameOrAPrefix :
    ∀ r ∈ writeRuns, ∀ (q : Bool), ∀ c ∈ [[], [TxAnswer.ok], [.err 3]],
      ({ atRun r with txPlen := 22, txReq := q, chanOut := c } : State).runs r.op r.idx ∧
        ({ atRun r with txPlen := 22, txReq := q, chanOut := c } : State).txPlen.toNat ≤ 22 := fun _ _ _ _ _ =>
  ⟨⟨rfl, rfl, rfl⟩, Nat.le_refl 22⟩

/-- R74: Err after three bytes delivers those three. -/
theorem test_delivered_prefix :
    after (exec .send { sending with chanOut := [.err 3] }) State.delivered = some [0xFF, 0x04, 0x00] ∧
      after (exec .send sending) State.delivered = some [0xFF, 0x04, 0x00, 0x00, 0x00, 0x00] := by
  decide

end Sys2Proof.Tests
end

section
/-! SUPPORT. Every step keeps the invariant (O48): the kinds of a step that Laws/Invariant does not treat alone, and the
case analysis over Stepped. -/

namespace Sys2Proof.Machine

open Sys2Proof

/-- Another turn, host program and record of reads leave the invariant. -/
theorem State.Inv.turn {s : State} (h : s.Inv) (host : List HostOp) (reads : List Byte) :
    ({ s.popTurn with host := host, reads := reads } : State).Inv :=
  inv_env h _ _ _ _ _ _

/-- With the reset line low the invariant does not speak of HOST_OVR. -/
theorem State.Inv.turnAway {s : State} (h : s.Inv) (hr : s.rst = false) : s.turnAway.Inv :=
  ⟨h.mem_wf, h.mem_in, h.idle, h.busy, h.clean, h.rx_req, h.tx_req, h.tx_plen, h.write_frame, h.deframer,
    fun hx => absurd (hr.symm.trans hx) (by decide)⟩

/-- Under the invariant a busy block always has a phase to run (R31). -/
theorem State.Inv.current_ne_none {s : State} (h : s.Inv) (hb : s.busy = true) : s.current ≠ none := by
  obtain ⟨-, -, -, hidx, -⟩ := h.busy hb
  simpa [State.current, hb] using hidx

/-- The accept and end of an illegal byte keep the invariant. -/
theorem State.Inv.illegal {s : State} (h : s.Inv) (hb : s.busy = false) (hr : s.rst = false) (v : Byte) :
    ((s.accept v).failed .outside .illegalCmd v).Inv := by
  obtain ⟨-, -, hrx, htx⟩ := h.idle hb
  exact inv_failed (u := s.accept v) ⟨h.mem_wf, h.mem_in, hr, h.tx_plen, h.deframer⟩ hrx htx (fun hc => nomatch hc)

/-- A withdrawn request and ABORT's end keep the invariant. -/
theorem State.Inv.aborted {s : State} (h : s.Inv) (hr : s.rst = false) (st : Stage) (n : Byte) :
    (s.withdraw.failed st .aborted n).Inv :=
  inv_failed (u := s.withdraw) ⟨h.mem_wf, h.mem_in, hr, h.tx_plen, h.deframer⟩ rfl rfl (fun hc => nomatch hc)

/-- Every kind of step keeps the invariant. -/
theorem State.Inv.stepped {s t : State} (h : s.Inv) (hst : Stepped s t) : t.Inv := by
  cases hst with
  | reset level => exact inv_reset _ level
  | quiet host reads => exact h.turn host reads
  | lost host _ hr => exact (h.turn host s.reads).turnAway hr
  | store a v host _ hr hb => exact inv_poke (h.turn host s.reads) hb hr a v
  | accept op host _ hr hb => exact inv_issue (h.turn host s.reads) hb hr op
  | illegal v host _ hr hb => exact (h.turn host s.reads).illegal hb hr v
  | abort host _ hr => exact (h.turn host s.reads).aborted hr _ _
  | phase p st _ _ hr hc hout => exact inv_phase (h.turn s.host s.reads) hr hc hout
  | none u st c _ _ hb hc => exact absurd hc (h.current_ne_none hb)
  | noneLost _ _ hb hc => exact absurd hc (h.current_ne_none hb)

/-- Settles O48: a step is one of the kinds of Stepped, and each keeps the invariant. -/
theorem everyStepKeepsInv : Obligations.EveryStepKeepsInv :=
  fun _ _ h hs => h.stepped (step_next hs)

end Sys2Proof.Machine
end

section
/-! SUPPORT. The register map seen from its addresses: what stands where, that no two addresses share a location (R39),
and what a bank's byte reads as after a write to the bank (R21, R22, R63). -/

namespace Sys2Proof.Machine

open Sys2Proof

/-! ### Addresses and locations -/

theorem locOf_reqAddr : ∀ off : BitVec 4, locOf (0x1#4 ++ off) = .bank .req off := by decide
theorem locOf_rxAddr : ∀ off : BitVec 4, locOf (0x2#4 ++ off) = .bank .rx off := by decide
theorem locOf_rplAddr : ∀ off : BitVec 4, locOf (0x3#4 ++ off) = .bank .rpl off := by decide
theorem locOf_txbufAddr : ∀ k < 22, locOf (BitVec.ofNat 8 (0x40 + k)) = .txbuf k := by decide
theorem locOf_rxbufAddr : ∀ k < 22, locOf (BitVec.ofNat 8 (0x60 + k)) = .rxbuf k := by decide

/-- Where a location stands; a reserved one has no address of its own. -/
def Loc.addr : Loc → Byte
  | .cmd => 0x00#8
  | .status => 0x01#8
  | .errcode => 0x02#8
  | .errinfo => 0x03#8
  | .dfrState => 0x04#8
  | .dfrUnits => 0x05#8
  | .rxLen => 0x06#8
  | .rxOvh => 0x07#8
  | .rxPlen => 0x08#8
  | .txPlen => 0x09#8
  | .discardLo => 0x0A#8
  | .discardHi => 0x0B#8
  | .seq => 0x0C#8
  | .bank b off => b.base + off.setWidth 8
  | .txbuf i => BitVec.ofNat 8 (txbufBase + i)
  | .rxbuf i => BitVec.ofNat 8 (rxbufBase + i)
  | .reserved => 0xFF#8

theorem addr_locOf : ∀ a : Byte, locOf a = .reserved ∨ (locOf a).addr = a := by decide

/-- No two addresses share a location, the reserved ones apart. -/
theorem locOf_inj {a b : Byte} (h : locOf b = locOf a) (hr : locOf a ≠ .reserved) : b = a := by
  rw [← (addr_locOf b).resolve_left (h ▸ hr), h, (addr_locOf a).resolve_left hr]

/-- The locations a host can write (R39): REQ, RX and RXBUF. -/
theorem writable_cases : ∀ {a : Byte},
    (0x10 ≤ a.toNat ∧ a.toNat < 0x30) ∨ (0x60 ≤ a.toNat ∧ a.toNat < 0x76) →
    (locOf a = .bank .req (a.extractLsb' 0 4) ∧ a.toNat < 0x60) ∨
      (locOf a = .bank .rx (a.extractLsb' 0 4) ∧ a.toNat < 0x60) ∨
      (locOf a = .rxbuf (a.toNat - 0x60) ∧ 0x60 ≤ a.toNat) := by decide

/-- TXBUF's locations are its 22 bytes. -/
theorem locOf_txbuf (a : Byte) {i : Nat} (h : locOf a = .txbuf i) : i < 22 := by
  unfold locOf lowLoc at h
  repeat' split at h
  all_goals simp only [reduceCtorEq, Loc.txbuf.injEq] at h
  omega

/-! ### A bank's sixteen bytes -/

/-- The bytes of a bank at its offsets, the reserved ones 0x00 (R21, R62, R63). -/
def Bank.bytes (b : Bank) : List Byte :=
  [b.device.setWidth 8, b.apiClass.setWidth 8, b.apiIndex.setWidth 8, b.manufacturer, b.deviceType,
    b.dataSize.setWidth 8, 0#8, 0#8] ++ b.data.toList

/-- The bits of each bank offset that can be written (R22, R63). -/
def bankMask : List Byte :=
  [0x3F#8, 0x3F#8, 0x0F#8, 0xFF#8, 0xFF#8, 0x0F#8, 0x00#8, 0x00#8, 0xFF#8, 0xFF#8, 0xFF#8, 0xFF#8, 0xFF#8,
    0xFF#8, 0xFF#8, 0xFF#8]

theorem mask_six : ∀ v : Byte, (v.setWidth 6).setWidth 8 = v &&& 0x3F#8 := by decide
theorem mask_four : ∀ v : Byte, (v.setWidth 4).setWidth 8 = v &&& 0x0F#8 := by decide
theorem mask_eight (v : Byte) : v &&& 0xFF#8 = v := BitVec.and_allOnes

theorem Bank.readByte_eq (b : Bank) (off : BitVec 4) : b.readByte off = b.bytes.getD off.toNat 0#8 := by
  obtain ⟨k⟩ := off
  fin_cases k <;> rfl

/-- A bank write sets the masked value at its offset and no other byte. -/
theorem Bank.bytes_writeByte (b : Bank) (off : BitVec 4) (v : Byte) :
    (b.writeByte off v).bytes = b.bytes.set off.toNat (v &&& bankMask.getD off.toNat 0#8) := by
  obtain ⟨k⟩ := off
  fin_cases k <;> simp [Bank.bytes, Bank.writeByte, bankMask, Payload.toList, mask_six, mask_four, mask_eight]

theorem Bank.readByte_writeByte_same (b : Bank) (off : BitVec 4) (v : Byte) :
    (b.writeByte off v).readByte off = v &&& bankMask.getD off.toNat 0#8 := by
  have hlen : off.toNat < b.bytes.length := off.isLt
  rw [Bank.readByte_eq, Bank.bytes_writeByte, List.getD_eq_getElem _ _ (by simpa using hlen), List.getElem_set_self]

theorem Bank.readByte_writeByte_other (b : Bank) {off off' : BitVec 4} (h : off' ≠ off) (v : Byte) :
    (b.writeByte off v).readByte off' = b.readByte off' := by
  have hne : off.toNat ≠ off'.toNat := fun e => h (BitVec.eq_of_toNat_eq e.symm)
  rw [Bank.readByte_eq, Bank.readByte_eq, Bank.bytes_writeByte, List.getD_eq_getElem?_getD, List.getElem?_set_ne hne,
    ← List.getD_eq_getElem?_getD]

/-! ### What a read returns -/

theorem peek_bank {s : State} {a : Byte} {n : BankName} {off : BitVec 4} (h : locOf a = .bank n off) :
    s.peek a = (s.bank n).readByte off := by simp [State.peek, h]

theorem peek_txbuf {s : State} {a : Byte} {i : Nat} (h : locOf a = .txbuf i) : s.peek a = s.txbuf i := by
  simp [State.peek, h]

theorem peek_rxbuf {s : State} {a : Byte} {i : Nat} (h : locOf a = .rxbuf i) : s.peek a = s.rxbuf i := by
  simp [State.peek, h]

/-- New REQ and RX banks show at their own addresses only. -/
theorem peek_setBanks {s : State} {q r : Bank} {a : Byte}
    (hreq : ∀ off, locOf a = .bank .req off → q.readByte off = s.req.readByte off)
    (hrx : ∀ off, locOf a = .bank .rx off → r.readByte off = s.rx.readByte off) :
    ({ s with req := q, rx := r } : State).peek a = s.peek a := by
  cases hl : locOf a with
  | bank n off =>
    rw [peek_bank hl, peek_bank hl]
    cases n with
    | req => exact hreq off hl
    | rx => exact hrx off hl
    | rpl => rfl
  | _ => simp only [State.peek, hl] <;> rfl

/-- A store into RXBUF shows at its own address only. -/
theorem peek_setMem {s : State} (hwf : Memory.wf s.mem) {i : Nat} {v : Byte} {a : Byte} (h : locOf a ≠ .rxbuf i) :
    ({ s with mem := Memory.write s.mem (rxbufBase + i) v } : State).peek a = s.peek a := by
  have hother : ∀ x, x ≠ rxbufBase + i →
      Memory.read (Memory.write s.mem (rxbufBase + i) v) x = Memory.read s.mem x :=
    fun x hx => by rw [Memory.read_write _ _ _ hwf, if_neg hx]
  cases hl : locOf a with
  | txbuf k =>
    have hk := locOf_txbuf a hl
    rw [peek_txbuf hl, peek_txbuf hl]
    exact hother _ (by simp only [txbufBase, rxbufBase]; omega)
  | rxbuf k =>
    have hk : k ≠ i := fun e => h (e ▸ hl)
    rw [peek_rxbuf hl, peek_rxbuf hl]
    exact hother _ (by omega)
  | bank n off =>
    rw [peek_bank hl, peek_bank hl]
    cases n <;> rfl
  | _ => simp only [State.peek, hl] <;> rfl

end Sys2Proof.Machine
end

section
/-! SUPPORT. The host's stores and the results of an idle block: an idle write stores the writable bits and nothing else
(O18), and the last result holds until the next accept (O53). -/

namespace Sys2Proof.Machine

open Sys2Proof

/-! ### A host store -/

/-- A store changes REQ, RX and the frame buffers only. -/
theorem poke_eq (s : State) (a v : Byte) :
    s.poke a v = { s with req := (s.poke a v).req, rx := (s.poke a v).rx, mem := (s.poke a v).mem } := by
  unfold State.poke
  split <;> rfl

/-- A store shows at its own address only. -/
theorem peek_poke_other {s : State} (hwf : Memory.wf s.mem) {a b : Byte} (hab : b ≠ a) (v : Byte) :
    (s.poke a v).peek b = s.peek b := by
  have hloc : locOf a ≠ .reserved → locOf b ≠ locOf a := fun hr h => hab (locOf_inj h hr)
  unfold State.poke
  split
  · next off ha =>
    rw [ha] at hloc
    exact peek_setBanks (r := s.rx)
      (fun _ hb => Bank.readByte_writeByte_other _ (fun e => hloc (by simp) (by rw [hb, e])) v) (fun _ _ => rfl)
  · next off ha =>
    rw [ha] at hloc
    exact peek_setBanks (q := s.req) (fun _ _ => rfl)
      (fun _ hb => Bank.readByte_writeByte_other _ (fun e => hloc (by simp) (by rw [hb, e])) v)
  · next i ha =>
    rw [ha] at hloc
    exact peek_setMem hwf (hloc (by simp))
  · rfl

/-- The bits of a location that a host can write (R22, R23, R26, R63). -/
def writeMask (a : Byte) : Byte := if 0x60 ≤ a.toNat then 0xFF#8 else bankMask.getD (a.toNat % 16) 0x00#8

/-- A writable location reads back the writable bits. -/
theorem peek_poke_same {s : State} (hwf : Memory.wf s.mem) {a : Byte} (v : Byte)
    (ha : (0x10 ≤ a.toNat ∧ a.toNat < 0x30) ∨ (0x60 ≤ a.toNat ∧ a.toNat < 0x76)) :
    (s.poke a v).peek a = v &&& writeMask a := by
  have hoff : (a.extractLsb' 0 4).toNat = a.toNat % 16 := by simp [BitVec.extractLsb'_toNat]
  rcases writable_cases ha with ⟨hl, hlt⟩ | ⟨hl, hlt⟩ | ⟨hl, hle⟩
  · rw [peek_bank hl, writeMask, if_neg (Nat.not_le.mpr hlt), ← hoff]
    simpa only [State.poke, hl, State.bank] using Bank.readByte_writeByte_same s.req _ v
  · rw [peek_bank hl, writeMask, if_neg (Nat.not_le.mpr hlt), ← hoff]
    simpa only [State.poke, hl, State.bank] using Bank.readByte_writeByte_same s.rx _ v
  · rw [peek_rxbuf hl, writeMask, if_pos hle, mask_eight]
    simp only [State.poke, hl, State.rxbuf]
    rw [Memory.read_write _ _ _ hwf, if_pos rfl]

/-- A host write to an idle block that is no command is a store. -/
theorem step_store {s : State} {a v : Byte} {rest : List HostOp} {turns : List Turn} (ht : s.turns = .host :: turns)
    (hh : s.host = .write a v :: rest) (hr : s.rst = false) (hb : s.busy = false) (ha : a ≠ 0x00#8) :
    step s = .next (({ s with turns := turns, host := rest } : State).poke a v) := by
  rw [step_host ht]
  simp [hostTurn, hh, hr, hostWrite, ha, Fetched.result, State.busWrite, hb]

/-- Settles O18: the write is a store, which reads back at its address and shows nowhere else. -/
theorem idleWriteStoresTheWritableBits : Obligations.IdleWriteStoresTheWritableBits := by
  intro s a v rest turns ht hh hr hb hwf ha
  have h0 : a ≠ 0x00#8 := by
    rintro rfl
    revert ha; decide
  exact ⟨_, step_store ht hh hr hb h0, peek_poke_same (s := { s with turns := turns, host := rest }) hwf v ha,
    fun b hab => (peek_poke_other (s := { s with turns := turns, host := rest }) hwf hab v).trans rfl, poke_eq _ a v⟩

/-! ### The last result -/

/-- An accept uses no bus cycle of its own. -/
theorem issue_host (s : State) (op : BitVec 4) : (s.issue op).host = s.host := by
  rw [issue_eq]; split <;> rfl

/-- Settles O53: of the kinds of step an idle block can take, only the accepts and the reset line touch the result. -/
theorem theLastResultHoldsUntilTheNextAccept : Obligations.TheLastResultHoldsUntilTheNextAccept := by
  intro s t hb hs
  have hbusy : s.busy ≠ true := by simp [hb]
  cases step_next hs with
  | reset level ht he => exact .inr (.inl ⟨level, ht, he⟩)
  | quiet => exact .inl ⟨rfl, hb, rfl, rfl, rfl, rfl, rfl, rfl, rfl, rfl⟩
  | store a v host =>
    rw [poke_eq]
    exact .inl ⟨rfl, hb, rfl, rfl, rfl, rfl, rfl, rfl, rfl, rfl⟩
  | accept op host ht hr _ hh =>
    exact .inr (.inr ⟨_, host, ht, hr, hh, issue_host _ op, (issue_frame _ op).1⟩)
  | illegal v host ht hr _ hh => exact .inr (.inr ⟨v, host, ht, hr, hh, rfl, rfl⟩)
  | phase p st _ _ _ hc => exact absurd (current_some hc).1 hbusy
  | lost _ _ _ h => exact absurd h hbusy
  | abort _ _ _ h => exact absurd h hbusy
  | none _ _ _ _ _ h => exact absurd h hbusy
  | noneLost _ _ h => exact absurd h hbusy

end Sys2Proof.Machine
end

section
/-! SUPPORT. What the registers read as at their addresses (O21, O22) and the command the block's turn runs (O39). -/

namespace Sys2Proof.Machine

open Sys2Proof

/-! ### The registers -/

/-- A byte joined from eight bits has them from bit 7 down. -/
theorem joined_bits : ∀ b7 b6 b5 b4 b3 b2 b1 b0 : Bool,
    let v : Byte := BitVec.ofBool b7 ++ BitVec.ofBool b6 ++ BitVec.ofBool b5 ++ BitVec.ofBool b4 ++ BitVec.ofBool b3 ++
      BitVec.ofBool b2 ++ BitVec.ofBool b1 ++ BitVec.ofBool b0
    v.getLsbD 0 = b0 ∧ v.getLsbD 1 = b1 ∧ v.getLsbD 2 = b2 ∧ v.getLsbD 3 = b3 ∧ v.getLsbD 4 = b4 ∧
      v.getLsbD 5 = b5 ∧ v.getLsbD 6 = b6 ∧ v.getLsbD 7 = b7 := by decide

theorem peek_status (s : State) : s.peek 0x01#8 = s.status := rfl
theorem peek_errcode (s : State) : s.peek 0x02#8 = s.errStage.num ++ s.errCode.num := rfl
theorem peek_seq (s : State) : s.peek 0x0C#8 = s.seqIdx ++ s.seqOp := rfl

theorem err_iff (s : State) : s.err = true ↔ s.errCode ≠ .ok := by simp [State.err]

/-- Settles O21: STATUS is joined from its eight bits, ERRCODE and SEQ from two fields each. -/
theorem statusRegistersReadTheirFields : Obligations.StatusRegistersReadTheirFields := by
  intro s
  rw [peek_status, peek_errcode, peek_seq, split44_lo, split44_hi, split44_lo, split44_hi]
  obtain ⟨h0, h1, h2, h3, h4, h5, h6, h7⟩ :=
    joined_bits false s.hostOvr s.rplValid s.rxValid s.txValid s.err s.done s.busy
  refine ⟨h0, h1, ?_, h3, h4, h5, h6, h7, ?_, ?_, rfl, rfl⟩
  · rw [← err_iff]
    exact Bool.eq_iff_iff.mp h2
  · cases s.errCode <;> rfl
  · cases s.errStage <;> rfl

/-- What a bank reads as at the addresses of one 16-byte row of the map (R21, R39). -/
theorem peek_bank_fields {s : State} {n : BankName} {row : BitVec 4}
    (h : ∀ off : BitVec 4, locOf (row ++ off) = .bank n off) :
    (s.peek (row ++ 0x0#4)).toNat = (s.bank n).device.toNat ∧
      (s.peek (row ++ 0x1#4)).toNat = (s.bank n).apiClass.toNat ∧
      (s.peek (row ++ 0x2#4)).toNat = (s.bank n).apiIndex.toNat ∧
      s.peek (row ++ 0x3#4) = (s.bank n).manufacturer ∧ s.peek (row ++ 0x4#4) = (s.bank n).deviceType ∧
      (s.peek (row ++ 0x5#4)).toNat = (s.bank n).dataSize.toNat ∧
      ∀ k, k < 8 → s.peek (row ++ BitVec.ofNat 4 (8 + k)) = (s.bank n).data.toList.getD k 0x00#8 := by
  have hp : ∀ off, s.peek (row ++ off) = (s.bank n).readByte off := fun off => peek_bank (h off)
  simp only [hp]
  refine ⟨BitVec.toNat_setWidth_of_le (by decide), BitVec.toNat_setWidth_of_le (by decide),
    BitVec.toNat_setWidth_of_le (by decide), rfl, rfl, BitVec.toNat_setWidth_of_le (by decide), fun k hk => ?_⟩
  interval_cases k <;> rfl

/-- Settles O22: each register stands at its address of the map, and the buffers and banks byte by byte. -/
theorem registersReadAtTheirAddresses : Obligations.RegistersReadAtTheirAddresses := by
  intro s
  refine ⟨rfl, rfl, ?_, rfl, rfl, rfl, rfl, rfl, ?_, fun k hk => peek_txbuf (locOf_txbufAddr k hk),
    fun k hk => peek_rxbuf (locOf_rxbufAddr k hk), ?_⟩
  · show s.dfrState.num.setWidth 8 = _
    cases s.dfrState <;> rfl
  · show s.discard.extractLsb' 8 8 ++ s.discard.extractLsb' 0 8 = s.discard
    exact (BitVec.extractLsb'_append_extractLsb'_eq_extractLsb' (show 8 = 0 + 8 from rfl)).trans
      BitVec.extractLsb'_eq_self
  · simp only [List.forall_mem_cons]
    exact ⟨peek_bank_fields (n := .req) locOf_reqAddr, peek_bank_fields (n := .rx) locOf_rxAddr,
      peek_bank_fields (n := .rpl) locOf_rplAddr, by simp⟩

/-! ### The block's turn -/

/-- A busy block's turn runs the command in SEQ unless a byte is delivered to SYNC. -/
theorem blockTurn_running {s : State} (hr : s.rst = false) (hb : s.busy = true)
    (h : s.phase ≠ some .sync ∨ s.rxReq = false ∨ ∀ b, s.chanIn.head? ≠ some (.byte b)) :
    blockTurn s = .run s.running s := by
  unfold blockTurn
  rw [if_neg (by simp [hr, hb])]
  split
  · next p b rest ha hp hch =>
    obtain ⟨hrx, hph⟩ := (awaitsByte_iff s).mp ha
    rcases h with h | h | h
    · exact absurd hph h
    · exact absurd (hrx.symm.trans h) (by decide)
    · exact absurd (by rw [hch]; rfl) (h b)
  · rfl

/-- Settles O39: SEQ's OP decodes to the command the sequencer is running, and the block's turn runs it. -/
theorem stepRunsTheCommandInSeq : Obligations.StepRunsTheCommandInSeq := by
  intro s turns ht hr hb h
  refine ⟨s.running, ?_, ?_⟩
  · simp [decode, decodeCommand_op, State.running]
  · rw [step_block ht, blockTurn_running (s := { s with turns := turns }) hr hb h]
    rfl

end Sys2Proof.Machine
end

section
/-! SUPPORT. What a step does to a running command's operands (O51) and to the channel (O52), read off the kinds of
Stepped, and what the peer has got after a step of WRITE (O59). -/

namespace Sys2Proof.Machine

open Sys2Proof

/-! ### The operands of a running command -/

/-- From s to t the operands hold, and each buffer and result bank changes only in the phase that writes it. -/
def State.OperandsHeld (s t : State) : Prop :=
  t.req = s.req ∧ t.lastCmd = s.lastCmd ∧ (t.rx ≠ s.rx → s.phase = some .decode) ∧
    (t.rpl ≠ s.rpl → s.phase = some .copyRpl) ∧ (t.txPlen ≠ s.txPlen → s.phase = some .encode) ∧
    (∀ k, k < 22 → t.txbuf k ≠ s.txbuf k → s.phase = some .encode) ∧
    ∀ k, k < 22 → t.rxbuf k ≠ s.rxbuf k → s.phase = some .sync

/-- Where none of the operands and buffers moves, they hold. -/
theorem State.OperandsHeld.of_eq {s t : State} (hreq : t.req = s.req) (hcmd : t.lastCmd = s.lastCmd)
    (hrx : t.rx = s.rx) (hrpl : t.rpl = s.rpl) (hlen : t.txPlen = s.txPlen) (hmem : t.mem = s.mem) :
    s.OperandsHeld t :=
  ⟨hreq, hcmd, fun h => absurd hrx h, fun h => absurd hrpl h, fun h => absurd hlen h,
    fun k _ h => absurd (by rw [State.txbuf, hmem, State.txbuf]) h,
    fun k _ h => absurd (by rw [State.rxbuf, hmem, State.rxbuf]) h⟩

/-- A phase's step holds the operands. -/
theorem State.OperandsHeld.of_phase {s t : State} {p : Phase} (hwf : Memory.wf s.mem) (hp : s.phase = some p)
    (h : (runPhase p s).outcome = .next t) : s.OperandsHeld t := by
  obtain ⟨hreq, hrx, hrpl, hcmd, -⟩ := phase_frame h
  obtain ⟨hlen, htx, hrb⟩ := phase_buffers hwf h
  rw [State.OperandsHeld, hp]
  exact ⟨hreq, hcmd, fun hn => congrArg _ (hrx hn), fun hn => congrArg _ (hrpl hn), fun hn => congrArg _ (hlen hn),
    fun k hk hn => congrArg _ (htx k hk hn), fun k hk hn => congrArg _ (hrb k hk hn)⟩

/-- Settles O51: of the kinds of step a busy block can take, only its phase's moves an operand or a buffer. -/
theorem operandsHoldUnderARunningCommand : Obligations.OperandsHoldUnderARunningCommand := by
  intro s t hb hwf hlow hs
  have hidle : s.busy ≠ false := by simp [hb]
  show s.OperandsHeld t
  cases step_next hs with
  | reset level ht he =>
    obtain ⟨rfl, hr⟩ := hlow level ht
    exact absurd he (by simp [hr])
  | quiet => exact .of_eq rfl rfl rfl rfl rfl rfl
  | lost => exact .of_eq rfl rfl rfl rfl rfl rfl
  | abort => exact .of_eq rfl rfl rfl rfl rfl rfl
  | noneLost => exact .of_eq rfl rfl rfl rfl rfl rfl
  | none u st c _ _ _ _ hu => rcases hu with rfl | rfl <;> exact .of_eq rfl rfl rfl rfl rfl rfl
  | phase p st _ _ _ hc h => exact State.OperandsHeld.of_phase (s := s.popTurn) hwf (phase_eq_of hc) h
  | store _ _ _ _ _ h => exact absurd h hidle
  | accept _ _ _ _ h => exact absurd h hidle
  | illegal _ _ _ _ h => exact absurd h hidle

/-! ### The channel -/

/-- From s to t the channel's answers and the output history stand. -/
def State.ChannelHeld (s t : State) : Prop := t.chanIn = s.chanIn ∧ t.chanOut = s.chanOut ∧ t.sent = s.sent

/-- Only a running phase's step touches the channel: reset and the host's accesses leave it (R71, R252). -/
theorem Stepped.channel {s t : State} (h : Stepped s t) :
    s.ChannelHeld t ∨ ∃ p, s.phase = some p ∧ (runPhase p s.popTurn).outcome = .next t := by
  cases h with
  | phase p st _ _ _ hc hout => exact .inr ⟨p, phase_eq_of hc, hout⟩
  | store a v host => rw [poke_eq]; exact .inl ⟨rfl, rfl, rfl⟩
  | accept op host => exact .inl (issue_frame _ op).2
  | none u st c _ _ _ _ hu => rcases hu with rfl | rfl <;> exact .inl ⟨rfl, rfl, rfl⟩
  | reset => exact .inl ⟨rfl, rfl, rfl⟩
  | quiet => exact .inl ⟨rfl, rfl, rfl⟩
  | lost => exact .inl ⟨rfl, rfl, rfl⟩
  | illegal => exact .inl ⟨rfl, rfl, rfl⟩
  | abort => exact .inl ⟨rfl, rfl, rfl⟩
  | noneLost => exact .inl ⟨rfl, rfl, rfl⟩

/-- Settles O52: a step leaves the channel alone or is a phase's, and phases take answers in SYNC and WRITE only. -/
theorem theChannelIsReadOneAnswerAtATime : Obligations.TheChannelIsReadOneAnswerAtATime := by
  intro s t hs
  rcases (step_next hs).channel with ⟨hin, hout, hsent⟩ | ⟨p, hp, h⟩
  · exact ⟨fun _ => ⟨hin, hout, hsent⟩, .inl hin, .inl hout⟩
  · obtain ⟨st, hc⟩ := phase_some hp
    obtain ⟨-, -, -, -, hin, hout, -⟩ := phase_frame h
    rw [hp]
    exact ⟨fun hb => absurd (current_some hc).1 (by simp [hb]), hin.imp_right (.imp_left (congrArg some)),
      hout.imp_right (.imp_left (congrArg some))⟩

/-! ### What the peer has got -/

/-- A phase end that keeps its state answers, and moving the sequencer delivers nothing. -/
theorem outcome_sent {e : PhaseEnd} {u : State} (h : e.state? = some u) :
    ∃ t, e.outcome = .next t ∧ t.sent = u.sent := by
  obtain ⟨t, ht⟩ : ∃ t, e.outcome = .next t := outcome_ok (by rintro f rfl; cases h)
  obtain ⟨v, hv, hshape⟩ := outcome_shape ht
  obtain rfl : u = v := Option.some.inj (h.symm.trans hv)
  refine ⟨t, ht, ?_⟩
  rcases hshape with rfl | ⟨i, rfl⟩ | ⟨st, c, n, rfl⟩ <;> rfl

/-- WRITE without an answer sends nothing (R141). -/
theorem writePhase_unanswered {s : State} (hlen : s.txPlen.toNat ≤ 22) (h : s.txReq = false ∨ s.chanOut = []) :
    ∃ u, (writePhase s).state? = some u ∧ u.sent = s.sent := by
  unfold writePhase
  rw [if_neg (show ¬bufSize < _ from Nat.not_lt.mpr hlen)]
  cases hq : s.txReq with
  | false => exact ⟨_, rfl, rfl⟩
  | true =>
    rw [h.resolve_left (by simp [hq])]
    exact ⟨s, rfl, rfl⟩

/-- WRITE with an answer hands the whole of `TXBUF[0..TX_PLEN-1]` over with it (R142). -/
theorem writePhase_answered {s : State} {a : TxAnswer} {rest : List TxAnswer} (hlen : s.txPlen.toNat ≤ 22)
    (hq : s.txReq = true) (hc : s.chanOut = a :: rest) :
    ∃ u, (writePhase s).state? = some u ∧ u.sent = s.sent ++ [⟨s.txFrame, a⟩] := by
  unfold writePhase
  rw [if_neg (show ¬bufSize < _ from Nat.not_lt.mpr hlen), if_pos hq, hc]
  cases a <;> exact ⟨_, rfl, rfl⟩

theorem exec_write_unanswered {s : State} {r : PhaseRun} (hr : r ∈ writeRuns) (hs : s.runs r.op r.idx)
    (hlen : s.txPlen.toNat ≤ 22) (h : s.txReq = false ∨ s.chanOut = []) :
    ∃ t, exec r.instr s = .next t ∧ t.delivered = s.delivered := by
  obtain ⟨u, hu, hsent⟩ := writePhase_unanswered hlen h
  obtain ⟨t, ht, htu⟩ := outcome_sent hu
  exact ⟨t, (exec_run_phase (by simp [hr]) (writeRuns_fit r hr) hs).trans ht,
    by rw [State.delivered, htu, hsent, State.delivered]⟩

/-- The peer gets what the answer let through (R74). -/
theorem exec_write_answered {s : State} {r : PhaseRun} {a : TxAnswer} {rest : List TxAnswer} (hr : r ∈ writeRuns)
    (hs : s.runs r.op r.idx) (hlen : s.txPlen.toNat ≤ 22) (hq : s.txReq = true) (hc : s.chanOut = a :: rest) :
    ∃ t, exec r.instr s = .next t ∧ t.delivered = s.delivered ++ Sent.delivered ⟨s.txFrame, a⟩ := by
  obtain ⟨u, hu, hsent⟩ := writePhase_answered hlen hq hc
  obtain ⟨t, ht, htu⟩ := outcome_sent hu
  refine ⟨t, (exec_run_phase (by simp [hr]) (writeRuns_fit r hr) hs).trans ht, ?_⟩
  rw [State.delivered, htu, hsent, List.flatMap_append, List.flatMap_singleton, State.delivered]

/-- Settles O59: the frame is TXBUF's first TX_PLEN bytes, and an Err after k bytes delivers its first k. -/
theorem thePeerGetsTheFrameOrAPrefix : Obligations.ThePeerGetsTheFrameOrAPrefix := by
  intro r hr s hs hlen
  refine ⟨exec_write_unanswered hr hs hlen, s.txFrame, Memory.readList_length _ _ _, fun k hk => ?_,
    fun rest hq hc => exec_write_answered hr hs hlen hq hc, fun n rest hq hc => ?_, fun got hgot hq => ?_⟩
  · exact Memory.readList_getD _ _ _ _ (by simpa [State.txFrame] using hk)
  · obtain ⟨t, ht, hd⟩ := exec_write_answered hr hs hlen hq hc
    exact ⟨t, _, ht, List.take_prefix n s.txFrame, hd⟩
  · refine ⟨got.length, fun rest => ?_⟩
    obtain ⟨t, ht, hd⟩ := exec_write_answered (s := { s with chanOut := .err got.length :: rest }) hr hs hlen hq rfl
    have htake : got = s.txFrame.take got.length := List.prefix_iff_eq_take.mp hgot
    exact ⟨t, ht, hd.trans (congrArg (s.delivered ++ ·) htake.symm)⟩

end Sys2Proof.Machine
end

section
/-! SUPPORT. The host's bus cycles: a write to a busy block (O17), a read (O19), and the reserved locations (O20). -/

namespace Sys2Proof.Machine

open Sys2Proof

/-! ### Writes -/

/-- A host's store reaches the location: it is of REQ, RX or RXBUF (R22, R23, R26). -/
def Loc.writable : Loc → Bool
  | .bank .req _ => true
  | .bank .rx _ => true
  | .rxbuf _ => true
  | _ => false

theorem poke_of_not_writable (s : State) {a : Byte} (v : Byte) (h : (locOf a).writable = false) : s.poke a v = s := by
  unfold State.poke
  split
  case h_4 => rfl
  all_goals
    next hl => simp [hl, Loc.writable] at h

theorem readOnly_addresses : ∀ {a : Byte},
    a.toNat < 0x10 ∨ (0x30 ≤ a.toNat ∧ a.toNat < 0x60) ∨ 0x76 ≤ a.toNat → (locOf a).writable = false := by decide

/-- With rst low the host's turn performs the write. -/
theorem step_write {s : State} {a v : Byte} {rest : List HostOp} {turns : List Turn} (ht : s.turns = .host :: turns)
    (hh : s.host = .write a v :: rest) (hr : s.rst = false) :
    step s = (hostWrite a v { s with turns := turns, host := rest }).result := by
  rw [step_host ht]
  simp [hostTurn, hh, hr]

/-- Settles O17: a busy block turns every write but ABORT away, and an idle one drops a store to a read-only place. -/
theorem writesWhileBusyAreLost : Obligations.WritesWhileBusyAreLost := by
  intro s a v rest turns ht hh hr
  refine ⟨fun hb hna => ?_, fun hb ha hv => ?_, fun hb ha hro => ?_⟩
  · rw [step_write ht hh hr, hostWrite, if_neg (by simpa [hb] using hna)]
    simp [Fetched.result, State.busWrite, hb, State.turnAway]
  · subst ha hv
    rw [step_write ht hh hr, hostWrite, if_pos ⟨rfl, .inr rfl⟩]
    rfl
  · rw [step_store ht hh hr hb ha, poke_of_not_writable _ v (readOnly_addresses hro)]

/-! ### Reads -/

theorem hostTurn_read {s : State} {a : Byte} {rest : List HostOp} (hh : s.host = .read a :: rest) :
    hostTurn s = .other (.next (({ s with host := rest } : State).logRead (s.busRead a))) := by
  simp [hostTurn, hh]

theorem busRead_of_low {s : State} (hr : s.rst = false) (a : Byte) : s.busRead a = s.peek a := by
  simp [State.busRead, hr]

/-- Settles O19: a read notes the location's byte, which no turn or bus cycle moves. -/
theorem hostReadsChangeNothing : Obligations.HostReadsChangeNothing := by
  intro s a rest turns ht hh hr
  rw [step_host ht, hostTurn_read (s := { s with turns := turns }) hh,
    busRead_of_low (s := { s with turns := turns }) hr]
  rfl

/-! ### Reserved locations -/

/-- The reserved addresses stand for no location or for offset +0x6 or +0x7 of a bank (R39, R62). -/
theorem reserved_cases : ∀ {a : Byte},
    (0x0D ≤ a.toNat ∧ a.toNat ≤ 0x0F) ∨ (0x56 ≤ a.toNat ∧ a.toNat ≤ 0x5F) ∨ 0x76 ≤ a.toNat ∨
      ((0x10 ≤ a.toNat ∧ a.toNat < 0x40) ∧ (a.toNat % 16 = 6 ∨ a.toNat % 16 = 7)) →
    a ≠ 0x00#8 ∧ (locOf a = .reserved ∨
      ∃ off ∈ [0x6#4, 0x7#4], ∃ n ∈ [BankName.req, .rx, .rpl], locOf a = .bank n off) := by decide

theorem Bank.readByte_reserved (b : Bank) : ∀ off ∈ [0x6#4, 0x7#4], b.readByte off = 0x00#8 := by
  simp [Bank.readByte]

theorem Bank.writeByte_reserved (b : Bank) (v : Byte) : ∀ off ∈ [0x6#4, 0x7#4], b.writeByte off v = b := by
  simp [Bank.writeByte]

/-- A store to a bank's reserved offset is dropped. -/
theorem poke_bank_reserved (s : State) {a : Byte} (v : Byte) {n : BankName} {off : BitVec 4}
    (hl : locOf a = .bank n off) (hoff : off ∈ [0x6#4, 0x7#4]) : s.poke a v = s := by
  cases n <;> simp [State.poke, hl, Bank.writeByte_reserved _ v off hoff]

/-- Settles O20: a reserved address has no byte to read or to store, nor has a bank's reserved offset. -/
theorem reservedLocationsReadZero : Obligations.ReservedLocationsReadZero := by
  intro s a h
  obtain ⟨ha, hl | ⟨off, hoff, n, -, hl⟩⟩ := reserved_cases h
  · refine ⟨by simp [State.peek, hl], fun v rest turns ht hh hr hb => ?_⟩
    rw [step_store ht hh hr hb ha, poke_of_not_writable _ v (by rw [hl]; rfl)]
  · refine ⟨(peek_bank hl).trans (Bank.readByte_reserved _ off hoff), fun v rest turns ht hh hr hb => ?_⟩
    rw [step_store ht hh hr hb ha, poke_bank_reserved _ v hl hoff]

end Sys2Proof.Machine
end

section
/-! SUPPORT. The two encodings are inverse (O1, O2, O3): a command byte is its two fields, and every unit that decodes
is a well-formed row whose bytes were read whole (R80 to R92). -/

namespace Sys2Proof

/-! ### The decoder's equations -/

/-- A command byte by its fields (R81, R83, R84). -/
theorem decodeCommand_fields (rsv op : BitVec 4) :
    decodeCommand (rsv ++ op) = if rsv = 0x0#4 then commandOfOp op else .illegalRsv rsv op := by
  rw [decodeCommand, split44_hi, split44_lo]

@[simp] theorem decode_command (v : Byte) (rest : List Byte) :
    decode .command (v :: rest) = .ok (decodeCommand v, rest) := rfl

@[simp] theorem decode_hunt (b : Byte) (rest : List Byte) :
    decode .hunt (b :: rest) = .ok (if b = startByte then .wireStart else .wireNoise b, rest) := rfl

@[simp] theorem decode_id0 (b : Byte) (rest : List Byte) :
    decode .id0 (b :: rest) = .ok (.wireId0 (b.extractLsb' 6 2) (b.extractLsb' 0 6), rest) := rfl

@[simp] theorem decode_id1 (b : Byte) (rest : List Byte) :
    decode .id1 (b :: rest) = .ok (.wireId1 (b.extractLsb' 2 6) (b.extractLsb' 0 2), rest) := rfl

@[simp] theorem decode_payload_pair (c : Byte) (rest : List Byte) :
    decode .payload (escByte :: c :: rest) = .ok (decodeEscape c, rest) := rfl

theorem decode_payload_literal {b : Byte} (h : b ≠ escByte) (rest : List Byte) :
    decode .payload (b :: rest) = .ok (.wireLiteral b, rest) := if_neg h

/-! ### A unit and its bytes -/

/-- The instruction is a well-formed row of the place, with these bytes. -/
def Instr.Spells (i : Instr) (p : Place) (bytes : List Byte) : Prop :=
  i.wf = true ∧ i.place = p ∧ encode i = bytes

theorem commandOfOp_spells (op : BitVec 4) : (commandOfOp op).Spells .command [0x0#4 ++ op] := by
  revert op; unfold Instr.Spells; decide

theorem decodeCommand_spells (v : Byte) : (decodeCommand v).Spells .command [v] := by
  rw [← join44 v, decodeCommand_fields]
  split
  · next h => rw [h]; exact commandOfOp_spells _
  · next h => exact ⟨bne_iff_ne.mpr h, rfl, rfl⟩

theorem decodeEscape_spells (c : Byte) : (decodeEscape c).Spells .payload [escByte, c] := by
  unfold decodeEscape
  split
  · next h => subst h; exact ⟨rfl, rfl, rfl⟩
  · next hesc =>
    split
    · next h => subst h; exact ⟨rfl, rfl, rfl⟩
    · next halt => exact ⟨Bool.and_eq_true_iff.mpr ⟨bne_iff_ne.mpr hesc, bne_iff_ne.mpr halt⟩, rfl, rfl⟩

/-- What decodes spells the bytes it was read from, and the rest comes back. -/
theorem decode_spells {p : Place} {bytes rest : List Byte} {i : Instr} (h : decode p bytes = .ok (i, rest)) :
    ∃ unit, i.Spells p unit ∧ unit ++ rest = bytes := by
  cases bytes with
  | nil => cases h
  | cons b bs =>
    cases p with
    | command => cases h; exact ⟨[b], decodeCommand_spells b, rfl⟩
    | hunt =>
      cases h
      refine ⟨[b], ?_, rfl⟩
      split
      · next hb => subst hb; exact ⟨rfl, rfl, rfl⟩
      · next hb => exact ⟨bne_iff_ne.mpr hb, rfl, rfl⟩
    | length => cases h; exact ⟨[b], ⟨rfl, rfl, rfl⟩, rfl⟩
    | id0 => cases h; exact ⟨[b], ⟨rfl, rfl, congrArg ([·]) (join26 b)⟩, rfl⟩
    | id1 => cases h; exact ⟨[b], ⟨rfl, rfl, congrArg ([·]) (join62 b)⟩, rfl⟩
    | id2 => cases h; exact ⟨[b], ⟨rfl, rfl, rfl⟩, rfl⟩
    | id3 => cases h; exact ⟨[b], ⟨rfl, rfl, rfl⟩, rfl⟩
    | payload =>
      by_cases hb : b = escByte
      · subst hb
        cases bs with
        | nil => cases h
        | cons c cs => cases h; exact ⟨[escByte, c], decodeEscape_spells c, rfl⟩
      · rw [decode_payload_literal hb] at h
        cases h
        exact ⟨[b], ⟨bne_iff_ne.mpr hb, rfl, rfl⟩, rfl⟩

/-- Settles O3: what decodes spells the bytes it was read from. -/
theorem decodedBytesAreTheInstructionsEncoding : Obligations.DecodedBytesAreTheInstructionsEncoding := by
  intro p bytes rest i h
  obtain ⟨unit, ⟨hwf, hplace, hunit⟩, hbytes⟩ := decode_spells h
  exact ⟨hwf, hplace, hunit ▸ hbytes⟩

/-- Settles O2: the rows that leave bits open split the fields their encoding joins, and the fixed rows evaluate. -/
theorem decodeOfEncodeIsTheInstruction : Obligations.DecodeOfEncodeIsTheInstruction := by
  intro i rest hwf
  cases i with
  | illegalRsv rsv op =>
    have hrsv : rsv ≠ 0x0#4 := bne_iff_ne.mp hwf
    exact (decode_command _ rest).trans (by rw [decodeCommand_fields, if_neg hrsv])
  | wireNoise b =>
    have hb : b ≠ startByte := bne_iff_ne.mp hwf
    exact (decode_hunt _ rest).trans (by rw [if_neg hb])
  | wireId0 idxLo dev => exact (decode_id0 _ rest).trans (by rw [split26_hi, split26_lo])
  | wireId1 cls idxHi => exact (decode_id1 _ rest).trans (by rw [split62_hi, split62_lo])
  | wireLiteral d => exact decode_payload_literal (bne_iff_ne.mp hwf) rest
  | wireEscInvalid x =>
    obtain ⟨hesc, halt⟩ : (x != escByte) = true ∧ (x != altByte) = true := Bool.and_eq_true_iff.mp hwf
    exact (decode_payload_pair _ rest).trans
      (by rw [decodeEscape, if_neg (bne_iff_ne.mp hesc), if_neg (bne_iff_ne.mp halt)])
  | _ => rfl

/-- Settles O1: each word is evaluated. -/
theorem sampleWordsDecodeToTheirRows : Obligations.SampleWordsDecodeToTheirRows :=
  ⟨rfl, rfl, rfl, rfl, rfl, rfl, rfl, rfl, rfl, rfl, rfl, rfl, rfl⟩

end Sys2Proof
end

section
/-! SUPPORT. The command byte on the bus: the accept of a command (O12) and of an illegal byte (O15), the step that
runs the byte the host writes (O16), and WAIT (O23). -/

namespace Sys2Proof.Machine

open Sys2Proof

/-! ### The accept -/

/-- A byte's two nibbles: the fields RSV and OP (R81). -/
theorem byte_fields (v : Byte) : ∃ rsv op : BitVec 4, v = rsv ++ op ∧ v.toNat = 16 * rsv.toNat + op.toNat :=
  ⟨v.extractLsb' 4 4, v.extractLsb' 0 4, (join44 v).symm, by simp [BitVec.extractLsb'_toNat]; omega⟩

/-- An idle block accepts a command that has phases and starts at its phase 0 (R82). -/
theorem exec_accept {op : BitVec 4} (hop : 1 ≤ op.toNat ∧ op.toNat ≤ 10) {s : State} (hb : s.busy = false) :
    exec (commandOfOp op) s = .next (s.accept (0x0#4 ++ op)) := by
  have phases : ∀ o : BitVec 4, 1 ≤ o.toNat ∧ o.toNat ≤ 10 → (phaseList o).isEmpty = false := by decide
  rw [exec_commandOfOp hop, commandStep, if_neg (by simp [hb]), issue_eq, phases op hop]
  rfl

/-- Which accepts clear RPL_VALID, as a Boolean. -/
theorem rplValid_accepted (s : State) (v : Byte) :
    (s.accept v).rplValid = (s.rplValid && v != 0x09#8 && v != 0x0A#8) := by
  by_cases h9 : v = 0x09#8
  · simp [h9]
  · by_cases hA : v = 0x0A#8
    · simp [hA]
    · simp [h9, hA, bne_iff_ne.mpr h9, bne_iff_ne.mpr hA]

/-- Settles O12: such a byte is a command with phases, and its accept is R82's. -/
theorem acceptStartsTheCommand : Obligations.AcceptStartsTheCommand := by
  intro v s hlo hhi hb
  obtain ⟨rsv, op, rfl, hv⟩ := byte_fields v
  obtain rfl : rsv = 0x0#4 := BitVec.eq_of_toNat_eq (by rw [BitVec.toNat_zero]; omega)
  rw [decodeCommand_op, exec_accept (by rw [BitVec.toNat_zero] at hv; omega) hb, ← rplValid_accepted]
  rfl

/-! ### Illegal bytes -/

/-- An illegal byte is one of R84's five rows, which all mean illegalByte. -/
theorem decodeCommand_illegal {v : Byte} (h : 0x10 ≤ v.toNat ∨ (0x0B ≤ v.toNat ∧ v.toNat ≤ 0x0E)) :
    (decodeCommand v = .illegal0B ∨ decodeCommand v = .illegal0C ∨ decodeCommand v = .illegal0D ∨
      decodeCommand v = .illegal0E ∨ ∃ rsv op, decodeCommand v = .illegalRsv rsv op) ∧
    ∀ s, exec (decodeCommand v) s = illegalByte v s := by
  obtain ⟨rsv, op, rfl, hv⟩ := byte_fields v
  by_cases hrsv : rsv = 0x0#4
  · subst hrsv
    have hop : ∀ o : BitVec 4, 11 ≤ o.toNat ∧ o.toNat ≤ 14 → o = 0xB ∨ o = 0xC ∨ o = 0xD ∨ o = 0xE := by decide
    rw [decodeCommand_op]
    rcases hop op (by rw [BitVec.toNat_zero] at hv; omega) with rfl | rfl | rfl | rfl
    · exact ⟨.inl rfl, fun _ => rfl⟩
    · exact ⟨.inr (.inl rfl), fun _ => rfl⟩
    · exact ⟨.inr (.inr (.inl rfl)), fun _ => rfl⟩
    · exact ⟨.inr (.inr (.inr (.inl rfl))), fun _ => rfl⟩
  · rw [decodeCommand_fields, if_neg hrsv]
    exact ⟨.inr (.inr (.inr (.inr ⟨rsv, op, rfl⟩))), fun _ => rfl⟩

/-- On an idle block a byte that is not XQRY or XSQRY ends with ILLEGAL_CMD and leaves RPL_VALID (R82, R84). -/
theorem illegalByte_idle {v : Byte} {s : State} (hb : s.busy = false) (h9 : v ≠ 0x09#8) (hA : v ≠ 0x0A#8) :
    illegalByte v s =
      .next (({ s with lastCmd := v, hostOvr := false } : State).failed .outside .illegalCmd v) := by
  rw [illegalByte, if_neg (by simp [hb]), State.accept, if_neg (not_or.mpr ⟨h9, hA⟩)]
  rfl

theorem illegalByte_busy {v : Byte} {s : State} (hb : s.busy = true) : illegalByte v s = .next s.turnAway :=
  if_pos hb

/-- Settles O15: each of the five rows means illegalByte, which answers on an idle block and is lost on a busy one. -/
theorem illegalByteCompletesWithIllegalCmd : Obligations.IllegalByteCompletesWithIllegalCmd := by
  intro v s h
  obtain ⟨hrow, hexec⟩ := decodeCommand_illegal h
  have h9 : v ≠ 0x09#8 := by rintro rfl; revert h; decide
  have hA : v ≠ 0x0A#8 := by rintro rfl; revert h; decide
  exact ⟨hrow, fun hb => (hexec s).trans (illegalByte_idle hb h9 hA), fun hb => (hexec s).trans (illegalByte_busy hb)⟩

/-! ### The host's turn -/

/-- Settles O16: every byte decodes to a well-formed row, and such a write to CMD runs it. -/
theorem stepRunsTheCommandTheHostWrites : Obligations.StepRunsTheCommandTheHostWrites := by
  intro s v rest turns ht hh hr h
  refine ⟨decodeCommand v, rfl, (decodeCommand_spells v).1, ?_⟩
  rw [step_write ht hh hr, hostWrite, if_pos ⟨rfl, h⟩]
  rfl

/-- Bit 0 of STATUS is BUSY (R28). -/
theorem peek_status_busy (s : State) : (s.peek 0x01#8).getLsbD 0 = s.busy :=
  (joined_bits false s.hostOvr s.rplValid s.rxValid s.txValid s.err s.done s.busy).1

theorem hostTurn_wait {s : State} {rest : List HostOp} (hh : s.host = .wait :: rest) (hr : s.rst = false) :
    hostTurn s =
      .other (.next (({ s with host := if s.busy then s.host else rest } : State).logRead (s.peek 0x01#8))) := by
  simp only [hostTurn, hh, busRead_of_low hr, peek_status_busy]

/-- Settles O23: WAIT reads STATUS, whose bit 0 is BUSY. -/
theorem waitPollsStatusUntilIdle : Obligations.WaitPollsStatusUntilIdle := by
  intro s rest turns ht hh hr
  rw [step_host ht, hostTurn_wait (s := { s with turns := turns }) hh hr, ← hh]
  rfl

end Sys2Proof.Machine
end

section
/-! SUPPORT. The wire units: the step that runs the unit a delivered byte completes (O38), and the refusal of a unit
away from its place (O41). -/

namespace Sys2Proof.Machine

open Sys2Proof

/-- The block's turn runs the unit that a byte delivered to SYNC completes. -/
theorem blockTurn_delivered {s : State} {b : Byte} {rest : List RxAnswer} {p : Place} {i : Instr} {more : List Byte}
    (hr : s.rst = false) (hb : s.busy = true) (ha : s.awaitsByte = true) (hc : s.chanIn = .byte b :: rest)
    (hp : s.place = some p) (hd : decode p (s.unitBytes b) = .ok (i, more)) :
    blockTurn s = .run i { s with chanIn := rest } := by
  unfold blockTurn
  rw [if_neg (by simp [hr, hb])]
  simp only [ha, hp, hc, hd]

/-- Settles O38: SYNC waits for the byte, and what decodes is well formed. -/
theorem stepRunsTheWireUnitTheChannelDelivers : Obligations.StepRunsTheWireUnitTheChannelDelivers := by
  intro s b turns rest p i ht hr hb hph hrx hc hp hd
  obtain ⟨_, ⟨hwf, -, -⟩, -⟩ := decode_spells hd
  have ha : s.awaitsByte = true := (awaitsByte_iff s).mpr ⟨hrx, hph⟩
  refine ⟨hwf, ?_⟩
  rw [step_block ht, blockTurn_delivered (s := { s with turns := turns }) hr hb ha hc hp hd]
  rfl

/-- A wire unit is refused where no rd() of SYNC is outstanding or the deframer is not here (log 11). -/
theorem wireUnit_elsewhere {s : State} {here : Bool} (name : String) (e : PhaseEnd)
    (h : s.rxReq = false ∨ s.phase ≠ some .sync ∨ here = false) :
    wireUnit name here e s = .refused (.notAtPlace name) := by
  refine if_neg fun hyes => ?_
  obtain ⟨ha, hhere⟩ := Bool.and_eq_true_iff.mp hyes
  obtain ⟨hrx, hph⟩ := (awaitsByte_iff s).mp ha
  rcases h with h | h | h
  · simp [hrx] at h
  · exact h hph
  · simp [hhere] at h

/-- The same of a unit that stands at one state of the deframer. -/
theorem wireUnit_otherState {s : State} {d : DfrState} (name : String) (e : PhaseEnd)
    (h : s.rxReq = false ∨ s.phase ≠ some .sync ∨ s.dfrState ≠ d) :
    wireUnit name (s.dfrState = d) e s = .refused (.notAtPlace name) :=
  wireUnit_elsewhere name e (h.imp_right (.imp_right decide_eq_false))

/-- The same of an identifier byte, which stands at one count of units. -/
theorem wireUnit_otherIdByte {s : State} {n : Byte} (name : String) (e : PhaseEnd)
    (h : s.rxReq = false ∨ s.phase ≠ some .sync ∨ s.dfrState ≠ .id ∨ s.dfrUnits ≠ n) :
    wireUnit name (s.dfrState = .id && s.dfrUnits = n) e s = .refused (.notAtPlace name) :=
  wireUnit_elsewhere name e (h.imp_right (.imp_right fun h => by simpa [← not_and_or] using h))

/-- Settles O41: each unit's meaning is a wireUnit at its own place. -/
theorem unitsOutOfPlaceAreRefused : Obligations.UnitsOutOfPlaceAreRefused := by
  intro s
  refine ⟨fun h => ⟨wireUnit_otherState _ _ h, fun _ => wireUnit_otherState _ _ h⟩,
    fun h _ => wireUnit_otherState _ _ h, ?_, fun h _ => wireUnit_otherState _ _ h,
    fun h => ⟨wireUnit_otherState _ _ h, wireUnit_otherState _ _ h, fun _ => wireUnit_otherState _ _ h⟩⟩
  intro idxLo idxHi dev cls mfr typ
  simp only [List.forall_mem_cons]
  exact ⟨wireUnit_otherIdByte _ _, wireUnit_otherIdByte _ _, wireUnit_otherIdByte _ _, wireUnit_otherIdByte _ _,
    by simp⟩

end Sys2Proof.Machine
end

section
/-! SUPPORT. The codec's identifier bytes and physical units (O4, O5), and ENCODE's step (O6, O7). -/

namespace Sys2Proof.Machine

/-! ### The identifier bytes and the physical units -/

section
variable (b0 b1 b2 b3 : Byte) (d : Payload) (n : BitVec 4)

theorem unpackId_device_toNat : (unpackId b0 b1 b2 b3 d n).device.toNat = b0.toNat % 64 := by
  simp [unpackId]

theorem unpackId_apiClass_toNat : (unpackId b0 b1 b2 b3 d n).apiClass.toNat = b1.toNat / 4 := by
  have hb := b1.isLt
  simp only [unpackId, BitVec.extractLsb'_toNat, Nat.shiftRight_eq_div_pow]
  omega

theorem unpackId_apiIndex_toNat :
    (unpackId b0 b1 b2 b3 d n).apiIndex.toNat = b1.toNat % 4 * 4 + b0.toNat / 64 := by
  have hb := b0.isLt
  have hlow : (b0.extractLsb' 6 2).toNat < 2 ^ 2 := (b0.extractLsb' 6 2).isLt
  rw [unpackId, BitVec.toNat_append, ← Nat.shiftLeft_add_eq_or_of_lt hlow]
  simp only [BitVec.extractLsb'_toNat, Nat.shiftRight_eq_div_pow, Nat.shiftLeft_eq]
  omega

end

/-- Settles O4: the fields are slices of two bytes, and packing's slices join again. -/
theorem unpackingInvertsPacking : Obligations.UnpackingInvertsPacking :=
  ⟨fun b0 b1 b2 b3 d n => ⟨unpackId_device_toNat b0 b1 b2 b3 d n, unpackId_apiIndex_toNat b0 b1 b2 b3 d n,
      unpackId_apiClass_toNat b0 b1 b2 b3 d n, rfl, rfl⟩,
    fun m => ⟨_, _, _, _, rfl, unpackId_packed m m.data m.dataSize⟩⟩

/-- Settles O5: the table is `stuff`'s own case split. -/
theorem stuffingFollowsTheTable : Obligations.StuffingFollowsTheTable := fun d => ⟨rfl, stuff_length d⟩

/-! ### A move of the sequencer -/

@[simp] theorem State.moved_mem (s : State) (last : Bool) : (s.moved last).mem = s.mem := by cases last <;> rfl
@[simp] theorem State.moved_txPlen (s : State) (last : Bool) : (s.moved last).txPlen = s.txPlen := by cases last <;> rfl
@[simp] theorem State.moved_txbuf (s : State) (last : Bool) (k : Nat) : (s.moved last).txbuf k = s.txbuf k := by
  cases last <;> rfl

/-! ### ENCODE's step -/

/-- What ENCODE's success leaves, before the sequencer moves (R113). -/
def State.encoded (s : State) : State :=
  { s with
    mem := Memory.writeList s.mem txbufBase (padded (encodeFrame s.req))
    txPlen := BitVec.ofNat 8 (encodeFrame s.req).length
    txValid := true }

theorem encodePhase_ok {s : State} (h : s.req.dataSize.toNat ≤ 8) : encodePhase s = .ended s.encoded :=
  if_neg (Nat.not_lt.mpr h)

theorem encodePhase_badSize {s : State} (h : 8 < s.req.dataSize.toNat) :
    encodePhase s = .raised .badSize (s.req.dataSize.setWidth 8) { s with txValid := false } :=
  if_pos h

theorem encoded_txPlen {s : State} (h : s.req.dataSize.toNat ≤ 8) :
    s.encoded.txPlen.toNat = (encodeFrame s.req).length := toNat_len h

theorem read_encoded {s : State} (hwf : Memory.wf s.mem) (h : s.req.dataSize.toNat ≤ 8) (a : Nat) :
    Memory.read s.encoded.mem a =
      if txbufBase ≤ a ∧ a < txbufBase + 22 then (encodeFrame s.req).getD (a - txbufBase) 0#8
      else Memory.read s.mem a :=
  read_written hwf (encodeFrame_length_le h) txbufBase a

theorem encoded_txbuf {s : State} (hwf : Memory.wf s.mem) (h : s.req.dataSize.toNat ≤ 8) {k : Nat} (hk : k < 22) :
    s.encoded.txbuf k = (encodeFrame s.req).getD k 0#8 := by
  rw [State.txbuf, read_encoded hwf h, if_pos (by omega), Nat.add_sub_cancel_left]

theorem read_encoded_outside {s : State} (hwf : Memory.wf s.mem) (h : s.req.dataSize.toNat ≤ 8) {a : Nat}
    (ha : a < 0x40 ∨ 0x56 ≤ a) : Memory.read s.encoded.mem a = Memory.read s.mem a := by
  rw [read_encoded hwf h, if_neg (by simp only [txbufBase]; omega)]

/-- A frame's length byte, as R113 writes it. -/
theorem lengthField_eq_ofNat (q : Bank) : 4#8 + q.dataSize.setWidth 8 = BitVec.ofNat 8 (4 + q.dataSize.toNat) := by
  rw [BitVec.ofNat_add, BitVec.ofNat_toNat]

theorem lengthField_toNat (q : Bank) : (4#8 + q.dataSize.setWidth 8).toNat = 4 + q.dataSize.toNat := by
  rw [lengthField_eq_ofNat, BitVec.toNat_ofNat, Nat.mod_eq_of_lt (by omega)]

theorem exec_encode {s : State} {r : PhaseRun} (hr : r ∈ encodeRuns) (hs : s.runs r.op r.idx)
    (h : s.req.dataSize.toNat ≤ 8) : exec r.instr s = .next (s.encoded.moved r.last) := by
  have hfit := encodeRuns_fit r hr
  obtain ⟨-, ho, hi⟩ := id hs
  rw [exec_run_phase (by simp [hr]) hfit hs, runPhase, encodePhase_ok h]
  exact outcome_ended ho hi hfit.2

theorem exec_encode_badSize {s : State} {r : PhaseRun} (hr : r ∈ encodeRuns) (hs : s.runs r.op r.idx)
    (h : 8 < s.req.dataSize.toNat) :
    exec r.instr s =
      .next (({ s with txValid := false } : State).failed r.stage .badSize (s.req.dataSize.setWidth 8)) := by
  have hfit := encodeRuns_fit r hr
  rw [exec_run_phase (by simp [hr]) hfit hs, runPhase, encodePhase_badSize h]
  exact outcome_raised hs hfit.1

/-- Settles O6: what ENCODE writes is the frame, zero-filled to TXBUF's end. -/
theorem encodeWritesTheFrameOrRaisesBadSize : Obligations.EncodeWritesTheFrameOrRaisesBadSize := by
  intro r hr s hs hwf
  refine ⟨fun h => ⟨s.encoded.moved r.last, encodeFrame s.req, ?_, le_encodeFrame_length s.req,
    encodeFrame_length_le h, exec_encode hr hs h, fun k hk => ?_, fun a ha => ?_, ?_⟩, exec_encode_badSize hr hs⟩
  · rw [← lengthField_eq_ofNat]; rfl
  · rw [State.moved_txbuf, encoded_txbuf hwf h hk]
  · rw [State.moved_mem, read_encoded_outside hwf h ha]
  · rw [State.moved_mem]; rfl

/-- Settles O7: the frame's length counts the payload bytes that take two, and its second byte is the length byte. -/
theorem physicalSizeCountsTheSpecialBytes : Obligations.PhysicalSizeCountsTheSpecialBytes := by
  intro r hr s hs hwf h
  refine ⟨_, exec_encode hr hs h, ?_, ?_⟩
  · rw [State.moved_txPlen, encoded_txPlen h, encodeFrame_length h]
  · have hlen : s.encoded.txbuf 1 = 4#8 + s.req.dataSize.setWidth 8 := encoded_txbuf hwf h (by decide)
    rw [State.moved_txbuf, hlen, lengthField_toNat]

end Sys2Proof.Machine
end

section
/-! SUPPORT. What DECODE finds in RXBUF, and its step: a bad length byte (O8), valid units (O9), an invalid pair (O10),
and a frame that ENCODE wrote (O11). -/

namespace Sys2Proof.Machine

/-! ### DECODE's walk -/

theorem StoredAt.append_right {m : Memory} {p : Nat} {xs ys : List Byte} (h : StoredAt m p (xs ++ ys)) :
    StoredAt m (p + xs.length) ys := by
  induction xs generalizing p with
  | nil => exact h
  | cons x xs ih =>
    rw [List.length_cons, Nat.add_comm xs.length, ← Nat.add_assoc]
    exact ih h.tail

theorem unescape_eq_none {x : Byte} (h1 : x ≠ escByte) (h2 : x ≠ altByte) : unescape x = none := by
  rw [unescape, if_neg h1, if_neg h2]

theorem unstuff_values {m : Memory} {p : Nat} {units : List Instr} {values : List Byte}
    (hv : units.map unitValue = values.map some) (hs : StoredAt m p (units.flatMap encode)) :
    unstuff m p units.length = .ok values := by
  obtain ⟨q, -, -, hw⟩ := unstuff_units (n := 0) (more := []) hv (by rwa [List.append_nil])
  simpa [unstuff] using hw

/-- The walk stops at the first pair that spells no byte (R118). -/
theorem unstuff_invalidPair {m : Memory} {p n : Nat} {units : List Instr} {values : List Byte} {x : Byte}
    (hv : units.map unitValue = values.map some) (hs : StoredAt m p (units.flatMap encode ++ [escByte, x]))
    (hx : unescape x = none) (hn : units.length < n) : unstuff m p n = .error x := by
  obtain ⟨k, rfl⟩ : ∃ k, n = units.length + (k + 1) := ⟨n - units.length - 1, by omega⟩
  obtain ⟨q, hpair, -, hw⟩ := unstuff_units (n := k + 1) hv hs
  have hend : unstuff m q (k + 1) = .error x := by
    rw [unstuff, if_pos hpair.head, hpair.tail.head, hx]
  rw [hw, hend]

/-! ### What RXBUF decodes to -/

theorem badLength_iff (l : Byte) : badLength l = true ↔ l.toNat < 4 ∨ 12 < l.toNat := by simp [badLength]

section
variable {s : State}

theorem decodeBuffer_badLength (h : (s.rxbuf 1).toNat < 4 ∨ 12 < (s.rxbuf 1).toNat) :
    decodeBuffer s.mem = .error (.decLength, s.rxbuf 1) :=
  if_pos ((badLength_iff _).mpr h)

theorem decodeBuffer_ok {values : List Byte} (hlo : 4 ≤ (s.rxbuf 1).toNat) (hhi : (s.rxbuf 1).toNat ≤ 12)
    (h : unstuff s.mem 6 ((s.rxbuf 1).toNat - 4) = .ok values) :
    decodeBuffer s.mem =
      .ok (unpackId (s.rxbuf 2) (s.rxbuf 3) (s.rxbuf 4) (s.rxbuf 5) (Payload.ofList values)
        (BitVec.ofNat 4 ((s.rxbuf 1).toNat - 4))) := by
  unfold State.rxbuf at *
  rw [decodeBuffer, if_neg (by rw [badLength_iff]; omega), h]

theorem decodeBuffer_escape {x : Byte} (hlo : 4 ≤ (s.rxbuf 1).toNat) (hhi : (s.rxbuf 1).toNat ≤ 12)
    (h : unstuff s.mem 6 ((s.rxbuf 1).toNat - 4) = .error x) : decodeBuffer s.mem = .error (.decEscape, x) := by
  unfold State.rxbuf at *
  rw [decodeBuffer, if_neg (by rw [badLength_iff]; omega), h]

/-- A payload that DECODE builds is the values and 0x00 after them (R114). -/
theorem Payload.ofList_zeroFill {values : List Byte} (h : values.length ≤ 8) {k : Nat} (hk : values.length ≤ k) :
    (Payload.ofList values).toList.getD k 0#8 = 0#8 :=
  (Payload.ofList_getD values k h).trans (List.getD_eq_default _ _ hk)

theorem Bank.message_payload {q : Bank} (h : q.dataSize.toNat ≤ 8) : q.message.payload = q.payload := by
  have hlen := payload_length h
  exact (congrArg (List.take · _) hlen.symm).trans (Payload.take_ofList q.payload (by omega))

/-- A message's frame in RXBUF decodes to the message (R117). -/
theorem decodeBuffer_encodeFrame {q : Bank} (h : q.dataSize.toNat ≤ 8) (hs : StoredAt s.mem 0 (encodeFrame q)) :
    decodeBuffer s.mem = .ok q.message := by
  have hlen : (s.rxbuf 1).toNat = 4 + q.dataSize.toNat := by
    have hb : s.rxbuf 1 = 4#8 + q.dataSize.setWidth 8 := hs.tail.head
    rw [hb, lengthField_toNat]
  have hpay : StoredAt s.mem 6 (q.payload.flatMap stuff) := hs.append_right
  have hwalk : unstuff s.mem 6 ((s.rxbuf 1).toNat - 4) = .ok q.payload := by
    have hunits := unstuff_values (map_unitOf q.payload) (by rwa [flatMap_unitOf])
    rwa [List.length_map, payload_length h, ← Nat.add_sub_cancel_left (n := 4) (m := q.dataSize.toNat), ← hlen]
      at hunits
  have h2 : s.rxbuf 2 = q.apiIndex.extractLsb' 0 2 ++ q.device := hs.tail.tail.head
  have h3 : s.rxbuf 3 = q.apiClass ++ q.apiIndex.extractLsb' 2 2 := hs.tail.tail.tail.head
  have h4 : s.rxbuf 4 = q.manufacturer := hs.tail.tail.tail.tail.head
  have h5 : s.rxbuf 5 = q.deviceType := hs.tail.tail.tail.tail.tail.head
  rw [decodeBuffer_ok (by omega) (by omega) hwalk, h2, h3, h4, h5, unpackId_packed, hlen, Nat.add_sub_cancel_left,
    BitVec.ofNat_toNat, BitVec.setWidth_eq]
  rfl

/-! ### DECODE's step -/

variable {d : PhaseRun}

theorem exec_decode_ok (hd : d ∈ decodeRuns) (hs : s.runs d.op d.idx) {b : Bank} (h : decodeBuffer s.mem = .ok b) :
    exec d.instr s = .next (({ s with rx := b, rxValid := true } : State).moved d.last) := by
  have hfit := decodeRuns_fit d hd
  obtain ⟨-, ho, hi⟩ := id hs
  rw [exec_run_phase (by simp [hd]) hfit hs, runPhase, decodePhase, h]
  exact outcome_ended ho hi hfit.2

theorem exec_decode_error (hd : d ∈ decodeRuns) (hs : s.runs d.op d.idx) {c : ErrorCode} {n : Byte}
    (h : decodeBuffer s.mem = .error (c, n)) :
    exec d.instr s = .next (({ s with rxValid := false } : State).failed d.stage c n) := by
  have hfit := decodeRuns_fit d hd
  rw [exec_run_phase (by simp [hd]) hfit hs, runPhase, decodePhase, h]
  exact outcome_raised hs hfit.1

end

/-- Settles O8: the length check comes first. -/
theorem decodeRejectsABadLength : Obligations.DecodeRejectsABadLength := fun _ hr _ hs h =>
  exec_decode_error hr hs (decodeBuffer_badLength h)

/-- Settles O9: the walk over valid units yields their values. -/
theorem decodeReadsTheUnits : Obligations.DecodeReadsTheUnits := by
  intro r hr s units values hs hlo hhi hlen hv hst
  have hvalues : values.length = (s.rxbuf 1).toNat - 4 := by
    rw [← hlen, ← List.length_map (f := unitValue), hv, List.length_map]
  have hwalk : unstuff s.mem 6 ((s.rxbuf 1).toNat - 4) = .ok values := hlen ▸ unstuff_values hv hst
  have hsize : (BitVec.ofNat 4 ((s.rxbuf 1).toNat - 4)).toNat = values.length := by
    rw [hvalues, BitVec.toNat_ofNat, Nat.mod_eq_of_lt (by omega)]
  refine ⟨_, exec_decode_ok hr hs (decodeBuffer_ok hlo hhi hwalk), unpackId_device_toNat ..,
    unpackId_apiIndex_toNat .., unpackId_apiClass_toNat .., rfl, rfl, hsize.trans hvalues, ?_, fun k hk => ?_⟩
  · exact (congrArg (List.take · _) hsize).trans (Payload.take_ofList values (by omega))
  · exact Payload.ofList_zeroFill (by omega) hk

/-- Settles O10: the walk passes the valid units and stops at the pair. -/
theorem decodeRaisesAtTheFirstInvalidPair : Obligations.DecodeRaisesAtTheFirstInvalidPair :=
  fun _ hr _ _ _ _ hs hlo hhi hlen hv h1 h2 hst =>
    exec_decode_error hr hs
      (decodeBuffer_escape hlo hhi (unstuff_invalidPair hv hst (unescape_eq_none h1 h2) hlen))

/-- Settles O11: TXBUF's first TX_PLEN bytes are the frame, and a frame decodes to its message. -/
theorem decodingInvertsEncoding : Obligations.DecodingInvertsEncoding := by
  intro r hr d hd s hs hwf h
  refine ⟨_, exec_encode hr hs h, fun u hu hcopy => ?_⟩
  have hstored : StoredAt u.mem 0 (encodeFrame s.req) := fun k hk => by
    have hcopied := hcopy k (by rwa [State.moved_txPlen, encoded_txPlen h])
    rw [State.moved_txbuf, encoded_txbuf hwf h (hk.trans_le (encodeFrame_length_le h))] at hcopied
    rwa [Nat.zero_add]
  have hpay := payload_length h
  refine ⟨_, exec_decode_ok hd hu (decodeBuffer_encodeFrame h hstored), rfl, rfl, rfl, rfl, rfl, rfl,
    Bank.message_payload h, fun k hk => Payload.ofList_zeroFill (by omega) (by omega)⟩

end Sys2Proof.Machine
end

section
/-! SUPPORT. The transport's steps, said once: WRITE with and without an answer, SYNC's start, a silent and a failing
channel, and SYNC's answer to a byte (O27 to O31, O40). -/

namespace Sys2Proof.Machine

open Sys2Proof

/-! ### WRITE -/

theorem writePhase_offer {s : State} (hlen : s.txPlen.toNat ≤ 22) (hq : s.txReq = false) :
    writePhase s = .waiting { s with txReq := true } := by
  rw [writePhase, if_neg (show ¬bufSize < _ from Nat.not_lt.mpr hlen), if_neg (by simp [hq])]

theorem writePhase_silent {s : State} (hlen : s.txPlen.toNat ≤ 22) (hq : s.txReq = true) (hc : s.chanOut = []) :
    writePhase s = .waiting s := by
  rw [writePhase, if_neg (show ¬bufSize < _ from Nat.not_lt.mpr hlen), if_pos hq, hc]

/-- WRITE's frame with the channel's answer to it, noted in the output history (R141). -/
def State.wrote (s : State) (a : TxAnswer) (rest : List TxAnswer) : State :=
  { s with txReq := false, chanOut := rest, sent := s.sent ++ [⟨s.txFrame, a⟩] }

theorem writePhase_ok {s : State} {rest : List TxAnswer} (hlen : s.txPlen.toNat ≤ 22) (hq : s.txReq = true)
    (hc : s.chanOut = .ok :: rest) : writePhase s = .ended (s.wrote .ok rest) := by
  rw [writePhase, if_neg (show ¬bufSize < _ from Nat.not_lt.mpr hlen), if_pos hq, hc]
  rfl

theorem writePhase_err {s : State} {n : Nat} {rest : List TxAnswer} (hlen : s.txPlen.toNat ≤ 22)
    (hq : s.txReq = true) (hc : s.chanOut = .err n :: rest) :
    writePhase s = .raised .transportTx 0x02#8 (s.wrote (.err n) rest) := by
  rw [writePhase, if_neg (show ¬bufSize < _ from Nat.not_lt.mpr hlen), if_pos hq, hc]
  rfl

theorem txFrame_length (s : State) : s.txFrame.length = s.txPlen.toNat := Memory.readList_length _ _ _

theorem txFrame_getD (s : State) {k : Nat} (hk : k < s.txFrame.length) : s.txFrame.getD k 0#8 = s.txbuf k :=
  Memory.readList_getD _ _ _ _ (by rwa [txFrame_length] at hk)

/-- Settles O27: WRITE's four cases, with the frame `TXBUF[0..TX_PLEN-1]`. -/
theorem writeHandsOverTheWholeFrame : Obligations.WriteHandsOverTheWholeFrame := by
  intro r hr s hs hlen
  have hfit := writeRuns_fit r hr
  obtain ⟨-, ho, hi⟩ := id hs
  have hexec : exec r.instr s = (writePhase s).outcome := exec_run_phase (by simp [hr]) hfit hs
  rw [hexec]
  refine ⟨fun hq => ?_, fun hq hc => ?_, fun rest hq hc => ?_, fun n rest hq hc => ?_⟩
  · rw [writePhase_offer hlen hq, outcome_waiting]
  · rw [writePhase_silent hlen hq hc, outcome_waiting]
  · refine ⟨s.txFrame, txFrame_length s, fun k hk => txFrame_getD s hk, ?_⟩
    rw [writePhase_ok hlen hq hc]
    exact outcome_ended (t := s.wrote .ok rest) ho hi hfit.2
  · refine ⟨s.txFrame, txFrame_length s, fun k hk => txFrame_getD s hk, ?_⟩
    rw [writePhase_err hlen hq hc]
    exact outcome_raised (t := s.wrote (.err n) rest) hs hfit.1

/-- Settles O28: only WRITE's step sends, and under the invariant TXBUF then holds the request's encoding. -/
theorem everyFrameSentIsTheRequestsEncoding : Obligations.EveryFrameSentIsTheRequestsEncoding := by
  intro s t hinv hs
  rcases (step_next hs).channel with ⟨-, -, hsent⟩ | ⟨p, hp, h⟩
  · exact .inl hsent
  · obtain ⟨-, -, -, -, -, -, hsent⟩ := phase_frame h
    refine hsent.imp_right fun ⟨a, hw, hout, hadd⟩ => ?_
    subst hw
    have hout : s.chanOut = a :: t.chanOut := hout
    obtain ⟨hsize, -, -, hframe⟩ := hinv.write_frame hp
    exact ⟨a, hp, hsize, hframe ▸ hadd, by rw [hout]; rfl, by rw [hout]; rfl⟩

/-! ### SYNC's start -/

/-- What SYNC's start leaves, with RXBUF cleared in the memory m (R143). -/
def State.hunting (s : State) (m : Memory) : State :=
  { s with
    mem := m, rxPlen := 0#8, rxLen := 0#8, rxOvh := 0#8, dfrUnits := 0#8, discard := 0#16
    rxValid := false, dfrState := .hunt, rxReq := true }

/-- SYNC's start writes RXBUF's 22 bytes and no other. -/
theorem syncPhase_start {s : State} (hq : s.rxReq = false) (hwf : Memory.wf s.mem) :
    ∃ m, Memory.wf m ∧ (∀ a, Memory.read m a = if 0x60 ≤ a ∧ a < 0x76 then 0#8 else Memory.read s.mem a) ∧
      syncPhase s = .waiting (s.hunting m) :=
  ⟨Memory.writeList s.mem rxbufBase (padded []), Memory.writeList_wf _ _ hwf,
    fun a => read_written hwf (l := []) (by decide) rxbufBase a, by
      simp only [syncPhase, hq, Bool.false_eq_true, if_false, syncStart, syncMore, State.hunting]⟩

/-- Settles O29: its memory reads 0x00 in RXBUF and as before outside it. -/
theorem syncStartClearsTheReceiver : Obligations.SyncStartClearsTheReceiver := by
  intro r hr s hs hq hwf
  obtain ⟨m, -, hread, hstart⟩ := syncPhase_start hq hwf
  refine ⟨s.hunting m, ?_, fun k hk => (hread _).trans (if_pos ?_), fun a ha => (hread a).trans (if_neg ?_), rfl⟩
  · rw [exec_run_phase (by simp [hr]) (syncRuns_fit r hr).1 hs, runPhase, hstart, outcome_waiting]
  · simp only [rxbufBase]; omega
  · omega

/-! ### The channel's answers to SYNC -/

theorem syncPhase_silent {s : State} (hq : s.rxReq = true) (hc : s.chanIn = []) : syncPhase s = .waiting s := by
  rw [syncPhase, if_pos hq, hc]

theorem syncPhase_eof {s : State} {rest : List RxAnswer} (hq : s.rxReq = true) (hc : s.chanIn = .eof :: rest) :
    syncPhase s = .raised .transportRx 0x01#8 { s with chanIn := rest, rxReq := false } := by
  rw [syncPhase, if_pos hq, hc]
  rfl

theorem syncPhase_err {s : State} {rest : List RxAnswer} (hq : s.rxReq = true) (hc : s.chanIn = .err :: rest) :
    syncPhase s = .raised .transportRx 0x02#8 { s with chanIn := rest, rxReq := false } := by
  rw [syncPhase, if_pos hq, hc]
  rfl

theorem syncPhase_byte {s : State} {b : Byte} {rest : List RxAnswer} (hq : s.rxReq = true)
    (hc : s.chanIn = .byte b :: rest) (hp : s.place.isSome = true) :
    syncPhase s = syncByte b { s with chanIn := rest } := by
  rw [syncPhase, if_pos hq, hc]
  exact if_neg (by simpa [Option.isSome_iff_ne_none] using hp)

/-- Settles O30: the error's place in R31's table gives its stage. -/
theorem channelFailureIsTransportRx : Obligations.ChannelFailureIsTransportRx := by
  intro r hr s rest hs hq
  have hfit := (syncRuns_fit r hr).1
  rw [exec_run_phase (by simp [hr]) hfit hs, runPhase]
  constructor
  · intro hc
    rw [syncPhase_eof hq hc]
    exact outcome_raised (t := { s with chanIn := rest, rxReq := false }) hs hfit.1
  · intro hc
    rw [syncPhase_err hq hc]
    exact outcome_raised (t := { s with chanIn := rest, rxReq := false }) hs hfit.1

/-- The block's turn, where `turns` gives it and the block runs a phase, is the phase's next step. -/
theorem step_block_phase {s : State} {turns : List Turn} {p : Phase} (ht : s.turns = .block :: turns)
    (hr : s.rst = false) (hp : s.phase = some p) : step s = (runPhase p { s with turns := turns }).outcome := by
  obtain ⟨st, hc⟩ := phase_some hp
  rw [step_block ht]
  exact block_phase (s := { s with turns := turns }) hr hc

/-- Settles O31: SYNC and WRITE wait for the channel. -/
theorem theBlockHoldsForASilentChannel : Obligations.TheBlockHoldsForASilentChannel := by
  intro s turns ht hr _
  constructor
  · intro hp hq hc
    rw [step_block_phase ht hr hp, runPhase, syncPhase_silent (s := { s with turns := turns }) hq hc, outcome_waiting]
  · intro hp hlen hq hc
    rw [step_block_phase ht hr hp, runPhase, writePhase_silent (s := { s with turns := turns }) hlen hq hc,
      outcome_waiting]

/-- Settles O40: the block's turn at a SYNC phase is SYNC's next step, which unit_phase says of every delivered byte. -/
theorem wireUnitsAreWhatSyncDoes : Obligations.WireUnitsAreWhatSyncDoes := by
  intro r hr s turns ht hlow hs
  have hfit := (syncRuns_fit r hr).1
  rw [step_block_phase ht hlow (hs.phase hfit.1)]
  exact (exec_run_phase (s := { s with turns := turns }) (by simp [hr]) hfit hs).symm

end Sys2Proof.Machine
end

section
/-! SUPPORT. What SYNC does with a byte at each state of the deframer, as the next state (O32 to O37). -/

namespace Sys2Proof.Machine

open Sys2Proof

/-! ### A byte is stored, a unit is counted -/

/-- `RXBUF[RX_PLEN] <- b; RX_PLEN <- RX_PLEN + 1` (R146 to R148). -/
def State.push (s : State) (b : Byte) : State :=
  { s with mem := Memory.write s.mem (rxbufBase + s.rxPlen.toNat) b, rxPlen := s.rxPlen + 1#8 }

theorem read_push {s : State} (hwf : Memory.wf s.mem) (b : Byte) (a : Nat) :
    Memory.read (s.push b).mem a = if a = 0x60 + s.rxPlen.toNat then b else Memory.read s.mem a :=
  Memory.read_write _ b a hwf

/-- A unit has been read: BODY goes on while units are missing, else the frame is whole and the next phase is due
(R147, R149). -/
def State.unitCounted (s : State) : State :=
  if s.dfrUnits.toNat + 1 < s.rxLen.toNat then { s with dfrUnits := s.dfrUnits + 1#8, dfrState := .body }
  else { s with dfrUnits := s.dfrUnits + 1#8, dfrState := .done, rxReq := false, seqIdx := s.seqIdx + 1#4 }

theorem unitCounted_more {s : State} (h : s.dfrUnits.toNat + 1 < s.rxLen.toNat) :
    s.unitCounted = { s with dfrUnits := s.dfrUnits + 1#8, dfrState := .body } := if_pos h

theorem unitCounted_last {s : State} (h : ¬s.dfrUnits.toNat + 1 < s.rxLen.toNat) :
    s.unitCounted =
      { s with dfrUnits := s.dfrUnits + 1#8, dfrState := .done, rxReq := false, seqIdx := s.seqIdx + 1#4 } := if_neg h

@[simp] theorem unitCounted_mem (s : State) : s.unitCounted.mem = s.mem := by unfold State.unitCounted; split <;> rfl
@[simp] theorem unitCounted_rxPlen (s : State) : s.unitCounted.rxPlen = s.rxPlen := by
  unfold State.unitCounted; split <;> rfl
@[simp] theorem unitCounted_dfrUnits (s : State) : s.unitCounted.dfrUnits = s.dfrUnits + 1#8 := by
  unfold State.unitCounted; split <;> rfl

/-- SYNC is never a command's last phase (R31). -/
theorem sync_not_last : ∀ op idx : BitVec 4, ((phaseList op)[idx.toNat]?).map Prod.fst = some .sync →
    idx.toNat + 1 < (phaseList op).length := by decide

theorem phase_eq_map {s : State} {p : Phase} (h : s.phase = some p) :
    ((phaseList s.seqOp)[s.seqIdx.toNat]?).map Prod.fst = some p := by
  obtain ⟨st, hc⟩ := phase_some h
  rw [(current_some hc).2]
  rfl

theorem advance_sync {s : State} (h : s.phase = some .sync) : s.advance = { s with seqIdx := s.seqIdx + 1#4 } :=
  if_pos (sync_not_last _ _ (phase_eq_map h))

/-- SYNC that goes on has its rd() outstanding already. -/
theorem syncMore_outcome {s : State} (hq : s.rxReq = true) : (syncMore s).outcome = .next s := by
  rw [syncMore, ← hq, outcome_waiting]

/-- A byte's value that has a successor. -/
theorem toNat_add_one {b : Byte} (h : b.toNat < 255) : (b + 1#8).toNat = b.toNat + 1 := by
  rw [BitVec.toNat_add, BitVec.toNat_ofNat]; omega

/-! ### The states of the deframer -/

section
variable {s : State}

theorem unitRead_outcome (hp : s.phase = some .sync) (hq : s.rxReq = true) (hn : s.dfrUnits.toNat < 255) :
    (unitRead s).outcome = .next s.unitCounted := by
  by_cases h : s.dfrUnits.toNat + 1 < s.rxLen.toNat
  · rw [unitRead, if_pos (by rwa [toNat_add_one hn]), unitCounted_more h]
    exact syncMore_outcome hq
  · rw [unitRead, if_neg (by rwa [toNat_add_one hn]), unitCounted_last h]
    exact congrArg Host.Outcome.next (advance_sync (s := { s with dfrUnits := _, dfrState := _, rxReq := _ }) hp)

/-- HUNT has met START (R144). -/
def State.pushStart (s : State) : State :=
  { s with mem := Memory.write s.mem rxbufBase startByte, rxPlen := 1#8, dfrState := .len }

theorem huntStart_outcome (hq : s.rxReq = true) : (huntStart s).outcome = .next s.pushStart :=
  syncMore_outcome (s := s.pushStart) hq

/-- DISCARD counts up to 0xFFFF and stays there (R35). -/
theorem discard_succ : (if s.discard = 0xFFFF#16 then 0xFFFF#16 else s.discard + 1#16) =
    BitVec.ofNat 16 (min (s.discard.toNat + 1) 0xFFFF) := by
  have hlt := s.discard.isLt
  split
  · next h => rw [h]; rfl
  · next h =>
    have hne : s.discard.toNat ≠ 0xFFFF := fun he => h (BitVec.eq_of_toNat_eq he)
    rw [min_eq_left (by omega), BitVec.ofNat_add, BitVec.ofNat_toNat, BitVec.setWidth_eq]

theorem huntNoise_outcome (hq : s.rxReq = true) : (huntNoise s).outcome =
    .next { s with discard := BitVec.ofNat 16 (min (s.discard.toNat + 1) 0xFFFF) } := by
  rw [huntNoise, discard_succ]
  exact syncMore_outcome hq

/-- LEN has stored its byte (R145). -/
def State.lengthStored (s : State) (b : Byte) : State :=
  { s with mem := Memory.write s.mem (rxbufBase + 1) b, rxPlen := 2#8, rxLen := b }

theorem lengthByte_good {b : Byte} (hq : s.rxReq = true) (hb : badLength b = false) :
    (lengthByte b s).outcome = .next { s.lengthStored b with dfrState := .id } := by
  rw [lengthByte, if_neg (by simp [hb])]
  exact syncMore_outcome (s := { s.lengthStored b with dfrState := .id }) hq

theorem lengthByte_bad {b : Byte} (hb : badLength b = true) :
    lengthByte b s = .raised .decLength b { s.lengthStored b with rxReq := false } := by
  rw [lengthByte, if_pos hb]
  rfl

theorem idByte_more {b : Byte} (hq : s.rxReq = true) (hroom : s.rxPlen.toNat < 22) (hn : s.dfrUnits.toNat + 1 < 4) :
    (idByte b s).outcome = .next { s.push b with dfrUnits := s.dfrUnits + 1#8 } := by
  rw [idByte, storeRx_room b _ hroom]
  dsimp only
  rw [if_pos (by rwa [toNat_add_one (by omega)])]
  exact syncMore_outcome (s := { s.push b with dfrUnits := s.dfrUnits + 1#8 }) hq

/-- The fourth identifier byte is a unit like those of the payload: it goes on to BODY, or ends SYNC (R146). -/
theorem idByte_last {b : Byte} (hp : s.phase = some .sync) (hq : s.rxReq = true) (hroom : s.rxPlen.toNat < 22)
    (hn : s.dfrUnits.toNat = 3) : (idByte b s).outcome = .next (s.push b).unitCounted := by
  have hsucc : (s.dfrUnits + 1#8).toNat = 4 := by rw [toNat_add_one (by omega), hn]
  have hunit : idByte b s = unitRead (s.push b) := by
    rw [idByte, storeRx_room b _ hroom]
    dsimp only
    rw [if_neg (by rw [hsucc]; decide)]
    by_cases h : 4 < s.rxLen.toNat
    · rw [if_pos h]
      exact (if_pos (show (s.dfrUnits + 1#8).toNat < s.rxLen.toNat by rwa [hsucc])).symm
    · rw [if_neg h]
      exact (if_neg (show ¬(s.dfrUnits + 1#8).toNat < s.rxLen.toNat by rwa [hsucc])).symm
  rw [hunit, unitRead_outcome (s := s.push b) hp hq (show s.dfrUnits.toNat < 255 by omega)]

theorem bodyLiteral_outcome {b : Byte} (hp : s.phase = some .sync) (hq : s.rxReq = true)
    (hroom : s.rxPlen.toNat < 22) (hn : s.dfrUnits.toNat < 255) :
    (bodyLiteral b s).outcome = .next (s.push b).unitCounted := by
  rw [bodyLiteral, storeRx_room b _ hroom]
  exact unitRead_outcome (s := s.push b) hp hq hn

/-- BODY has met ESC (R147). -/
def State.pushEscape (s : State) : State := { s.push escByte with dfrState := .esc }

theorem bodyEscape_outcome (hq : s.rxReq = true) (hroom : s.rxPlen.toNat < 22) :
    (bodyEscape s).outcome = .next s.pushEscape := by
  rw [bodyEscape, storeRx_room escByte _ hroom]
  exact syncMore_outcome (s := s.pushEscape) hq

/-- ESC has stored its byte, which counts as overhead (R148). -/
def State.pushEscaped (s : State) (c : Byte) : State := { s.push c with rxOvh := s.rxOvh + 1#8 }

theorem escSecond_outcome {c : Byte} (hp : s.phase = some .sync) (hq : s.rxReq = true)
    (hroom : s.rxPlen.toNat < 22) (hn : s.dfrUnits.toNat < 255) :
    (escSecond c s).outcome = .next (s.pushEscaped c).unitCounted := by
  rw [escSecond, storeRx_room c _ hroom]
  exact unitRead_outcome (s := s.pushEscaped c) hp hq hn

/-! ### SYNC's answer to a byte, by the deframer's state -/

theorem syncByte_start (hd : s.dfrState = .hunt) : syncByte startByte s = huntStart s := by
  simp only [syncByte, hd, if_true]

theorem syncByte_noise {b : Byte} (hd : s.dfrState = .hunt) (hb : b ≠ startByte) : syncByte b s = huntNoise s := by
  simp only [syncByte, hd, if_neg hb]

theorem syncByte_length (b : Byte) (hd : s.dfrState = .len) : syncByte b s = lengthByte b s := by
  simp only [syncByte, hd]

theorem syncByte_ident (b : Byte) (hd : s.dfrState = .id) : syncByte b s = idByte b s := by
  simp only [syncByte, hd]

theorem syncByte_escape (hd : s.dfrState = .body) : syncByte escByte s = bodyEscape s := by
  simp only [syncByte, hd, if_true]

theorem syncByte_literal {b : Byte} (hd : s.dfrState = .body) (hb : b ≠ escByte) :
    syncByte b s = bodyLiteral b s := by
  simp only [syncByte, hd, if_neg hb]

theorem syncByte_second (c : Byte) (hd : s.dfrState = .esc) : syncByte c s = escSecond c s := by
  simp only [syncByte, hd]

/-! ### The rows at their places -/

/-- A wire unit runs where an rd() of SYNC is outstanding and the deframer stands at its place. -/
theorem wireUnit_here {here : Bool} (name : String) (e : PhaseEnd) (hp : s.phase = some .sync) (hq : s.rxReq = true)
    (hh : here = true) : wireUnit name here e s = e.outcome :=
  if_pos (Bool.and_eq_true_iff.mpr ⟨(awaitsByte_iff s).mpr ⟨hq, hp⟩, hh⟩)

end

theorem syncRuns_phase {r : PhaseRun} (hr : r ∈ syncRuns) {s : State} (hs : s.runs r.op r.idx) :
    s.phase = some .sync := hs.phase (syncRuns_fit r hr).1.1

/-- Settles O32: START and noise each at HUNT. -/
theorem huntFindsStart : Obligations.HuntFindsStart := by
  intro s hp hq hd hwf
  refine ⟨⟨s.pushStart, ?_, fun a => Memory.read_write rxbufBase startByte a hwf, rfl⟩, fun b _ => ?_⟩
  · exact (wireUnit_here _ _ hp hq (decide_eq_true hd)).trans (huntStart_outcome hq)
  · exact (wireUnit_here _ _ hp hq (decide_eq_true hd)).trans (huntNoise_outcome hq)

/-- Settles O33: the byte is stored on both sides of the check. -/
theorem lengthByteIsStoredThenChecked : Obligations.LengthByteIsStoredThenChecked := by
  intro r hr s b hs hq hd hwf
  have hexec : exec (.wireLength b) s = (lengthByte b s).outcome :=
    wireUnit_here _ _ (syncRuns_phase hr hs) hq (decide_eq_true hd)
  have hread : ∀ a, Memory.read (s.lengthStored b).mem a = if a = 0x61 then b else Memory.read s.mem a :=
    fun a => Memory.read_write (rxbufBase + 1) b a hwf
  by_cases hb : badLength b = true
  · have hout := (badLength_iff b).mp hb
    refine ⟨({ s.lengthStored b with rxReq := false } : State).failed r.stage .decLength b, ?_, hread,
      fun _ => by omega, fun _ => rfl⟩
    rw [hexec, lengthByte_bad hb]
    exact outcome_raised (t := { s.lengthStored b with rxReq := false }) hs (syncRuns_fit r hr).1.1
  · have hin := mt (badLength_iff b).mpr hb
    refine ⟨{ s.lengthStored b with dfrState := .id }, ?_, hread, fun _ => rfl, fun h => absurd h hin⟩
    rw [hexec, lengthByte_good hq (by simpa using hb)]

/-- One identifier byte's row (R146): the byte b, at the count n of the units before it. -/
theorem identByte_stored {r : PhaseRun} (hr : r ∈ syncRuns) {s : State} (hs : s.runs r.op r.idx) (hq : s.rxReq = true)
    (hroom : s.rxPlen.toNat < 22) (hwf : Memory.wf s.mem) {i : Instr} {b n : Byte} (hn : n.toNat < 4)
    (hexec : s.dfrUnits = n → exec i s = (idByte b s).outcome) (hu : s.dfrUnits = n) :
    ∃ t : State, exec i s = .next t ∧
      (∀ a, Memory.read t.mem a = if a = 0x60 + s.rxPlen.toNat then b else Memory.read s.mem a) ∧
      t = (if n ≠ 0x03#8 then { s with mem := t.mem, rxPlen := s.rxPlen + 0x01#8, dfrUnits := n + 0x01#8 }
        else if 4 < s.rxLen.toNat then
          { s with mem := t.mem, rxPlen := s.rxPlen + 0x01#8, dfrUnits := 0x04#8, dfrState := .body }
        else
          { s with mem := t.mem, rxPlen := s.rxPlen + 0x01#8, dfrUnits := 0x04#8, dfrState := .done,
                   rxReq := false, seqIdx := r.idx + 0x1#4 }) ∧
      (n = 0x03#8 → s.rxPlen = 0x05#8 → t.rxPlen = 0x06#8 ∧ t.dfrUnits = 0x04#8) := by
  have hp := syncRuns_phase hr hs
  obtain ⟨-, -, hidx⟩ := hs
  rw [hexec hu]
  subst hu
  by_cases h3 : s.dfrUnits = 0x03#8
  · have hcount : s.dfrUnits.toNat + 1 = 4 := by rw [h3]; rfl
    refine ⟨_, idByte_last hp hq hroom (by omega), fun a => ?_, ?_, fun _ h5 => ?_⟩
    · rw [unitCounted_mem, read_push hwf]
    · rw [if_neg (not_not.mpr h3)]
      by_cases hlen : 4 < s.rxLen.toNat
      · rw [if_pos hlen, unitCounted_more (by rwa [← hcount] at hlen)]
        simp [State.push, h3]
      · rw [if_neg hlen, unitCounted_last (by rwa [← hcount] at hlen)]
        simp [State.push, h3, hidx]
    · rw [unitCounted_rxPlen, unitCounted_dfrUnits]
      simp [State.push, h3, h5]
  · have hlt : s.dfrUnits.toNat ≠ 3 := fun he => h3 (BitVec.eq_of_toNat_eq he)
    refine ⟨_, idByte_more hq hroom (by omega), read_push hwf b, ?_, fun h => absurd h h3⟩
    rw [if_pos h3]
    rfl

/-- Settles O34: the four rows are idByte of their byte. -/
theorem identifierBytesAreRawUnits : Obligations.IdentifierBytesAreRawUnits := by
  intro r hr s idxLo idxHi dev cls mfr typ hs hq hd hroom hwf e he
  have hp := syncRuns_phase hr hs
  have hplace {n : Byte} (hu : s.dfrUnits = n) : (s.dfrState = .id && s.dfrUnits = n : Bool) = true := by
    simp [hd, hu]
  simp only [List.mem_cons, List.not_mem_nil, or_false] at he
  rcases he with rfl | rfl | rfl | rfl
  all_goals exact identByte_stored hr hs hq hroom hwf (by simp) fun hu => wireUnit_here _ _ hp hq (hplace hu)

/-- Settles O35: the byte is stored and the unit counted. -/
theorem literalUnitIsStored : Obligations.LiteralUnitIsStored := by
  intro r hr s d _ hs hq hd hroom hunits hwf
  have hp := syncRuns_phase hr hs
  have hlen := s.rxLen.isLt
  obtain ⟨-, -, hidx⟩ := hs
  refine ⟨(s.push d).unitCounted, ?_, fun a => ?_, ?_⟩
  · exact (wireUnit_here _ _ hp hq (decide_eq_true hd)).trans (bodyLiteral_outcome hp hq hroom (by omega))
  · rw [unitCounted_mem, read_push hwf]
  · by_cases h : s.dfrUnits.toNat + 1 < s.rxLen.toNat
    · rw [if_pos h, unitCounted_more (s := s.push d) h, ← hd]
      rfl
    · rw [if_neg h, unitCounted_last (s := s.push d) h, ← hidx]
      rfl

/-- Settles O36: the rows ESC, ALT and any other byte are escSecond of their byte. -/
theorem escapedUnitIsStoredWhateverItsSecondByte : Obligations.EscapedUnitIsStoredWhateverItsSecondByte := by
  intro r hr s x _ _ hs hq hd hroom hunits hwf e he
  have hp := syncRuns_phase hr hs
  have hlen := s.rxLen.isLt
  obtain ⟨-, -, hidx⟩ := hs
  have hexec : exec e.1 s = (escSecond e.2 s).outcome := by
    revert e
    simp only [List.forall_mem_cons]
    exact ⟨wireUnit_here _ _ hp hq (decide_eq_true hd), wireUnit_here _ _ hp hq (decide_eq_true hd),
      wireUnit_here _ _ hp hq (decide_eq_true hd), by simp⟩
  refine ⟨(s.pushEscaped e.2).unitCounted, hexec.trans (escSecond_outcome hp hq hroom (by omega)), fun a => ?_, ?_⟩
  · rw [unitCounted_mem]
    exact read_push hwf e.2 a
  · by_cases h : s.dfrUnits.toNat + 1 < s.rxLen.toNat
    · rw [if_pos h, unitCounted_more (s := s.pushEscaped e.2) h]
      rfl
    · rw [if_neg h, unitCounted_last (s := s.pushEscaped e.2) h, ← hidx]
      rfl

/-- Settles O37: SYNC's step on the byte is bodyEscape. -/
theorem escapeByteOpensAUnit : Obligations.EscapeByteOpensAUnit := by
  intro s turns rest ht hr _ hp hq hd hc hroom hwf
  refine ⟨({ s with turns := turns, chanIn := rest } : State).pushEscape, ?_,
    read_push (s := { s with turns := turns, chanIn := rest }) hwf escByte, rfl⟩
  have hbyte : syncByte 0xFE#8 { s with turns := turns, chanIn := rest } =
      bodyEscape { s with turns := turns, chanIn := rest } := syncByte_escape hd
  rw [step_block_phase ht hr hp, runPhase,
    syncPhase_byte (s := { s with turns := turns }) hq hc (by simp [State.place, hd]), hbyte,
    bodyEscape_outcome (s := { s with turns := turns, chanIn := rest }) hq hroom]

end Sys2Proof.Machine
end

section
/-! SUPPORT. One step of SYNC, inverted: what it can do with a byte, and what else it can do; where SYNC ends (O42) and
that SYNC and DECODE stay coupled (O49). -/

namespace Sys2Proof.Machine

open Sys2Proof

/-! ### What one step of SYNC can do -/

/-- What SYNC can do with a byte it has taken. -/
inductive ByteTaken (s : State) : State → Prop where
  | start (hd : s.dfrState = .hunt) : ByteTaken s s.pushStart
  | noise (n : BitVec 16) (hd : s.dfrState = .hunt) : ByteTaken s { s with discard := n }
  | length (b : Byte) (hd : s.dfrState = .len) (hb : badLength b = false) :
      ByteTaken s { s.lengthStored b with dfrState := .id }
  | badLength (b : Byte) (st : Stage) (hd : s.dfrState = .len) (hb : badLength b = true) :
      ByteTaken s (({ s.lengthStored b with rxReq := false } : State).failed st .decLength b)
  | ident (b : Byte) (hd : s.dfrState = .id) (hn : s.dfrUnits.toNat + 1 < 4) :
      ByteTaken s { s.push b with dfrUnits := s.dfrUnits + 1#8 }
  | lastIdent (b : Byte) (hd : s.dfrState = .id) (hn : s.dfrUnits.toNat = 3) : ByteTaken s (s.push b).unitCounted
  | literal (b : Byte) (hd : s.dfrState = .body) (hb : b ≠ escByte) : ByteTaken s (s.push b).unitCounted
  | escape (hd : s.dfrState = .body) : ByteTaken s s.pushEscape
  | second (c : Byte) (hd : s.dfrState = .esc) : ByteTaken s (s.pushEscaped c).unitCounted

/-- Under the invariant a byte taken at a place of the frame does one of these. -/
theorem byteTaken {s t : State} {b : Byte} (hinv : s.Inv) (hp : s.phase = some .sync) (hq : s.rxReq = true)
    (h : (syncByte b s).outcome = .next t) : ByteTaken s t := by
  have hdf := hinv.deframer
  obtain ⟨-, hpl, -⟩ := hinv.rx_req hq
  unfold State.DeframerOk at hdf
  unfold syncByte at h
  unfold State.place at hpl
  cases hd : s.dfrState <;> simp only [hd] at hdf h hpl
  case idle => simp at hpl
  case done => simp at hpl
  case hunt =>
    split at h
    · exact Host.Outcome.next.inj ((huntStart_outcome hq).symm.trans h) ▸ .start hd
    · exact Host.Outcome.next.inj ((huntNoise_outcome hq).symm.trans h) ▸ .noise _ hd
  case len =>
    cases hb : badLength b with
    | true =>
      rw [lengthByte_bad hb] at h
      exact Host.Outcome.next.inj h ▸ .badLength b _ hd hb
    | false => exact Host.Outcome.next.inj ((lengthByte_good hq hb).symm.trans h) ▸ .length b hd hb
  case id =>
    by_cases hn : s.dfrUnits.toNat + 1 < 4
    · exact Host.Outcome.next.inj ((idByte_more hq (by omega) hn).symm.trans h) ▸ .ident b hd hn
    · have hn : s.dfrUnits.toNat = 3 := by omega
      exact Host.Outcome.next.inj ((idByte_last hp hq (by omega) hn).symm.trans h) ▸ .lastIdent b hd hn
  case body =>
    split at h
    · exact Host.Outcome.next.inj ((bodyEscape_outcome hq (by omega)).symm.trans h) ▸ .escape hd
    · next hb =>
      exact Host.Outcome.next.inj ((bodyLiteral_outcome hp hq (by omega) (by omega)).symm.trans h) ▸ .literal b hd hb
  case esc =>
    exact Host.Outcome.next.inj ((escSecond_outcome hp hq (by omega) (by omega)).symm.trans h) ▸ .second b hd

/-- What one step of SYNC can do. -/
inductive SyncStepped (s : State) : State → Prop where
  | start (m : Memory) (hq : s.rxReq = false) : SyncStepped s (s.hunting m)
  | held (hq : s.rxReq = true) (hc : s.chanIn = []) : SyncStepped s s
  | failed (rest : List RxAnswer) (st : Stage) (c : ErrorCode) (n : Byte) (hq : s.rxReq = true) :
      SyncStepped s (({ s with chanIn := rest, rxReq := false } : State).failed st c n)
  | byte (rest : List RxAnswer) (t : State) (hq : s.rxReq = true) (h : ByteTaken { s with chanIn := rest } t) :
      SyncStepped s t

theorem syncStepped {s t : State} (hinv : s.Inv) (hp : s.phase = some .sync)
    (h : (syncPhase s).outcome = .next t) : SyncStepped s t := by
  cases hq : s.rxReq with
  | false =>
    obtain ⟨m, -, -, hstart⟩ := syncPhase_start hq hinv.mem_wf
    rw [hstart] at h
    exact Host.Outcome.next.inj h ▸ .start m hq
  | true =>
    cases hc : s.chanIn with
    | nil =>
      rw [syncPhase_silent hq hc] at h
      exact Host.Outcome.next.inj h ▸ .held hq hc
    | cons a rest =>
      cases a with
      | eof =>
        rw [syncPhase_eof hq hc] at h
        exact Host.Outcome.next.inj h ▸ .failed rest _ _ _ hq
      | err =>
        rw [syncPhase_err hq hc] at h
        exact Host.Outcome.next.inj h ▸ .failed rest _ _ _ hq
      | byte b =>
        obtain ⟨-, hpl, -⟩ := hinv.rx_req hq
        rw [syncPhase_byte hq hc hpl] at h
        exact .byte rest t hq (byteTaken (inv_env hinv _ _ _ _ _ _) hp hq h)

/-! ### Where SYNC ends -/

theorem unitCounted_ends {s : State} (hp : s.phase = some .sync) (h : s.unitCounted.phase = some .decode) :
    s.unitCounted.dfrState = .done := by
  by_cases hn : s.dfrUnits.toNat + 1 < s.rxLen.toNat
  · rw [unitCounted_more hn] at h
    exact absurd (hp.symm.trans h) (by decide)
  · rw [unitCounted_last hn]

/-- SYNC's step gives way to DECODE only with a whole frame. -/
theorem SyncStepped.ends {s t : State} (h : SyncStepped s t) (hp : s.phase = some .sync)
    (ht : t.phase = some .decode) : t.dfrState = .done := by
  have stays {u : State} (hu : u.phase = s.phase) (hu' : u.phase = some .decode) : u.dfrState = .done :=
    absurd (hp.symm.trans (hu.symm.trans hu')) (by decide)
  cases h with
  | start m => exact stays rfl ht
  | held => exact stays rfl ht
  | failed rest st c n => cases ht
  | byte rest t hq hb =>
    cases hb with
    | start => exact stays rfl ht
    | noise => exact stays rfl ht
    | length => exact stays rfl ht
    | badLength => cases ht
    | ident => exact stays rfl ht
    | escape => exact stays rfl ht
    | lastIdent b => exact unitCounted_ends (s := State.push _ b) hp ht
    | literal b => exact unitCounted_ends (s := State.push _ b) hp ht
    | second c => exact unitCounted_ends (s := State.pushEscaped _ c) hp ht

/-- Settles O42: only SYNC's own step ends SYNC, and the invariant gives the counters of DONE. -/
theorem physicalSizeReadCountsTheEscapes : Obligations.PhysicalSizeReadCountsTheEscapes := by
  intro s t hinv hp hs ht
  have hne : s.phase ≠ some .decode := by simp [hp]
  have hbusy : s.busy ≠ false := by
    obtain ⟨st, hc⟩ := phase_some hp
    simp [(current_some hc).1]
  have hdone : t.dfrState = .done := by
    cases step_next hs with
    | phase p st _ _ _ hc h =>
      obtain rfl : p = .sync := Option.some.inj ((phase_eq_of hc).symm.trans hp)
      exact (syncStepped (s := s.popTurn) (hinv.turn s.host s.reads) hp h).ends hp ht
    | quiet => exact absurd ht hne
    | lost => exact absurd ht hne
    | noneLost => exact absurd ht hne
    | reset => cases ht
    | abort => cases ht
    | none => cases ht
    | store _ _ _ _ _ hb => exact absurd hb hbusy
    | accept _ _ _ _ hb => exact absurd hb hbusy
    | illegal _ _ _ _ hb => exact absurd hb hbusy
  have hdf := (everyStepKeepsInv s t hinv hs).deframer
  simp only [State.DeframerOk, hdone] at hdf
  obtain ⟨hunits, hplen, hlo, hhi, hovh⟩ := hdf
  exact ⟨hdone, hunits, hplen, by omega, by omega⟩

/-! ### The coupling at the states of the deframer -/

/-- What the coupling says while SYNC has an rd() outstanding, by the deframer's state. -/
def State.SyncCoupled (s : State) : Prop :=
  match s.dfrState with
  | .len => s.rxbuf 0 = startByte
  | .id => s.HeaderStored
  | .body => s.HeaderStored ∧ walkEnd s.mem 6 (s.dfrUnits.toNat - 4) = s.rxPlen.toNat
  | .esc => s.HeaderStored ∧ walkEnd s.mem 6 (s.dfrUnits.toNat - 4) + 1 = s.rxPlen.toNat ∧
      s.rxbuf (s.rxPlen.toNat - 1) = escByte
  | _ => True

theorem State.Coupled.sync {s : State} (h : s.Coupled) (hq : s.rxReq = true) : s.SyncCoupled := by
  unfold State.SyncCoupled
  cases hd : s.dfrState with
  | len => exact h.start hq hd
  | id => exact h.ident hq hd
  | body => exact h.body hq hd
  | esc => exact h.esc hq hd
  | _ => trivial

theorem State.SyncCoupled.coupled {s : State} (h : s.SyncCoupled) (hp : s.phase = some .sync) : s.Coupled := by
  unfold State.SyncCoupled at h
  constructor
  case whole => exact fun hdec => absurd (hp.symm.trans hdec) (by decide)
  all_goals
    intro _ hd
    simpa only [hd] using h

/-- Where no rd() is outstanding and DECODE does not follow SYNC, the coupling says nothing. -/
theorem coupled_of_unread {s : State} (hq : s.rxReq = false) (hw : s.phase = some .decode → s.seqIdx = 0#4) :
    s.Coupled := by
  constructor
  case whole => exact fun hdec hidx => absurd (hw hdec) hidx
  all_goals exact fun hr => absurd (hq.symm.trans hr) (by decide)

/-! ### SYNC keeps the coupling -/

section
variable {s : State}

theorem push_header (hwf : Memory.wf s.mem) (b : Byte) (hlen : 2 ≤ s.rxPlen.toNat) (h : s.HeaderStored) :
    (s.push b).HeaderStored := by
  obtain ⟨h0, h1⟩ := header_write hwf b hlen
  exact ⟨h0.trans h.1, h1.trans h.2⟩

theorem push_walkEnd (hwf : Memory.wf s.mem) (b : Byte) {n : Nat} (h : walkEnd s.mem 6 n ≤ s.rxPlen.toNat) :
    walkEnd (s.push b).mem 6 n = walkEnd s.mem 6 n := walkEnd_write hwf b h

theorem read_push_end (hwf : Memory.wf s.mem) (b : Byte) :
    Memory.read (s.push b).mem (rxbufBase + s.rxPlen.toNat) = b := (read_push hwf b _).trans (if_pos rfl)

/-- A stored literal takes the walk one byte on. -/
theorem push_literal_walkEnd (hwf : Memory.wf s.mem) {b : Byte} (hb : b ≠ escByte) {n : Nat}
    (h : walkEnd s.mem 6 n = s.rxPlen.toNat) : walkEnd (s.push b).mem 6 (n + 1) = s.rxPlen.toNat + 1 := by
  rw [walkEnd_snoc, push_walkEnd hwf b h.le, h, if_neg]
  rwa [read_push_end hwf]

/-- A stored pair takes the walk two bytes on. -/
theorem push_pair_walkEnd (hwf : Memory.wf s.mem) (c : Byte) {n : Nat} (h : walkEnd s.mem 6 n + 1 = s.rxPlen.toNat)
    (he : s.rxbuf (s.rxPlen.toNat - 1) = escByte) : walkEnd (s.push c).mem 6 (n + 1) = s.rxPlen.toNat + 1 := by
  have hend : walkEnd s.mem 6 n = s.rxPlen.toNat - 1 := by omega
  have hfirst : Memory.read (s.push c).mem (rxbufBase + (s.rxPlen.toNat - 1)) = escByte := by
    rw [read_push hwf, if_neg (by simp only [rxbufBase]; omega)]
    exact he
  rw [walkEnd_snoc, push_walkEnd hwf c (by omega), hend, if_pos hfirst]
  omega

/-- Counting a unit keeps the coupling, where the walk over the units so far and this one ends at RX_PLEN. -/
theorem unitCounted_coupled (hp : s.phase = some .sync) (hh : s.HeaderStored)
    (hn : s.dfrUnits.toNat + 1 ≤ s.rxLen.toNat)
    (hw : walkEnd s.mem 6 (s.dfrUnits.toNat + 1 - 4) = s.rxPlen.toNat) : s.unitCounted.Coupled := by
  have hlen := s.rxLen.isLt
  by_cases h : s.dfrUnits.toNat + 1 < s.rxLen.toNat
  · rw [unitCounted_more h]
    rw [← toNat_add_one (by omega)] at hw
    exact State.SyncCoupled.coupled (s := { s with dfrUnits := _, dfrState := .body }) ⟨hh, hw⟩ hp
  · rw [unitCounted_last h]
    have hall : s.dfrUnits.toNat + 1 = s.rxLen.toNat := by omega
    constructor
    case whole => exact fun _ _ => ⟨rfl, hh, hall ▸ hw⟩
    all_goals exact fun hq => nomatch hq

/-- A byte that SYNC takes keeps the coupling. -/
theorem ByteTaken.coupled {t : State} (h : ByteTaken s t) (hinv : s.Inv) (hp : s.phase = some .sync)
    (hc : s.SyncCoupled) : t.Coupled := by
  have hwf := hinv.mem_wf
  have hdf := hinv.deframer
  unfold State.DeframerOk at hdf
  unfold State.SyncCoupled at hc
  cases h with
  | start hd =>
    exact State.SyncCoupled.coupled (s := s.pushStart)
      ((Memory.read_write rxbufBase startByte _ hwf).trans (if_pos rfl)) hp
  | noise n hd =>
    exact State.SyncCoupled.coupled (s := { s with discard := n }) (by simp only [State.SyncCoupled, hd]) hp
  | length b hd =>
    simp only [hd] at hc
    have h0 := (Memory.read_write (rxbufBase + 1) b rxbufBase hwf).trans ((if_neg (by decide)).trans hc)
    have h1 := (Memory.read_write (rxbufBase + 1) b (rxbufBase + 1) hwf).trans (if_pos rfl)
    exact State.SyncCoupled.coupled (s := { s.lengthStored b with dfrState := .id }) ⟨h0, h1⟩ hp
  | badLength => exact coupled_of_unread rfl (fun hdec => nomatch hdec)
  | ident b hd =>
    simp only [hd] at hc hdf
    refine State.SyncCoupled.coupled (s := { s.push b with dfrUnits := _ }) ?_ hp
    simp only [State.SyncCoupled, State.push, hd]
    exact push_header hwf b (by omega) hc
  | lastIdent b hd hn =>
    simp only [hd] at hc hdf
    refine unitCounted_coupled (s := s.push b) hp (push_header hwf b (by omega) hc) ?_ ?_
    · show s.dfrUnits.toNat + 1 ≤ s.rxLen.toNat
      omega
    · show walkEnd _ 6 (s.dfrUnits.toNat + 1 - 4) = (s.rxPlen + 1#8).toNat
      rw [toNat_add_one (by omega), hn]
      exact (by omega : 6 = s.rxPlen.toNat + 1)
  | literal b hd hb =>
    simp only [hd] at hc hdf
    refine unitCounted_coupled (s := s.push b) hp (push_header hwf b (by omega) hc.1) ?_ ?_
    · show s.dfrUnits.toNat + 1 ≤ s.rxLen.toNat
      omega
    · show walkEnd _ 6 (s.dfrUnits.toNat + 1 - 4) = (s.rxPlen + 1#8).toNat
      rw [toNat_add_one (by omega), Nat.sub_add_comm (by omega), push_literal_walkEnd hwf hb hc.2]
  | escape hd =>
    simp only [hd] at hc hdf
    obtain ⟨hh, hw⟩ := hc
    have hplen : (s.rxPlen + 1#8).toNat = s.rxPlen.toNat + 1 := toNat_add_one (by omega)
    refine State.SyncCoupled.coupled (s := s.pushEscape)
      ⟨push_header hwf escByte (by omega) hh, ?_, ?_⟩ hp
    · exact (congrArg (· + 1) ((push_walkEnd hwf escByte hw.le).trans hw)).trans hplen.symm
    · show Memory.read (s.push escByte).mem (rxbufBase + ((s.rxPlen + 1#8).toNat - 1)) = escByte
      rw [hplen, Nat.add_sub_cancel, read_push_end hwf]
  | second c hd =>
    simp only [hd] at hc hdf
    obtain ⟨hh, hw, he⟩ := hc
    refine unitCounted_coupled (s := s.pushEscaped c) hp (push_header hwf c (by omega) hh) ?_ ?_
    · show s.dfrUnits.toNat + 1 ≤ s.rxLen.toNat
      omega
    · show walkEnd (s.push c).mem 6 (s.dfrUnits.toNat + 1 - 4) = (s.rxPlen + 1#8).toNat
      rw [toNat_add_one (by omega), Nat.sub_add_comm (by omega), push_pair_walkEnd hwf c hw he]

theorem SyncStepped.coupled {t : State} (h : SyncStepped s t) (hinv : s.Inv) (hp : s.phase = some .sync)
    (hc : s.Coupled) : t.Coupled := by
  cases h with
  | start m => exact State.SyncCoupled.coupled (s := s.hunting m) trivial hp
  | held => exact hc
  | failed => exact coupled_of_unread rfl (fun hdec => nomatch hdec)
  | byte rest t hq hb => exact hb.coupled (inv_env hinv _ _ _ _ _ _) hp (hc.sync hq)

/-! ### The other phases keep the coupling -/

/-- DECODE at a phase index above 0 follows SYNC (R31). -/
theorem decode_follows_sync : ∀ op idx : BitVec 4, idx.toNat + 1 < (phaseList op).length →
    ((phaseList op)[(idx + 1#4).toNat]?).map Prod.fst = some .decode →
    ((phaseList op)[idx.toNat]?).map Prod.fst = some .sync := by decide

theorem advance_decode {p : Phase} (hp : s.phase = some p) (h : s.advance.phase = some .decode) : p = .sync := by
  unfold State.advance at h
  split at h
  · next hlt => exact Option.some.inj ((phase_eq_map hp).symm.trans (decode_follows_sync _ _ hlt (phase_eq_map h)))
  · cases h

/-- A phase but SYNC leaves the rd() line. -/
theorem phase_rxReq {u : State} {p : Phase} (hp : p ≠ .sync) (h : (runPhase p s).state? = some u) :
    u.rxReq = s.rxReq := by
  cases p with
  | sync => exact absurd rfl hp
  | encode =>
    simp only [runPhase, encodePhase] at h
    split at h <;> cases h <;> rfl
  | write =>
    simp only [runPhase, writePhase] at h
    repeat' split at h
    all_goals cases h <;> rfl
  | decode =>
    simp only [runPhase, decodePhase] at h
    split at h <;> cases h <;> rfl
  | copyRpl => cases h; rfl
  | checkAck | checkDrep | checkSrep =>
    simp only [runPhase, checkAckPhase, checkDrepPhase, checkSrepPhase, checkMask] at h
    split at h <;> cases h <;> rfl

/-- DECODE does not wait for the channel. -/
theorem decodePhase_ne_waiting (u : State) : decodePhase s ≠ .waiting u := by
  unfold decodePhase
  split <;> simp

/-- No phase but SYNC leads to DECODE. -/
theorem phase_ne_decode {t : State} {p : Phase} (hne : p ≠ .sync) (hp : s.phase = some p)
    (h : (runPhase p s).outcome = .next t) : t.phase ≠ some .decode := by
  intro ht
  cases he : runPhase p s with
  | ended u =>
    obtain ⟨-, -, -, -, -, -, -, hb, ho, hi⟩ := phase_state (u := u) (by rw [he]; rfl)
    have hu : u.phase = s.phase := by simp only [State.phase, State.current, hb, ho, hi]
    rw [he] at h
    exact hne (advance_decode (hu.trans hp) (Host.Outcome.next.inj h ▸ ht))
  | waiting u =>
    obtain ⟨-, -, -, -, -, -, -, hb, ho, hi⟩ := phase_state (u := u) (by rw [he]; rfl)
    have hu : u.phase = s.phase := by simp only [State.phase, State.current, hb, ho, hi]
    rw [he] at h
    have hdec : some p = some .decode := hp.symm.trans (hu.symm.trans (Host.Outcome.next.inj h ▸ ht))
    obtain rfl := Option.some.inj hdec
    exact decodePhase_ne_waiting u he
  | raised c n u =>
    rw [he] at h
    cases h
    cases ht
  | overrun f => rw [he] at h; cases h

/-- A phase but SYNC keeps the coupling: no rd() is outstanding, and DECODE is not next. -/
theorem phase_coupled {t : State} {p : Phase} (hinv : s.Inv) (hne : p ≠ .sync) (hp : s.phase = some p)
    (h : (runPhase p s).outcome = .next t) : t.Coupled := by
  have hq : s.rxReq = false := by
    by_contra hq
    obtain ⟨hs, -, -⟩ := hinv.rx_req (by simpa using hq)
    exact hne (Option.some.inj (hp.symm.trans hs))
  obtain ⟨u, hu, hshape⟩ := outcome_shape h
  have htq : t.rxReq = u.rxReq := by rcases hshape with rfl | ⟨i, rfl⟩ | ⟨st, c, n, rfl⟩ <;> rfl
  exact coupled_of_unread (htq.trans ((phase_rxReq hne hu).trans hq))
    (fun hdec => absurd hdec (phase_ne_decode hne hp h))

end

/-- Settles O49: SYNC's own steps keep the walk at RX_PLEN; no other step reads the channel or leads to DECODE after
SYNC, and the host's stores to RXBUF fall in an idle block. -/
theorem everyStepKeepsSyncAndDecodeCoupled : Obligations.EveryStepKeepsSyncAndDecodeCoupled := by
  intro s t hinv hc hs
  have idle (hb : s.busy = false) : s.rxReq = false ∧ s.phase = none := by
    obtain ⟨-, -, hq, -⟩ := hinv.idle hb
    exact ⟨hq, by simp [State.phase, State.current, hb]⟩
  cases step_next hs with
  | phase p st _ _ _ hcur h =>
    have hp := phase_eq_of hcur
    have hinv' : s.popTurn.Inv := hinv.turn s.host s.reads
    by_cases hsync : p = .sync
    · subst hsync
      exact (syncStepped (s := s.popTurn) hinv' hp h).coupled hinv' hp ⟨hc.1, hc.2, hc.3, hc.4, hc.5⟩
    · exact phase_coupled (s := s.popTurn) hinv' hsync hp h
  | quiet => exact ⟨hc.1, hc.2, hc.3, hc.4, hc.5⟩
  | lost => exact ⟨hc.1, hc.2, hc.3, hc.4, hc.5⟩
  | noneLost => exact ⟨hc.1, hc.2, hc.3, hc.4, hc.5⟩
  | reset => exact coupled_of_unread rfl (fun hdec => nomatch hdec)
  | abort => exact coupled_of_unread rfl (fun hdec => nomatch hdec)
  | none _ _ _ _ _ hb hcur => exact absurd hcur (hinv.current_ne_none hb)
  | store a v host _ _ hb =>
    obtain ⟨hq, hp⟩ := idle hb
    rw [poke_eq]
    exact coupled_of_unread hq (fun hdec => absurd (hp.symm.trans hdec) (by decide))
  | accept op host _ _ hb =>
    rw [issue_eq]
    split
    · exact coupled_of_unread (idle hb).1 (fun hdec => nomatch hdec)
    · exact coupled_of_unread (idle hb).1 (fun _ => rfl)
  | illegal v host _ _ hb => exact coupled_of_unread (idle hb).1 (fun hdec => nomatch hdec)

end Sys2Proof.Machine
end

section
/-! SUPPORT. What a successful DECODE took from RXBUF (O58). -/

namespace Sys2Proof.Machine

open Sys2Proof

/-- What RXBUF held, where it decodes to a Message: a legal length byte and units the walk could take (R114). -/
theorem decodeBuffer_inv {s : State} {b : Bank} (h : decodeBuffer s.mem = .ok b) :
    ∃ ds, unstuff s.mem 6 ((s.rxbuf 1).toNat - 4) = .ok ds ∧ (s.rxbuf 1).toNat ≤ 12 ∧ b.data = Payload.ofList ds ∧
      b.dataSize = BitVec.ofNat 4 ((s.rxbuf 1).toNat - 4) := by
  by_cases hbad : (s.rxbuf 1).toNat < 4 ∨ 12 < (s.rxbuf 1).toNat
  · rw [decodeBuffer_badLength hbad] at h
    cases h
  · cases hw : unstuff s.mem 6 ((s.rxbuf 1).toNat - 4) with
    | error c =>
      rw [decodeBuffer_escape (by omega) (by omega) hw] at h
      cases h
    | ok ds =>
      rw [decodeBuffer_ok (by omega) (by omega) hw] at h
      cases h
      exact ⟨ds, rfl, by omega, rfl, rfl⟩

/-- Settles O58: the units are those unstuff_split finds, and the coupling puts their end at RX_PLEN. -/
theorem decodeTakesExactlyTheUnitsOfTheFrame : Obligations.DecodeTakesExactlyTheUnitsOfTheFrame := by
  intro r hr s t hs hexec hvalid
  cases hbuf : decodeBuffer s.mem with
  | error e =>
    obtain ⟨c, n⟩ := e
    rw [exec_decode_error hr hs hbuf] at hexec
    cases hexec
    cases hvalid
  | ok b =>
    have ht := Host.Outcome.next.inj ((exec_decode_ok hr hs hbuf).symm.trans hexec)
    have hrx : t.rx = b := by rw [← ht]; cases r.last <;> rfl
    obtain ⟨ds, hwalk, hlen, hdata, hsize⟩ := decodeBuffer_inv hbuf
    obtain ⟨units, hunits, hvalues, hstored, hend⟩ := unstuff_split hwalk
    have hds : ds.length = (s.rxbuf 1).toNat - 4 := by
      rw [← hunits, ← List.length_map (f := unitValue), hvalues, List.length_map]
    have hpayload : t.rx.payload = ds := by
      rw [hrx, Bank.payload, hdata, hsize, BitVec.toNat_ofNat, Nat.mod_eq_of_lt (by omega), ← hds]
      exact Payload.take_ofList ds (by omega)
    refine ⟨units, hunits, hpayload ▸ hvalues, hstored, hend, fun hc hidx => ?_⟩
    obtain ⟨-, ⟨-, hlenByte⟩, hplen⟩ :=
      hc.whole (hs.phase (decodeRuns_fit r hr).1) (by obtain ⟨-, -, hi⟩ := hs; rwa [hi])
    rw [hend, hlenByte, hplen]

end Sys2Proof.Machine
end

section
/-! SUPPORT. SYNC over a whole frame, byte by byte, with the model's default order of moves (log 4): noise, START, the
length byte, the identifier and the payload's units; and RECV (O54). -/

namespace Sys2Proof.Machine

open Sys2Proof

/-! ### Runs of steps -/

theorem run_one {s t : State} (h : step s = .next t) : core.run 1 s = .next t := by
  simp only [Host.Core.run]
  rw [show core.step s = .next t from h]

/-- A run goes on from where its first part led. -/
theorem run_add {m n : Nat} {s t : State} (h : core.run m s = .next t) : core.run (m + n) s = core.run n t := by
  induction m generalizing s with
  | zero =>
    obtain rfl := Host.Outcome.next.inj h
    rw [Nat.zero_add]
  | succ m ih =>
    rw [Nat.add_right_comm]
    simp only [Host.Core.run] at h ⊢
    split
    · next u hu => exact ih (by simpa only [hu] using h)
    · next hu => simp only [hu] at h; cases h
    · next hu => simp only [hu] at h; cases h

theorem run_succ {n : Nat} {s t : State} (h : step s = .next t) : core.run (n + 1) s = core.run n t := by
  rw [Nat.add_comm]
  exact run_add (run_one h)

/-! ### The deframer with part of a frame in RXBUF -/

/-- The block is in SYNC with an rd() outstanding, moves on its own (log 4), and has stored the bytes got of a frame. -/
structure State.Reading (s : State) (got : List Byte) : Prop where
  turns : s.turns = []
  rst : s.rst = false
  phase : s.phase = some .sync
  rxReq : s.rxReq = true
  wf : Memory.wf s.mem
  plen : s.rxPlen.toNat = got.length
  stored : StoredAt s.mem 0 got

/-- SYNC has taken an answer, and the channel has come to rest. -/
def State.took (s : State) (rest : List RxAnswer) : State := { s with chanIn := rest }

/-- From s to v SYNC has only stored bytes and counted them, and the channel has come to rest. -/
def State.ReadOn (s v : State) (rest : List RxAnswer) : Prop :=
  v = { s with mem := v.mem, rxPlen := v.rxPlen, rxOvh := v.rxOvh, dfrUnits := v.dfrUnits, dfrState := v.dfrState,
               chanIn := rest }

/-- From s to t SYNC has ended: the frame's bytes stand in RXBUF, the next phase is due and the channel stands at
rest. -/
def State.Received (s t : State) (frame : List Byte) (rest : List RxAnswer) : Prop :=
  StoredAt t.mem 0 frame ∧
    t = { s with mem := t.mem, rxPlen := t.rxPlen, rxLen := t.rxLen, rxOvh := t.rxOvh, dfrUnits := t.dfrUnits,
                 dfrState := .done, rxReq := false, seqIdx := s.seqIdx + 1#4, chanIn := rest }

theorem State.ReadOn.received {s v t : State} {more rest : List RxAnswer} {frame : List Byte} (h : s.ReadOn v more)
    (ht : v.Received t frame rest) : s.Received t frame rest := by
  refine ⟨ht.1, ht.2.trans ?_⟩
  rw [h]

theorem StoredAt.snoc {m m' : Memory} {got : List Byte} {b : Byte} (h : StoredAt m 0 got)
    (hread : ∀ a, Memory.read m' a = if a = 0x60 + got.length then b else Memory.read m a) :
    StoredAt m' 0 (got ++ [b]) := by
  intro k hk
  rw [List.length_append, List.length_singleton] at hk
  rw [hread]
  by_cases hlast : k = got.length
  · subst hlast
    rw [if_pos (by simp only [rxbufBase]; omega), List.getD_append_right _ _ _ _ le_rfl, Nat.sub_self]
    rfl
  · rw [if_neg (by simp only [rxbufBase]; omega), List.getD_append _ _ _ _ (by omega)]
    exact h k (by omega)

section
variable {s : State} {got : List Byte}

/-- Reading does not speak of the counters but RX_PLEN, of the deframer's state or of the channel. -/
theorem State.Reading.regs (h : s.Reading got) (d : DfrState) (u l o : Byte) (n : BitVec 16) (c : List RxAnswer) :
    ({ s with dfrState := d, dfrUnits := u, rxLen := l, rxOvh := o, discard := n, chanIn := c } : State).Reading
      got :=
  ⟨h.turns, h.rst, h.phase, h.rxReq, h.wf, h.plen, h.stored⟩

theorem State.Reading.push (h : s.Reading got) (hroom : got.length < 22) (b : Byte) :
    (s.push b).Reading (got ++ [b]) := by
  refine ⟨h.turns, h.rst, h.phase, h.rxReq, Memory.write_wf _ _ h.wf, ?_, h.stored.snoc ?_⟩
  · rw [List.length_append, ← h.plen]
    exact toNat_add_one (by have := h.plen; omega)
  · rw [← h.plen]
    exact read_push h.wf b

theorem State.Reading.took (h : s.Reading got) (rest : List RxAnswer) : (s.took rest).Reading got :=
  h.regs _ _ _ _ _ _

/-- The step that takes a byte the channel delivers. -/
theorem State.Reading.step {b : Byte} {rest : List RxAnswer} (h : s.Reading got) (hc : s.chanIn = .byte b :: rest)
    (hp : s.place.isSome = true) : step s = (syncByte b (s.took rest)).outcome := by
  obtain ⟨st, hcur⟩ := phase_some h.phase
  rw [step_phase h.turns h.rst hcur (fun _ => .inr (by simp [hc])) (fun hw => nomatch hw), runPhase,
    syncPhase_byte h.rxReq hc hp, State.took]

/-! ### Noise, START and the length byte -/

/-- DISCARD after n more noise bytes (R35). -/
def State.discarded (s : State) (n : Nat) (rest : List RxAnswer) : State :=
  { s with discard := BitVec.ofNat 16 (min (s.discard.toNat + n) 0xFFFF), chanIn := rest }

/-- HUNT only counts what is not START (R144). -/
theorem run_noise {noise : List Byte} {rest : List RxAnswer} (h : s.Reading got) (hd : s.dfrState = .hunt)
    (hn : startByte ∉ noise) (hc : s.chanIn = answers noise ++ rest) :
    core.run noise.length s = .next (s.discarded noise.length rest) := by
  induction noise generalizing s with
  | nil =>
    have hlt := s.discard.isLt
    have hsame : BitVec.ofNat 16 (min (s.discard.toNat + 0) 0xFFFF) = s.discard := by
      rw [min_eq_left (by omega), Nat.add_zero, BitVec.ofNat_toNat, BitVec.setWidth_eq]
    show Host.Outcome.next s = _
    rw [State.discarded, List.length_nil, hsame, show rest = s.chanIn from hc.symm]
    rfl
  | cons b noise ih =>
    obtain ⟨hb, hn⟩ := List.ne_and_not_mem_of_not_mem_cons hn
    have hstep : step s = .next (s.discarded 1 (answers noise ++ rest)) := by
      rw [h.step (rest := answers noise ++ rest) hc (by simp [State.place, hd]),
        syncByte_noise (s := s.took (answers noise ++ rest)) hd (Ne.symm hb)]
      exact huntNoise_outcome (s := s.took (answers noise ++ rest)) h.rxReq
    have hcount : min ((BitVec.ofNat 16 (min (s.discard.toNat + 1) 0xFFFF)).toNat + noise.length) 0xFFFF =
        min (s.discard.toNat + (noise.length + 1)) 0xFFFF := by
      rw [BitVec.toNat_ofNat, Nat.mod_eq_of_lt (by omega)]
      omega
    rw [List.length_cons, run_succ hstep, ih (s := s.discarded 1 _) (h.regs _ _ _ _ _ _) hd hn rfl]
    simp only [State.discarded, hcount]

theorem State.Reading.pushStart (h : s.Reading []) : s.pushStart.Reading [startByte] := by
  have hzero : s.rxPlen = 0#8 := BitVec.eq_of_toNat_eq h.plen
  have hpush : s.pushStart = { s.push startByte with dfrState := .len } := by
    simp only [State.pushStart, State.push, hzero]
    rfl
  rw [hpush]
  exact (h.push (by decide) startByte).regs _ _ _ _ _ _

theorem State.Reading.lengthStored (h : s.Reading [startByte]) (l : Byte) :
    (s.lengthStored l).Reading [startByte, l] := by
  have hone : s.rxPlen = 1#8 := BitVec.eq_of_toNat_eq h.plen
  have hpush : s.lengthStored l = { s.push l with rxLen := l } := by
    simp only [State.lengthStored, State.push, hone]
    rfl
  rw [hpush]
  exact (h.push (by decide) l).regs _ _ _ _ _ _

/-- START and the length byte take HUNT to ID (R144, R145). -/
theorem run_header {l : Byte} {rest : List RxAnswer} (h : s.Reading []) (hd : s.dfrState = .hunt)
    (hl : badLength l = false) (hc : s.chanIn = .byte startByte :: .byte l :: rest) :
    ∃ v : State, core.run 2 s = .next v ∧ v.Reading [startByte, l] ∧
      v = { s with mem := v.mem, rxPlen := 2#8, rxLen := l, dfrState := .id, chanIn := rest } := by
  have hstart : step s = .next (s.took (.byte l :: rest)).pushStart := by
    rw [h.step hc (by simp [State.place, hd]), syncByte_start (s := s.took (.byte l :: rest)) hd]
    exact huntStart_outcome (s := s.took (.byte l :: rest)) h.rxReq
  have hu := (h.took (.byte l :: rest)).pushStart
  have hlength := hu.step (b := l) (rest := rest) rfl rfl
  have hv := hu.took rest
  rw [syncByte_length l rfl, lengthByte_good hv.rxReq hl] at hlength
  refine ⟨_, (run_succ hstart).trans (run_one hlength), (hv.lengthStored l).regs _ _ _ _ _ _, ?_⟩
  simp only [State.lengthStored, State.pushStart, State.took]

/-! ### The identifier and the payload -/

/-- The identifier's bytes are read to its last unit (R146). -/
theorem run_ident {ids : List Byte} {rest : List RxAnswer} (h : s.Reading got) (hd : s.dfrState = .id)
    (hne : ids ≠ []) (hu : s.dfrUnits.toNat + ids.length = 4) (hroom : got.length + ids.length ≤ 22)
    (hc : s.chanIn = answers ids ++ rest) :
    ∃ v : State, core.run ids.length s = .next v.unitCounted ∧ v.Reading (got ++ ids) ∧ v.dfrUnits.toNat = 3 ∧
      s.ReadOn v rest := by
  induction ids generalizing s got with
  | nil => exact absurd rfl hne
  | cons b ids ih =>
    rw [List.length_cons] at hu hroom
    have hplen := h.plen
    have hpl : s.place.isSome = true := by
      have hlt : s.dfrUnits.toNat = 0 ∨ s.dfrUnits.toNat = 1 ∨ s.dfrUnits.toNat = 2 ∨ s.dfrUnits.toNat = 3 := by omega
      simp only [State.place, hd]
      rcases hlt with hn | hn | hn | hn <;> simp only [hn, Option.isSome_some]
    have hstep := h.step (rest := answers ids ++ rest) hc hpl
    rw [syncByte_ident (s := s.took (answers ids ++ rest)) b hd] at hstep
    have hpush := (h.took (answers ids ++ rest)).push (by omega) b
    cases ids with
    | nil =>
      rw [List.length_nil] at hu
      have hlast := hstep.trans (idByte_last (s := s.took (answers [] ++ rest)) h.phase h.rxReq
        (show s.rxPlen.toNat < 22 by omega) (show s.dfrUnits.toNat = 3 by omega))
      exact ⟨_, run_one hlast, hpush, (by omega : s.dfrUnits.toNat = 3), rfl⟩
    | cons c ids =>
      rw [List.length_cons] at hu
      have hmore := hstep.trans (idByte_more (s := s.took (answers (c :: ids) ++ rest)) h.rxReq
        (show s.rxPlen.toNat < 22 by omega) (show s.dfrUnits.toNat + 1 < 4 by omega))
      obtain ⟨v, hrun, hv, hn, hon⟩ := ih (hpush.regs _ (s.dfrUnits + 1#8) _ _ _ _) hd (by simp)
        (by rw [toNat_add_one (by omega), List.length_cons]; omega)
        (by rw [List.length_append, List.length_singleton]; omega) rfl
      exact ⟨v, (run_succ hmore).trans hrun, by rwa [List.append_assoc] at hv, hn, hon⟩

/-- The wire form of a payload byte: a literal, or ESC and a second byte. -/
theorem stuff_cases (d : Byte) : (stuff d = [d] ∧ d ≠ escByte) ∨ ∃ c, stuff d = [escByte, c] := by
  unfold stuff
  split
  · exact .inr ⟨_, rfl⟩
  · split
    · exact .inr ⟨_, rfl⟩
    · next h => exact .inl ⟨rfl, h⟩

/-- BODY reads one payload unit, of one byte or two (R147, R148). -/
theorem run_unit {d : Byte} {rest : List RxAnswer} (h : s.Reading got) (hd : s.dfrState = .body)
    (hn : s.dfrUnits.toNat < 255) (hroom : got.length + (stuff d).length ≤ 22)
    (hc : s.chanIn = answers (stuff d) ++ rest) :
    ∃ v : State, core.run (stuff d).length s = .next v.unitCounted ∧ v.Reading (got ++ stuff d) ∧
      v.dfrUnits = s.dfrUnits ∧ s.ReadOn v rest := by
  have hplen := h.plen
  have hpl : s.place.isSome = true := by simp [State.place, hd]
  rcases stuff_cases d with ⟨hd1, hne⟩ | ⟨c, hd2⟩
  · rw [hd1] at hroom hc ⊢
    rw [List.length_singleton] at hroom
    refine ⟨(s.took rest).push d, run_one ?_, ?_, rfl, rfl⟩
    · rw [h.step (rest := rest) hc hpl, syncByte_literal (s := s.took rest) hd hne]
      exact bodyLiteral_outcome (s := s.took rest) h.phase h.rxReq (show s.rxPlen.toNat < 22 by omega) hn
    · exact (h.took rest).push (by omega) d
  · rw [hd2] at hroom hc ⊢
    rw [List.length_cons, List.length_singleton] at hroom
    have hfirst : step s = .next (s.took (.byte c :: rest)).pushEscape := by
      rw [h.step (rest := .byte c :: rest) hc hpl, syncByte_escape (s := s.took (.byte c :: rest)) hd]
      exact bodyEscape_outcome (s := s.took (.byte c :: rest)) h.rxReq (show s.rxPlen.toNat < 22 by omega)
    have hu : (s.took (.byte c :: rest)).pushEscape.Reading (got ++ [escByte]) :=
      ((h.took (.byte c :: rest)).push (by omega) escByte).regs _ _ _ _ _ _
    have hlen : (got ++ [escByte]).length < 22 := by rw [List.length_append, List.length_singleton]; omega
    have hsecond := hu.step (b := c) (rest := rest) rfl rfl
    have hv := hu.took rest
    rw [syncByte_second c rfl, escSecond_outcome hv.phase hv.rxReq (hv.plen.trans_lt hlen) hn] at hsecond
    have hpush := hv.push hlen c
    rw [List.append_assoc] at hpush
    refine ⟨_, (run_succ hfirst).trans (run_one hsecond), hpush.regs _ _ _ _ _ _, ?_, ?_⟩
    · simp only [State.pushEscaped, State.pushEscape, State.push, State.took]
    · simp only [State.ReadOn, State.pushEscaped, State.pushEscape, State.push, State.took]

/-- Once a unit is counted, the units still missing are read and SYNC ends (R149). -/
theorem run_units {ds : List Byte} {rest : List RxAnswer} (h : s.Reading got)
    (hu : s.dfrUnits.toNat + 1 + ds.length = s.rxLen.toNat) (hroom : got.length + (ds.flatMap stuff).length ≤ 22)
    (hc : s.chanIn = answers (ds.flatMap stuff) ++ rest) :
    ∃ t : State, core.run (ds.flatMap stuff).length s.unitCounted = .next t ∧
      s.Received t (got ++ ds.flatMap stuff) rest := by
  have hlen := s.rxLen.isLt
  induction ds generalizing s got with
  | nil =>
    refine ⟨_, rfl, ?_⟩
    rw [unitCounted_last (by rw [List.length_nil] at hu; omega), List.flatMap_nil, List.append_nil]
    refine ⟨h.stored, ?_⟩
    rw [← show s.chanIn = rest from hc]
  | cons d ds ih =>
    rw [List.length_cons] at hu
    rw [List.flatMap_cons, List.length_append] at hroom ⊢
    rw [List.flatMap_cons, answers, List.map_append, List.append_assoc] at hc
    have hnext : (s.dfrUnits + 1#8).toNat = s.dfrUnits.toNat + 1 := toNat_add_one (by omega)
    obtain ⟨v, hrun, hv, hvn, hon⟩ := run_unit (h.regs .body (s.dfrUnits + 1#8) _ _ _ _) rfl
      (show (s.dfrUnits + 1#8).toNat < 255 by omega) (by omega) hc
    have hvlen : v.rxLen = s.rxLen := by rw [hon]
    obtain ⟨t, hmore, ht⟩ := ih hv (by rw [hvn, hvlen, hnext]; omega) (by rw [List.length_append]; omega)
      (by rw [hon]; rfl) (by rw [hvlen]; exact hlen)
    refine ⟨t, ?_, ?_⟩
    · rw [unitCounted_more (by omega), run_add hrun, hmore]
    · rw [← List.append_assoc]
      exact hon.received ht

/-! ### The whole frame -/

theorem badLength_lengthField {m : Bank} (hm : m.dataSize.toNat ≤ 8) :
    badLength (4#8 + m.dataSize.setWidth 8) = false := by
  have hl := mt (badLength_iff (4#8 + m.dataSize.setWidth 8)).mp (by rw [lengthField_toNat]; omega)
  simpa using hl

/-- HUNT at the start of a message's frame reads it whole. -/
theorem run_frame {m : Bank} {rest : List RxAnswer} (h : s.Reading []) (hd : s.dfrState = .hunt)
    (hz : s.dfrUnits = 0#8) (hm : m.dataSize.toNat ≤ 8) (hc : s.chanIn = answers (encodeFrame m) ++ rest) :
    ∃ t : State, core.run (encodeFrame m).length s = .next t ∧ s.Received t (encodeFrame m) rest := by
  have hle := encodeFrame_length_le hm
  have hids : (packId m).length = 4 := rfl
  have hframe : encodeFrame m =
      [startByte, 4#8 + m.dataSize.setWidth 8] ++ (packId m ++ m.payload.flatMap stuff) := rfl
  have hlength : (encodeFrame m).length = 2 + ((packId m).length + (m.payload.flatMap stuff).length) := by
    rw [hframe, List.length_append, List.length_append]
    rfl
  have hc' : s.chanIn = .byte startByte :: .byte (4#8 + m.dataSize.setWidth 8) ::
      (answers (packId m) ++ (answers (m.payload.flatMap stuff) ++ rest)) := by
    rw [hc, hframe, ← List.append_assoc (answers (packId m))]
    simp only [answers, List.map_append]
    rfl
  obtain ⟨u, hhead, hu, hue⟩ := run_header h hd (badLength_lengthField hm) hc'
  have hun : u.dfrUnits = 0#8 := by rw [hue]; exact hz
  have hulen : u.rxLen.toNat = 4 + m.dataSize.toNat := by rw [hue]; exact lengthField_toNat m
  obtain ⟨v, hident, hv, hvn, hon⟩ := run_ident (ids := packId m) hu (by rw [hue]) (List.cons_ne_nil _ _)
    (by rw [hun, hids]; rfl) (by rw [hids]; exact (by decide : 2 + 4 ≤ 22)) (by rw [hue])
  have hvlen : v.rxLen = u.rxLen := by rw [hon]
  obtain ⟨t, hunits, ht⟩ := run_units hv (by rw [hvn, hvlen, hulen, payload_length hm])
    (by rw [List.length_append, hids]; simp only [List.length_cons, List.length_nil]; omega) (by rw [hon])
  refine ⟨t, ?_, ?_⟩
  · rw [hlength, run_add hhead, run_add hident, hunits]
  · obtain ⟨hst, hte⟩ := hon.received ht
    refine ⟨by rwa [List.append_assoc] at hst, hte.trans ?_⟩
    rw [hue]

/-- The whole phase SYNC on noise without START and then a message's frame (R153): its frame stands in RXBUF and DISCARD
counts the noise. -/
theorem run_sync {m : Bank} {noise : List Byte} {rest : List RxAnswer} (ht : s.turns = []) (hr : s.rst = false)
    (hp : s.phase = some .sync) (hq : s.rxReq = false) (hwf : Memory.wf s.mem) (hm : m.dataSize.toNat ≤ 8)
    (hn : startByte ∉ noise) (hc : s.chanIn = answers (noise ++ encodeFrame m) ++ rest) :
    ∃ t : State, core.run (1 + (noise.length + (encodeFrame m).length)) s = .next t ∧
      State.Received { s with rxValid := false, discard := BitVec.ofNat 16 (min noise.length 0xFFFF) } t
        (encodeFrame m) rest := by
  obtain ⟨mem, hmwf, -, hstart⟩ := syncPhase_start hq hwf
  obtain ⟨st, hcur⟩ := phase_some hp
  have hfirst : step s = .next (s.hunting mem) := by
    rw [step_phase ht hr hcur (fun _ => .inl hq) (fun hw => nomatch hw), runPhase, hstart, outcome_waiting]
  have hread : (s.hunting mem).Reading [] :=
    ⟨ht, hr, hp, rfl, hmwf, rfl, fun k hk => absurd hk (Nat.not_lt_zero k)⟩
  have hc' : (s.hunting mem).chanIn = answers noise ++ (answers (encodeFrame m) ++ rest) := by
    rw [← List.append_assoc, answers, answers, ← List.map_append]
    exact hc
  obtain ⟨t, hframe, hst, hte⟩ := run_frame (s := (s.hunting mem).discarded noise.length _)
    (hread.regs _ _ _ _ _ _) rfl rfl hm rfl
  refine ⟨t, ?_, hst, hte.trans ?_⟩
  · rw [run_add (run_one hfirst), run_add (run_noise hread rfl hn hc'), hframe]
  · simp only [State.discarded, State.hunting, BitVec.toNat_zero, Nat.zero_add]

end

/-! ### RECV -/

/-- The host's write of a command with phases, to an idle block, accepts it. -/
theorem step_accept {s : State} {op : BitVec 4} {rest : List HostOp} (hop : 1 ≤ op.toNat ∧ op.toNat ≤ 10)
    (ht : s.turns = []) (hb : s.busy = false) (hr : s.rst = false)
    (hh : s.host = .write 0x00#8 (0x0#4 ++ op) :: rest) :
    step s = .next (({ s with host := rest } : State).accept (0x0#4 ++ op)) := by
  rw [step_idle ht hb, hostTurn, hh]
  simp only [hr, Bool.false_eq_true, if_false]
  rw [hostWrite, if_pos ⟨rfl, .inl hb⟩, Fetched.result, decodeCommand_op]
  exact exec_accept hop hb

/-- The step of DECODE that finds a message's frame in RXBUF, with the default order of moves. -/
theorem step_decode {s : State} {d : PhaseRun} {m : Bank} (hd : d ∈ decodeRuns) (hs : s.runs d.op d.idx)
    (ht : s.turns = []) (hr : s.rst = false) (hm : m.dataSize.toNat ≤ 8) (hst : StoredAt s.mem 0 (encodeFrame m)) :
    step s = .next (({ s with rx := m.message, rxValid := true } : State).moved d.last) := by
  have hfit := decodeRuns_fit d hd
  rw [step_phase ht hr (hs.current.trans hfit.1) (fun hw => nomatch hw) (fun hw => nomatch hw),
    ← exec_run_phase (by simp [hd]) hfit hs, exec_decode_ok hd hs (decodeBuffer_encodeFrame hm hst)]

/-- Settles O54: the accept, SYNC over the noise and the frame, and DECODE. -/
theorem recvFindsTheFrameAfterNoise : Obligations.RecvFindsTheFrameAfterNoise := by
  intro s m noise rest hinv hb hr ht hh hm hn hc
  obtain ⟨-, -, hq, -⟩ := hinv.idle hb
  have haccept := step_accept (op := 0x4#4) (by decide) ht hb hr hh
  obtain ⟨u, hsync, hst, hu⟩ := run_sync (s := ({ s with host := [] } : State).accept (0x0#4 ++ 0x4#4)) ht hr rfl hq
    hinv.mem_wf hm hn hc
  have hdec := step_decode (s := u) (d := ⟨.recv, 0x4, 1, true, .outside⟩) (by decide)
    (by rw [hu]; exact ⟨rfl, rfl, rfl⟩) (by rw [hu]; exact ht) (by rw [hu]; exact hr) hm hst
  refine ⟨({ u with rx := m.message, rxValid := true } : State).moved true, ?_, rfl, rfl, rfl, rfl, rfl, ?_, ?_, ?_⟩
  · have hcount : noise.length + (encodeFrame m).length + 3 =
        1 + ((1 + (noise.length + (encodeFrame m).length)) + 1) := by omega
    rw [hcount, run_add (run_one haccept), run_add hsync, run_one hdec]
  · have hdisc : u.discard = BitVec.ofNat 16 (min noise.length 0xFFFF) := by rw [hu]
    show u.discard.toNat = _
    rw [hdisc, BitVec.toNat_ofNat, Nat.mod_eq_of_lt (by omega)]
  · show u.chanIn = rest
    rw [hu]
  · show u.sent = s.sent
    rw [hu]
    rfl

end Sys2Proof.Machine
end

section
/-! SUPPORT. The phases CHECK_ACK, CHECK_DREP, CHECK_SREP and COPY_RPL, said once: the bits of a mismatch mask, the
rules as masks of zero, and the step of each phase at its places in R31's table (O43 to O46). -/

namespace Sys2Proof.Machine

open Sys2Proof

/-! ### The mask -/

theorem mismatch_eq_zero : ∀ typ mfr idx cls dev : Bool,
    mismatch typ mfr idx cls dev = 0#5 ↔ mfr = false ∧ typ = false ∧ cls = false ∧ idx = false ∧ dev = false := by
  decide

/-- ERRINFO of a failed rule, bit by bit (R173). -/
theorem mismatch_bits : ∀ typ mfr idx cls dev : Bool,
    ((mismatch typ mfr idx cls dev).setWidth 8).getLsbD 0 = dev ∧
    ((mismatch typ mfr idx cls dev).setWidth 8).getLsbD 1 = cls ∧
    ((mismatch typ mfr idx cls dev).setWidth 8).getLsbD 2 = idx ∧
    ((mismatch typ mfr idx cls dev).setWidth 8).getLsbD 3 = mfr ∧
    ((mismatch typ mfr idx cls dev).setWidth 8).getLsbD 4 = typ ∧
    ((mismatch typ mfr idx cls dev).setWidth 8).extractLsb' 5 3 = 0x0#3 := by
  decide

/-- The bits of the mask of a rule that compares four fields of a bank with the codes of a rule; the bit of api_index is
left to the rule. -/
theorem errInfo_bits (rx : Bank) (typ mfr : Byte) (idx : Bool) (cls dev : BitVec 6) {mask : Byte}
    (hm : mask = (mismatch (rx.deviceType != typ) (rx.manufacturer != mfr) idx (rx.apiClass != cls)
      (rx.device != dev)).setWidth 8) :
    (mask.getLsbD 0 = true ↔ rx.device ≠ dev) ∧ (mask.getLsbD 1 = true ↔ rx.apiClass ≠ cls) ∧
      mask.getLsbD 2 = idx ∧ (mask.getLsbD 3 = true ↔ rx.manufacturer ≠ mfr) ∧
      (mask.getLsbD 4 = true ↔ rx.deviceType ≠ typ) ∧ mask.extractLsb' 5 3 = 0x0#3 := by
  obtain ⟨h0, h1, h2, h3, h4, h5⟩ := mismatch_bits (rx.deviceType != typ) (rx.manufacturer != mfr) idx
    (rx.apiClass != cls) (rx.device != dev)
  rw [hm, h0, h1, h3, h4]
  exact ⟨bne_iff_ne, bne_iff_ne, h2, bne_iff_ne, bne_iff_ne, h5⟩

theorem errInfo_ne_zero : ∀ mask : BitVec 5, mask ≠ 0#5 → mask.setWidth 8 ≠ 0x00#8 := by decide

/-! ### The rules are masks of zero -/

theorem ackMask_eq_zero {P : Params} {req rx : Bank} : ackMask P req rx = 0#5 ↔ IsAck P req rx := by
  simp [ackMask, mismatch_eq_zero, IsAck]

theorem drepMask_eq_zero {req rx : Bank} : drepMask req rx = 0#5 ↔ IsDeviceReply req rx := by
  simp [drepMask, mismatch_eq_zero, IsDeviceReply]

theorem srepMask_eq_zero {P : Params} {req rx : Bank} : srepMask P req rx = 0#5 ↔ IsSystemReply P req rx := by
  simp [srepMask, mismatch_eq_zero, IsSystemReply]

/-! ### The step of a rule -/

theorem checkMask_pass {mask : BitVec 5} (h : mask = 0#5) (code : ErrorCode) (s : State) :
    checkMask mask code s = .ended s :=
  if_pos h

theorem checkMask_fail {mask : BitVec 5} (h : mask ≠ 0#5) (code : ErrorCode) (s : State) :
    checkMask mask code s = .raised code (mask.setWidth 8) s :=
  if_neg h

section
variable {s : State} {r : PhaseRun} {p : Phase} {mask : BitVec 5} {code : ErrorCode}
  (hr : r ∈ ackRuns ++ drepRuns ++ srepRuns) (hf : r.fits p) (hs : s.runs r.op r.idx)
  (hc : runPhase p s = checkMask mask code s)

include hr hf hs hc

theorem exec_check : exec r.instr s = (checkMask mask code s).outcome := by
  rw [← hc]
  simp only [List.mem_append] at hr
  exact exec_run_phase (by simp only [List.mem_append]; tauto) hf hs

/-- A rule that holds ends its phase and writes nothing. -/
theorem exec_check_pass (h : mask = 0#5) : exec r.instr s = .next (s.moved r.last) := by
  obtain ⟨-, ho, hi⟩ := id hs
  rw [exec_check hr hf hs hc, checkMask_pass h]
  exact outcome_ended ho hi hf.2

/-- A rule that fails ends the command, with the mask in ERRINFO. -/
theorem exec_check_fail (h : mask ≠ 0#5) :
    exec r.instr s = .next (s.failed r.stage code (mask.setWidth 8)) := by
  rw [exec_check hr hf hs hc, checkMask_fail h]
  exact outcome_raised hs hf.1

end

/-- Settles O43: the mask is 0 exactly where the rule holds, and nothing sets its bit 2. -/
theorem checkAckTestsFourFields : Obligations.CheckAckTestsFourFields := by
  intro r hr s hs
  have hmem : r ∈ ackRuns ++ drepRuns ++ srepRuns := by simp [hr]
  rw [← ackMask_eq_zero]
  refine ⟨exec_check_pass hmem (ackRuns_fit r hr) hs rfl, fun h => ⟨_, errInfo_ne_zero _ h, ?_⟩⟩
  obtain ⟨hdev, hcls, hidx, hmfr, htyp, hhigh⟩ := errInfo_bits s.rx Config.params.mcType Config.params.ctrlVendor false
    Config.params.ackClass s.req.device rfl
  exact ⟨hdev, hcls, hidx, hmfr, htyp, hhigh, exec_check_fail hmem (ackRuns_fit r hr) hs rfl h⟩

/-- Settles O44: the mask is 0 exactly where the rule holds. -/
theorem checkDrepTestsFiveFields : Obligations.CheckDrepTestsFiveFields := by
  intro r hr s hs
  have hmem : r ∈ ackRuns ++ drepRuns ++ srepRuns := by simp [hr]
  rw [← drepMask_eq_zero]
  refine ⟨exec_check_pass hmem (drepRuns_fit r hr) hs rfl, fun h => ⟨_, errInfo_ne_zero _ h, ?_⟩⟩
  obtain ⟨hdev, hcls, hidx, hmfr, htyp, hhigh⟩ := errInfo_bits s.rx s.req.deviceType s.req.manufacturer
    (s.rx.apiIndex != s.req.apiIndex) s.req.apiClass s.req.device rfl
  exact ⟨hdev, hcls, hidx ▸ bne_iff_ne, hmfr, htyp, hhigh, exec_check_fail hmem (drepRuns_fit r hr) hs rfl h⟩

/-- Settles O45: the mask is 0 exactly where the rule holds. -/
theorem checkSrepTestsTheSystemCodes : Obligations.CheckSrepTestsTheSystemCodes := by
  intro r hr s hs
  have hmem : r ∈ ackRuns ++ drepRuns ++ srepRuns := by simp [hr]
  rw [← srepMask_eq_zero]
  refine ⟨exec_check_pass hmem (srepRuns_fit r hr) hs rfl, fun h => ⟨_, errInfo_ne_zero _ h, ?_⟩⟩
  obtain ⟨hdev, hcls, hidx, hmfr, htyp, hhigh⟩ := errInfo_bits s.rx Config.params.sysType Config.params.sysVendor
    (s.rx.apiIndex != s.req.apiIndex) Config.params.sysClass s.req.device rfl
  exact ⟨hdev, hcls, hidx ▸ bne_iff_ne, hmfr, htyp, hhigh, exec_check_fail hmem (srepRuns_fit r hr) hs rfl h⟩

/-! ### COPY_RPL -/

/-- What COPY_RPL leaves, before the sequencer moves (R174). -/
def State.copied (s : State) : State := { s with rpl := s.rx, rplValid := true }

/-- Settles O46: the phase's end, and the banks at their addresses. -/
theorem copyRplCopiesTheBank : Obligations.CopyRplCopiesTheBank := by
  intro r hr s hs
  have hfit := copyRuns_fit r hr
  obtain ⟨-, ho, hi⟩ := id hs
  constructor
  · rw [exec_run_phase (by simp [hr]) hfit hs]
    exact outcome_ended (t := s.copied) ho hi hfit.2
  · intro k
    rw [peek_bank (locOf_rplAddr k), peek_bank (locOf_rxAddr k)]
    rfl

end Sys2Proof.Machine
end

section
/-! SUPPORT. The exchanges from a host's write to their end, with the model's default order of moves (log 4): the
request is sent, each response is read and decoded, and its rule ends the phase or the command (O55 to O57). -/

namespace Sys2Proof.Machine

open Sys2Proof

/-- The invariant holds along every run. -/
theorem run_inv {n : Nat} {s t : State} (h : s.Inv) (hrun : core.run n s = .next t) : t.Inv := by
  induction n generalizing s with
  | zero => exact Host.Outcome.next.inj hrun ▸ h
  | succ n ih =>
    simp only [Host.Core.run] at hrun
    split at hrun
    · next u hu => exact ih (everyStepKeepsInv s u h hu) hrun
    · cases hrun
    · cases hrun

/-! ### The exchanges' phases -/

/-- The OPs of XCMD, XQRY and XSQRY (R183 to R185). -/
def exchangeOps : List (BitVec 4) := [0x8#4, 0x9#4, 0xA#4]

/-- The OPs of XQRY and XSQRY (R184, R185). -/
def queryOps : List (BitVec 4) := [0x9#4, 0xA#4]

/-- A place of a command in R31's table. -/
def tableRow (op idx : BitVec 4) (last : Bool) (stage : Stage) : PhaseRun := ⟨commandOfOp op, op, idx, last, stage⟩

theorem query_exchange : ∀ op ∈ queryOps, op ∈ exchangeOps := by decide

theorem exchange_request : ∀ op ∈ exchangeOps, 1 ≤ op.toNat ∧ op.toNat ≤ 10 ∧
    (tableRow op 0x0#4 false .request).fits .encode ∧ (tableRow op 0x1#4 false .request).fits .write := by decide

theorem exchange_first : ∀ op ∈ exchangeOps, tableRow op 0x3#4 false .first ∈ decodeRuns := by decide

theorem query_second : ∀ op ∈ queryOps, tableRow op 0x7#4 false .second ∈ decodeRuns := by decide

/-- A query's accept clears RPL_VALID (R82). -/
theorem query_clears : ∀ op ∈ queryOps, (0x0#4 ++ op : Byte) = 0x09#8 ∨ (0x0#4 ++ op : Byte) = 0x0A#8 := by decide

/-- The phase that checks a query's reply (R184, R185). -/
def replyCheck (op : BitVec 4) : Phase := if op = 0x9#4 then .checkDrep else .checkSrep

/-- The mask of a query's reply (R171, R172). -/
def replyMask (op : BitVec 4) (req rx : Bank) : BitVec 5 :=
  if op = 0x9#4 then drepMask req rx else srepMask Config.params req rx

/-- The codes a query's reply is compared with, by the byte of its command. -/
theorem replyMask_eq {op : BitVec 4} (hop : op ∈ queryOps) (req rx : Bank) : replyMask op req rx =
    mismatch (rx.deviceType != if 0x0#4 ++ op = 0x09#8 then req.deviceType else Config.params.sysType)
      (rx.manufacturer != if 0x0#4 ++ op = 0x09#8 then req.manufacturer else Config.params.sysVendor)
      (rx.apiIndex != req.apiIndex)
      (rx.apiClass != if 0x0#4 ++ op = 0x09#8 then req.apiClass else Config.params.sysClass)
      (rx.device != req.device) := by
  simp only [queryOps, List.mem_cons, List.not_mem_nil, or_false] at hop
  rcases hop with rfl | rfl <;> rfl

theorem query_checks : ∀ op ∈ queryOps, (tableRow op 0x4#4 false .first).fits (replyCheck op) ∧
    (tableRow op 0x5#4 false .first).fits .copyRpl ∧ (tableRow op 0x8#4 true .second).fits .checkAck := by decide

theorem replyCheck_ne (op : BitVec 4) : replyCheck op ≠ .write := by
  unfold replyCheck; split <;> decide

theorem runPhase_replyCheck (op : BitVec 4) (s : State) :
    runPhase (replyCheck op) s = checkMask (replyMask op s.req s.rx) .protoReply s := by
  unfold replyCheck replyMask; split <;> rfl

/-! ### A phase's step -/

/-- The block runs a command at a phase index and moves on its own (log 4), with the invariant and no rd()
outstanding. -/
structure State.AtPhase (s : State) (op idx : BitVec 4) : Prop where
  inv : s.Inv
  turns : s.turns = []
  runs : s.runs op idx
  rxReq : s.rxReq = false

section
variable {s t : State} {op idx : BitVec 4} {last : Bool} {st : Stage} {p : Phase}

theorem State.AtPhase.rst (h : s.AtPhase op idx) : s.rst = false := by
  obtain ⟨-, -, -, -, hrst⟩ := h.inv.busy h.runs.1
  exact hrst

theorem State.AtPhase.lastCmd (h : s.AtPhase op idx) : s.lastCmd = 0x0#4 ++ op := by
  obtain ⟨hb, hop, -⟩ := h.runs
  obtain ⟨-, -, hcmd, -⟩ := h.inv.busy hb
  rw [hcmd, hop]

/-- With an answer for WRITE, the next step is the phase's. -/
theorem State.AtPhase.step_eq (h : s.AtPhase op idx) (hf : (tableRow op idx last st).fits p)
    (hw : p = .write → s.chanOut ≠ []) : step s = (runPhase p s).outcome :=
  step_phase h.turns h.rst (h.runs.current.trans hf.1) (fun _ => .inl h.rxReq) fun hp => .inr (hw hp)

theorem State.AtPhase.step_ended (h : s.AtPhase op idx) (hf : (tableRow op idx last st).fits p)
    (hw : p = .write → s.chanOut ≠ []) (he : runPhase p s = .ended t) : step s = .next (t.moved last) := by
  obtain ⟨-, hop, hidx⟩ := h.runs
  obtain ⟨-, -, -, -, -, -, -, -, hop', hidx'⟩ := phase_state (congrArg PhaseEnd.state? he)
  rw [h.step_eq hf hw, he]
  exact outcome_ended (hop'.trans hop) (hidx'.trans hidx) hf.2

theorem State.AtPhase.step_raised {code : ErrorCode} {info : Byte} (h : s.AtPhase op idx)
    (hf : (tableRow op idx last st).fits p) (hw : p ≠ .write) (he : runPhase p s = .raised code info s) :
    step s = .next (s.failed st code info) := by
  rw [h.step_eq hf (fun hp => absurd hp hw), he]
  exact outcome_raised h.runs hf.1

/-- WRITE's offer and the peer's Ok: the request's whole frame goes out (R142). -/
theorem State.AtPhase.run_write {more : List TxAnswer} (h : s.AtPhase op idx)
    (hf : (tableRow op idx last st).fits .write) (hq : s.txReq = false) (hc : s.chanOut = .ok :: more) :
    core.run 2 s = .next ((s.wrote .ok more).moved last) ∧ s.txFrame = encodeFrame s.req := by
  have hready : s.chanOut ≠ [] := hc ▸ List.cons_ne_nil _ _
  have hoffered := h.step_eq hf fun _ => hready
  rw [runPhase, writePhase_offer h.inv.tx_plen.1 hq, outcome_waiting] at hoffered
  have hoffer : ({ s with txReq := true } : State).AtPhase op idx :=
    ⟨everyStepKeepsInv _ _ h.inv hoffered, h.turns, h.runs, h.rxReq⟩
  have hanswered := hoffer.step_ended hf (fun _ => hready) (writePhase_ok h.inv.tx_plen.1 rfl hc)
  obtain ⟨-, -, -, hframe⟩ := h.inv.write_frame (h.runs.phase hf.1)
  exact ⟨(run_succ hoffered).trans (run_one hanswered), hframe⟩

end

/-! ### The request -/

/-- An idle block whose host only writes an exchange's command, and a peer that takes one frame. -/
structure State.Begins (s : State) (op : BitVec 4) (more : List TxAnswer) : Prop where
  op_mem : op ∈ exchangeOps
  inv : s.Inv
  idle : s.busy = false
  rst : s.rst = false
  turns : s.turns = []
  host : s.host = [.write 0x00#8 (0x0#4 ++ op)]
  size : s.req.dataSize.toNat ≤ 8
  chanOut : s.chanOut = .ok :: more

/-- The exchange that s begins has sent its request, and t stands at a later phase of it. -/
structure State.Asked (s t : State) (op idx : BitVec 4) (more : List TxAnswer) : Prop extends t.AtPhase op idx where
  req : t.req = s.req
  txValid : t.txValid = true
  sent : t.sent = s.sent ++ [⟨encodeFrame s.req, .ok⟩]
  chanOut : t.chanOut = more

/-- The command of s, the host's last write, is accepted. -/
def State.begun (s : State) (op : BitVec 4) : State := ({ s with host := [] } : State).accept (0x0#4 ++ op)

/-- An exchange's accept, ENCODE and WRITE. -/
theorem State.Begins.run_request {s : State} {op : BitVec 4} {more : List TxAnswer} (h : s.Begins op more) :
    ∃ t : State, core.run 4 s = .next t ∧ s.Asked t op 0x2#4 more ∧ t.chanIn = s.chanIn ∧ t.rpl = s.rpl ∧
      t.rplValid = (s.begun op).rplValid := by
  obtain ⟨hlo, hhi, hencode, hwrite⟩ := exchange_request op h.op_mem
  obtain ⟨-, -, hrx, htx⟩ := h.inv.idle h.idle
  have haccepted : step s = .next (s.begun op) := step_accept ⟨hlo, hhi⟩ h.turns h.idle h.rst h.host
  have hbegun : (s.begun op).AtPhase op 0x0#4 :=
    ⟨everyStepKeepsInv _ _ h.inv haccepted, h.turns, ⟨rfl, split44_lo _ _, rfl⟩, hrx⟩
  have hencoded := hbegun.step_ended hencode (fun hw => nomatch hw) (encodePhase_ok h.size)
  have hready : ((s.begun op).encoded.moved false).AtPhase op 0x1#4 :=
    ⟨everyStepKeepsInv _ _ hbegun.inv hencoded, h.turns, ⟨rfl, split44_lo _ _, rfl⟩, hrx⟩
  obtain ⟨hwritten, hframe⟩ := hready.run_write hwrite htx h.chanOut
  have hrun := (run_succ haccepted).trans ((run_succ hencoded).trans hwritten)
  exact ⟨_, hrun, ⟨⟨run_inv h.inv hrun, h.turns, ⟨rfl, split44_lo _ _, rfl⟩, hrx⟩, rfl, rfl,
    congrArg (fun frame => s.sent ++ [⟨frame, .ok⟩]) hframe, rfl⟩, rfl, rfl, rfl⟩

/-! ### A response -/

/-- From s to t a message has been received and decoded, and the channel has come to rest. -/
def State.Heard (s t : State) (m : Bank) (rest : List RxAnswer) : Prop :=
  t.rx = m.message ∧ t.rxValid = true ∧ t.chanIn = rest ∧ t.rpl = s.rpl ∧ t.rplValid = s.rplValid

/-- In an exchange SYNC stands before each DECODE (R31). -/
theorem sync_before_decode : ∀ d ∈ decodeRuns, d.last = false →
    (phaseList d.op)[(d.idx - 1#4).toNat]? = some (.sync, d.stage) := by decide

section
variable {s u : State} {op idx : BitVec 4} {more : List TxAnswer}

/-- A run within the exchange that neither asks again nor leaves an rd() outstanding. -/
theorem State.Asked.later {n : Nat} {idx' : BitVec 4} {v : State} (h : s.Asked u op idx more)
    (hrun : core.run n u = .next v) (hruns : v.runs op idx') (hq : v.rxReq = false)
    (hv : v = { v with turns := u.turns, req := u.req, txValid := u.txValid, sent := u.sent, chanOut := u.chanOut }) :
    s.Asked v op idx' more :=
  ⟨⟨run_inv h.inv hrun, (congrArg State.turns hv).trans h.turns, hruns, hq⟩, (congrArg State.req hv).trans h.req,
    (congrArg State.txValid hv).trans h.txValid, (congrArg State.sent hv).trans h.sent,
    (congrArg State.chanOut hv).trans h.chanOut⟩

/-- SYNC and DECODE of a response's frame, after noise without START. -/
theorem State.Asked.run_response {st : Stage} {m : Bank} {noise : List Byte} {rest : List RxAnswer}
    (h : s.Asked u op (idx - 1#4) more) (hd : tableRow op idx false st ∈ decodeRuns) (hm : m.dataSize.toNat ≤ 8)
    (hn : startByte ∉ noise) (hc : u.chanIn = answers (noise ++ encodeFrame m) ++ rest) :
    ∃ t : State, core.run (noise.length + (encodeFrame m).length + 2) u = .next t ∧
      s.Asked t op (idx + 1#4) more ∧ u.Heard t m rest := by
  have hsync := sync_before_decode _ hd rfl
  obtain ⟨hbusy, hop, hidx⟩ := h.runs
  have hnext : u.seqIdx + 1#4 = idx := by rw [hidx, BitVec.sub_add_cancel]
  obtain ⟨v, hrecv, hst, hv⟩ := run_sync h.turns h.rst (h.runs.phase hsync) h.rxReq h.inv.mem_wf hm hn hc
  have hav : s.Asked v op idx more :=
    h.later hrecv (by rw [hv]; exact ⟨hbusy, hop, hnext⟩) (by rw [hv]) (by rw [hv])
  have hdecoded := step_decode hd hav.runs hav.turns hav.rst hm hst
  have hat : s.Asked (({ v with rx := m.message, rxValid := true } : State).moved false) op (idx + 1#4) more := by
    obtain ⟨hbusy, hop, hidx⟩ := hav.runs
    exact hav.later (run_one hdecoded) ⟨hbusy, hop, congrArg (· + 1#4) hidx⟩ hav.rxReq rfl
  have hkept : v.chanIn = rest ∧ v.rpl = u.rpl ∧ v.rplValid = u.rplValid := by
    rw [hv]
    exact ⟨rfl, rfl, rfl⟩
  refine ⟨_, ?_, hat, rfl, rfl, hkept⟩
  rw [show noise.length + (encodeFrame m).length + 2 = 1 + (noise.length + (encodeFrame m).length) + 1 by omega]
  exact (run_add hrecv).trans (run_one hdecoded)

/-- A phase that writes nothing but RPL and RPL_VALID leaves the exchange at the next phase. -/
theorem State.Asked.step_ended {st : Stage} {p : Phase} {v : State} (h : s.Asked u op idx more)
    (hf : (tableRow op idx false st).fits p) (hw : p ≠ .write) (he : runPhase p u = .ended v)
    (hv : v = { u with rpl := v.rpl, rplValid := v.rplValid }) :
    step u = .next (v.moved false) ∧ s.Asked (v.moved false) op (idx + 1#4) more := by
  have hstep := h.toAtPhase.step_ended hf (fun hp => absurd hp hw) he
  obtain ⟨hbusy, hop, hidx⟩ := h.runs
  refine ⟨hstep, h.later (run_one hstep) ?_ ?_ ?_⟩
  · rw [hv]; exact ⟨hbusy, hop, congrArg (· + 1#4) hidx⟩
  · rw [hv]; exact h.rxReq
  · rw [hv]; rfl

/-- The acknowledgement's check ends the command (R170). -/
theorem State.Asked.finishes {st : Stage} {ack : Bank} (h : s.Asked u op idx more)
    (hf : (tableRow op idx true st).fits .checkAck) (hrx : u.rx = ack.message) (hack : IsAck Config.params s.req ack) :
    step u = .next u.finished :=
  h.toAtPhase.step_ended hf (fun hp => nomatch hp)
    (checkMask_pass (ackMask_eq_zero.mpr (by rw [h.req, hrx]; exact hack)) _ _)

end

/-! ### The three exchanges -/

/-- Settles O55: the request, the acknowledgement, and its check. -/
theorem xcmdCompletesOnTheAcknowledgement : Obligations.XcmdCompletesOnTheAcknowledgement := by
  intro s ack noise rest more hinv hb hr hturns hh hsize hm hack hn hout hc
  have hbegin : s.Begins 0x8#4 more := ⟨by decide, hinv, hb, hr, hturns, hh, hsize, hout⟩
  obtain ⟨u, hrequest, hu, huc, hurpl, -⟩ := hbegin.run_request
  obtain ⟨t, hresponse, ht, hrx, hrxv, htc, htrpl, -⟩ :=
    hu.run_response (exchange_first _ hbegin.op_mem) hm hn (huc.trans hc)
  have hend := ht.finishes (st := .first) (by decide) hrx hack
  refine ⟨t.finished, ?_, rfl, rfl, rfl, ht.lastCmd, ht.txValid, hrxv, hrx, htrpl.trans hurpl, ht.sent, htc, ht.chanOut⟩
  rw [show noise.length + (encodeFrame ack).length + 7 = 4 + ((noise.length + (encodeFrame ack).length + 2) + 1) by
    omega, run_add hrequest, run_add hresponse, run_one hend]

/-- A query's request and the reply to it: what stands in RX at the reply's check. -/
theorem State.Begins.run_reply {s : State} {op : BitVec 4} {more : List TxAnswer} {reply : Bank}
    {rest : List RxAnswer} (h : s.Begins op more) (hop : op ∈ queryOps) (hm : reply.dataSize.toNat ≤ 8)
    (hc : s.chanIn = answers (encodeFrame reply) ++ rest) :
    ∃ t : State, core.run ((encodeFrame reply).length + 6) s = .next t ∧ s.Asked t op 0x4#4 more ∧
      t.rx = reply.message ∧ t.chanIn = rest ∧ t.rpl = s.rpl ∧ t.rplValid = false := by
  obtain ⟨u, hrequest, hu, huc, hurpl, hurv⟩ := h.run_request
  obtain ⟨t, hresponse, ht, hrx, -, htc, htrpl, htrv⟩ :=
    hu.run_response (noise := []) (exchange_first _ h.op_mem) hm List.not_mem_nil (huc.trans hc)
  refine ⟨t, ?_, ht, hrx, htc, htrpl.trans hurpl, htrv.trans (hurv.trans ?_)⟩
  · rw [show (encodeFrame reply).length + 6 = 4 + (([] : List Byte).length + (encodeFrame reply).length + 2) by
      simp only [List.length_nil]; omega, run_add hrequest, hresponse]
  · exact if_pos (query_clears _ hop)

/-- Settles O56: the request, the reply and its check, COPY_RPL, the acknowledgement and its check. -/
theorem queryKeepsTheReplyAndTheAcknowledgement : Obligations.QueryKeepsTheReplyAndTheAcknowledgement := by
  intro s v reply ack rest more hinv hb hr hturns hh hv hsize hreply hack hisAck hout hc
  obtain ⟨op, hop, rfl, hrule⟩ : ∃ op ∈ queryOps, v = 0x0#4 ++ op ∧ replyMask op s.req reply = 0#5 := by
    rcases hv with ⟨rfl, h⟩ | ⟨rfl, h⟩
    · exact ⟨0x9#4, by decide, rfl, drepMask_eq_zero.mpr h⟩
    · exact ⟨0xA#4, by decide, rfl, srepMask_eq_zero.mpr h⟩
  obtain ⟨hcheck, hcopy, hlast⟩ := query_checks op hop
  have hbegin : s.Begins op more := ⟨query_exchange op hop, hinv, hb, hr, hturns, hh, hsize, hout⟩
  obtain ⟨u, hrunReply, hu, hurx, huc, -, -⟩ := hbegin.run_reply hop hreply (rest := answers (encodeFrame ack) ++ rest)
    (by rw [hc, ← List.append_assoc, answers, answers, answers, List.map_append])
  obtain ⟨hchecked, hcv⟩ := hu.step_ended hcheck (replyCheck_ne op)
    ((runPhase_replyCheck op u).trans (checkMask_pass (by rw [hu.req, hurx]; exact hrule) _ _)) rfl
  obtain ⟨hcopied, hcw⟩ := hcv.step_ended hcopy (by decide) (v := (u.moved false).copied) rfl rfl
  obtain ⟨t, hrunAck, ht, htrx, htrxv, htc, htrpl, htrv⟩ :=
    hcw.run_response (idx := 0x7#4) (noise := []) (query_second op hop) hack List.not_mem_nil huc
  have hend := ht.finishes hlast htrx hisAck
  refine ⟨t.finished, ?_, rfl, rfl, rfl, ht.lastCmd, ht.txValid, htrxv, htrv, htrpl.trans hurx, htrx, ht.sent, htc,
    ht.chanOut⟩
  have hrun := (run_add hrunReply).trans
    ((run_succ hchecked).trans ((run_succ hcopied).trans ((run_add hrunAck).trans (run_one hend))))
  rw [List.length_nil] at hrun
  rw [← hrun]
  congr 1
  omega

/-- Settles O57: the request, the reply, and its check, which fails with the mask in ERRINFO. -/
theorem failedReplyLeavesTheRestUnread : Obligations.FailedReplyLeavesTheRestUnread := by
  intro s v reply rest more hinv hb hr hturns hh hv hsize hreply hout hc
  obtain ⟨op, hop, rfl, hrule⟩ : ∃ op ∈ queryOps, v = 0x0#4 ++ op ∧ replyMask op s.req reply ≠ 0#5 := by
    rcases hv with ⟨rfl, h⟩ | ⟨rfl, h⟩
    · exact ⟨0x9#4, by decide, rfl, mt drepMask_eq_zero.mp h⟩
    · exact ⟨0xA#4, by decide, rfl, mt srepMask_eq_zero.mp h⟩
  obtain ⟨hcheck, -, -⟩ := query_checks op hop
  have hbegin : s.Begins op more := ⟨query_exchange op hop, hinv, hb, hr, hturns, hh, hsize, hout⟩
  obtain ⟨t, hrun, ht, hrx, htc, hrpl, hrv⟩ := hbegin.run_reply hop hreply hc
  have hend := ht.step_raised hcheck (replyCheck_ne op)
    ((runPhase_replyCheck op t).trans (checkMask_fail (by rw [ht.req, hrx]; exact hrule) _ _))
  have hmask : replyMask op t.req t.rx = replyMask op s.req reply := by
    rw [ht.req, hrx]
    rfl
  obtain ⟨hdev, hcls, hidx, hmfr, htyp, hhigh⟩ := errInfo_bits _ _ _ _ _ _
    (congrArg (BitVec.setWidth 8) (hmask.trans (replyMask_eq hop s.req reply)))
  refine ⟨t.failed .first .protoReply ((replyMask op t.req t.rx).setWidth 8), ?_, rfl, rfl, ht.lastCmd, rfl, rfl, hdev,
    hcls, hidx ▸ bne_iff_ne, hmfr, htyp, hhigh, hrv, hrpl, hrx, ht.sent, htc, ht.chanOut⟩
  rw [show (encodeFrame reply).length + 7 = (encodeFrame reply).length + 6 + 1 from rfl, run_add hrun, run_one hend]

end Sys2Proof.Machine
end

section
/-! SUPPORT. The commands with no phase of their own: NOP (O13), and ABORT on an idle block and at every phase of every
command (O14). -/

namespace Sys2Proof.Machine

open Sys2Proof

/-! ### A command with no phases -/

/-- XQRY and XSQRY, whose accepts clear RPL_VALID, have phases (R31). -/
theorem byte_without_phases : ∀ op : BitVec 4, phaseList op = [] →
    (0x0#4 ++ op : Byte) ≠ 0x09#8 ∧ (0x0#4 ++ op : Byte) ≠ 0x0A#8 := by decide

/-- Accepting a command with no phases completes it, with every other field kept (R82, R32). -/
theorem issue_without_phases {op : BitVec 4} (hop : phaseList op = []) (s : State) :
    s.issue op = ({ s with lastCmd := 0x0#4 ++ op, hostOvr := false } : State).finished := by
  obtain ⟨h9, hA⟩ := byte_without_phases op hop
  rw [issue_eq, if_pos (List.isEmpty_iff.mpr hop), State.accept, if_neg (not_or.mpr ⟨h9, hA⟩)]
  rfl

theorem exec_nop_idle {s : State} (hb : s.busy = false) : exec .nop s = .next (s.issue 0x0#4) :=
  if_neg (Bool.eq_false_iff.mp hb)

theorem exec_abort_idle {s : State} (hb : s.busy = false) : exec .abort s = .next (s.issue 0xF#4) :=
  if_neg (Bool.eq_false_iff.mp hb)

/-- Settles O13: NOP is issued, and it has no phases. -/
theorem nopOnlyCompletes : Obligations.NopOnlyCompletes :=
  ⟨rfl, fun s hb => (exec_nop_idle hb).trans (congrArg Host.Outcome.next (issue_without_phases rfl s))⟩

/-! ### ABORT while a command runs -/

/-- A busy block ends its command at the running phase's stage, whatever the phase (R201). -/
theorem exec_abort_busy {s : State} (hb : s.busy = true) :
    exec .abort s = .next (s.withdraw.failed s.stage .aborted 0x00#8) :=
  if_pos hb

/-- Every row of R31's tables places one of the phases at the row's stage. -/
theorem run_phase_stage {r : PhaseRun}
    (hr : r ∈ encodeRuns ++ writeRuns ++ syncRuns ++ decodeRuns ++ ackRuns ++ drepRuns ++ srepRuns ++ copyRuns) :
    ∃ p, (phaseList r.op)[r.idx.toNat]? = some (p, r.stage) := by
  simp only [List.mem_append] at hr
  obtain ((((((h | h) | h) | h) | h) | h) | h) | h := hr
  · exact ⟨_, (encodeRuns_fit r h).1⟩
  · exact ⟨_, (writeRuns_fit r h).1⟩
  · exact ⟨_, (syncRuns_fit r h).1.1⟩
  · exact ⟨_, (decodeRuns_fit r h).1⟩
  · exact ⟨_, (ackRuns_fit r h).1⟩
  · exact ⟨_, (drepRuns_fit r h).1⟩
  · exact ⟨_, (srepRuns_fit r h).1⟩
  · exact ⟨_, (copyRuns_fit r h).1⟩

/-- Settles O14: an idle ABORT is issued and has no phases; a busy one ends the command at its row's stage. -/
theorem abortEndsTheRunningCommand : Obligations.AbortEndsTheRunningCommand := by
  refine ⟨rfl, fun s hb => ?_, fun r hr s hs => ?_⟩
  · exact (exec_abort_idle hb).trans (congrArg Host.Outcome.next (issue_without_phases rfl s))
  · obtain ⟨p, hp⟩ := run_phase_stage hr
    obtain ⟨hb, -, -⟩ := id hs
    rw [exec_abort_busy hb, hs.stage hp]
    rfl

end Sys2Proof.Machine
end

section
/-! SUPPORT. Every step answers (O50): the host's turn does so from every state, and the block's from the states with the
invariant, where a busy block has a phase to run and no phase leaves a buffer. -/

namespace Sys2Proof.Machine

open Sys2Proof

/-- A command byte that the host hands to exec is accepted by an idle block, or is a busy block's ABORT (R82, R201). -/
theorem exec_decodeCommand_answers {s : State} {v : Byte} (h : s.busy = false ∨ v = 0x0F#8) :
    ∃ t, exec (decodeCommand v) s = .next t := by
  cases hb : s.busy with
  | false =>
    obtain ⟨_, -, hissued⟩ | hillegal := decodeCommand_cases v
    · exact ⟨_, hissued s hb⟩
    · exact ⟨_, hillegal s hb⟩
  | true =>
    obtain rfl := h.resolve_left (by simp [hb])
    exact ⟨_, exec_abort_busy hb⟩

theorem hostWrite_answers (a v : Byte) (s : State) : ∃ t, (hostWrite a v s).result = .next t := by
  unfold hostWrite
  split
  · next h => exact exec_decodeCommand_answers h.2
  · exact ⟨_, rfl⟩

/-- No bus cycle of the host stops the machine, whatever the state. -/
theorem hostTurn_answers (s : State) : ∃ t, (hostTurn s).result = .next t := by
  unfold hostTurn
  split
  · exact ⟨_, rfl⟩
  · split
    · exact ⟨_, rfl⟩
    · exact hostWrite_answers _ _ _
  · exact ⟨_, rfl⟩
  · exact ⟨_, rfl⟩

theorem blockTurn_idle {s : State} (hb : s.busy = false) : blockTurn s = .other (.next s) :=
  if_pos (by simp [hb])

/-- Under the invariant the block's turn is a hold or a phase's step, and no phase leaves a buffer (R25, R26). -/
theorem State.Inv.blockTurn_answers {s : State} (h : s.Inv) : ∃ t, (blockTurn s).result = .next t := by
  cases hb : s.busy with
  | false => exact ⟨s, congrArg Fetched.result (blockTurn_idle hb)⟩
  | true =>
    obtain ⟨-, -, -, -, hrst⟩ := h.busy hb
    obtain ⟨⟨p, st⟩, hphase⟩ := Option.ne_none_iff_exists'.mp (h.current_ne_none hb)
    rw [block_phase hrst hphase]
    exact outcome_ok (phase_ok h hphase)

/-- Settles O50: each agent's turn answers, the block's by the invariant. -/
theorem everyStepAnswers : Obligations.EveryStepAnswers := by
  intro s h
  rw [step_eq, fetch]
  cases s.nextTurn with
  | rst level => exact ⟨_, rfl⟩
  | host => exact hostTurn_answers _
  | block => exact (h.turn s.host s.reads).blockTurn_answers

end Sys2Proof.Machine
end

section
/-! SUPPORT. Reset and the reset line (R250 to R252): the state after reset (O24, O47), the turn that drives the line
(O25), and the turns of the host and the block while it is high (O26). -/

namespace Sys2Proof.Machine

open Sys2Proof

/-! ### The reset state -/

/-- Each of the 256 locations shows a register's, a zero bank's or an empty buffer's byte (R39, R251). -/
theorem peek_reset : ∀ a : Byte, State.reset.peek a = 0x00#8 := by decide

/-- No location shows the reset line or the environment, which are all that resetAll takes from its arguments. -/
theorem peek_resetAll (s : State) (level : Bool) (a : Byte) : (s.resetAll level).peek a = 0x00#8 :=
  (show (s.resetAll level).peek a = State.reset.peek a from rfl).trans (peek_reset a)

/-- Settles O24: with the line low a read is the location's byte. -/
theorem resetReadsZeroEverywhere : Obligations.ResetReadsZeroEverywhere :=
  ⟨fun a => (busRead_of_low State.reset_rst a).trans (peek_reset a), rfl, rfl, rfl, rfl⟩

/-- Settles O47: the reset line leaves a state with the invariant, and no rd() or DECODE is there to be coupled. -/
theorem invHoldsAtReset : Obligations.InvHoldsAtReset :=
  ⟨inv_reset State.reset false, coupled_of_unread rfl (fun hdec => nomatch hdec)⟩

/-! ### The line's turn -/

/-- The reset line's turn drives it. -/
theorem step_drives_rst {s : State} {level : Bool} {turns : List Turn} (ht : s.turns = .rst level :: turns) :
    step s = .next (({ s with turns := turns } : State).setRst level) := by
  rw [step_eq]
  simp [fetch, State.nextTurn, ht, State.popTurn, Fetched.result]

/-- Settles O25: an assertion and a release are a resetAll, and a low line driven low is none. -/
theorem resetLineClearsTheRegistersOnly : Obligations.ResetLineClearsTheRegistersOnly := by
  intro s level turns ht
  rw [step_drives_rst ht]
  refine ⟨fun h => ?_, fun hlevel hr => ?_⟩
  · rw [State.setRst_resets (s := { s with turns := turns }) h]
    exact ⟨_, rfl, peek_resetAll _ level, rfl, rfl, rfl, rfl, rfl, rfl, rfl, rfl, rfl⟩
  · rw [hlevel, State.setRst_low (s := { s with turns := turns }) hr]

/-! ### The other turns while the line is high -/

section
variable {s : State} {rest : List HostOp}

theorem busRead_of_high (hr : s.rst = true) (a : Byte) : s.busRead a = 0x00#8 := if_pos hr

theorem hostTurn_write_of_high {a v : Byte} (hh : s.host = .write a v :: rest) (hr : s.rst = true) :
    hostTurn s = .other (.next { s with host := rest }) := by
  simp only [hostTurn, hh, hr, if_true]

/-- WAIT's read has bit 0 = 0, so WAIT ends (R102; log 14). -/
theorem hostTurn_wait_of_high (hh : s.host = .wait :: rest) (hr : s.rst = true) :
    hostTurn s = .other (.next (({ s with host := rest } : State).logRead 0x00#8)) := by
  have hbit : (0x00#8).getLsbD 0 = false := rfl
  simp only [hostTurn, hh, busRead_of_high hr, hbit, Bool.false_eq_true, if_false]

theorem blockTurn_of_high (hr : s.rst = true) : blockTurn s = .other (.next s) :=
  if_pos (by simp [hr])

end

/-- Settles O26: the write is dropped, both reads return 0x00, and the block holds. -/
theorem nothingHappensDuringReset : Obligations.NothingHappensDuringReset := by
  intro s turns hr
  refine ⟨fun a v rest ht hh => ?_, fun a rest ht hh => ?_, fun rest ht hh => ?_, fun ht => ?_⟩
  · rw [step_host ht, hostTurn_write_of_high (s := { s with turns := turns }) hh hr]
    rfl
  · rw [step_host ht, hostTurn_read (s := { s with turns := turns }) hh,
      busRead_of_high (s := { s with turns := turns }) hr]
    rfl
  · rw [step_host ht, hostTurn_wait_of_high (s := { s with turns := turns }) hh hr]
    rfl
  · rw [step_block ht, blockTurn_of_high (s := { s with turns := turns }) hr]
    rfl

end Sys2Proof.Machine
end
